-- ==== Sys2Proof/Word.lean ====
section
/-! DEFINITION. The word types: bytes of the wire and 16-bit registers (`00_scope.md` R11, R13). -/

namespace Sys2Proof

/-- A byte: an unsigned integer in [0, 255] (R11). -/
abbrev Byte := BitVec 8

/-- A 16-bit register, address or status word (R24 to R26, R37, R50). -/
abbrev Half := BitVec 16

end Sys2Proof
end

