-- ==== Sys2Proof/Config.lean ====
section
/-! DEFINITION. The constants of the wire format (`00_scope.md` R6), the wire's type and command
codes (`43_wire_commands.md` R161, R162), the parameters an implementation fixes (R7) and the one
free value of the model. A literal the source got wrong is corrected here, in one place (U8). -/

namespace Sys2Proof.Config

/-- `START_MARKER`: first byte of every frame (R6, R74). -/
@[simp] abbrev startMarker : Byte := 0xFE
/-- `END_MARKER`: last byte of every frame (R6, R74). -/
@[simp] abbrev endMarker : Byte := 0xFD
/-- `MAX_LEN_EXCL`: exclusive upper bound of `payload_length` (R6, C2). -/
@[simp] abbrev maxLenExcl : Nat := 0xF000
/-- `HEADER_LEN`: bytes before the payload (R6). -/
@[simp] abbrev headerLen : Nat := 6
/-- `OVERHEAD`: header plus end marker (R6). -/
@[simp] abbrev overhead : Nat := 7
/-- `SEQ_MOD`: where the sequence number wraps (R6, R21). -/
@[simp] abbrev seqMod : Nat := 256
/-- `MAX_FRAME`: the largest valid frame (R6). -/
@[simp] abbrev maxFrame : Nat := 0xF006
/-- `TXBUF_DEPTH`: cells of the transmit payload buffer (R7, R31). -/
@[simp] abbrev txBufDepth : Nat := 0xEFFF
/-- `RXBUF_DEPTH`: cells of the receive frame buffer (R7, R32). -/
@[simp] abbrev rxBufDepth : Nat := 0xF006

/-! `command_type` values (R161): "values are part of the wire contract, must match exactly". -/
@[simp] abbrev typeSystem : Byte := 0x00
@[simp] abbrev typeStream : Byte := 0x01
@[simp] abbrev typeClock : Byte := 0x02
@[simp] abbrev typeMetadata : Byte := 0x03
@[simp] abbrev typeNotification : Byte := 0x07
@[simp] abbrev typeGpio : Byte := 0x08

/-! `command` values (R162), each scoped to its `command_type`. -/
@[simp] abbrev cmdReadinessCheck : Byte := 0x00
@[simp] abbrev cmdPlay : Byte := 0x00
@[simp] abbrev cmdGetPlayStatus : Byte := 0x10
@[simp] abbrev cmdSetStereoMode : Byte := 0x20
@[simp] abbrev cmdSetVolume : Byte := 0x22
@[simp] abbrev cmdGetClock : Byte := 0x01
@[simp] abbrev cmdGetAppData : Byte := 0x00

/-- The serial line the platform must provide (`60_exceptions.md` R200, R7 `BAUD`); no rule of the
block reads it. -/
structure SerialLine where
  baud : Nat
  dataBits : Nat
  parityBit : Bool
  stopBits : Nat
  /-- raw, no-canonical mode: no line editing -/
  rawMode : Bool
  /-- every byte value passes both ways unchanged and unechoed -/
  translatesOrEchoes : Bool
  /-- RTS asserted from the moment the link is enabled -/
  rtsAsserted : Bool
  /-- local mode: carrier detect and the other modem inputs are ignored -/
  ignoresModemStatus : Bool
  /-- a read may return no bytes without that being an error (R196), and waits for no fixed count -/
  emptyReadIsNoError : Bool
  /-- whether a read with no bytes there returns at once; else it waits up to `readQuantum` (C7) -/
  readsReturnAtOnce : Bool
  /-- PRESUMED (G1, D29; log entry 18): the order of bits on the line -/
  leastSignificantBitFirst : Bool
  deriving DecidableEq, Repr

/-- FREE VALUE (log entry 18): the source says both that a read returns "as soon as ≥0 bytes are
available" and that it waits up to "a short slice"; `90_conflicts.md` C7 calls this "not decidable and
not needed", so the model takes neither side. -/
opaque readsReturnAtOnce : Bool

/-- R200's line. -/
def serialLine : SerialLine :=
  { baud := 115200, dataBits := 8, parityBit := false, stopBits := 1, rawMode := true,
    translatesOrEchoes := false, rtsAsserted := true, ignoresModemStatus := true,
    emptyReadIsNoError := true, readsReturnAtOnce := readsReturnAtOnce,
    leastSignificantBitFirst := true }

/-- `HANDSHAKE_ATTEMPTS`' default (R7, D19); the handshake takes the number as an argument. -/
def handshakeAttemptsDefault : Nat := 5

/-- What the host does with a timeout in a normal exchange (R7 `NOFRAME_POLICY`, R203). -/
inductive NoFramePolicy
  /-- "fatal everywhere else" (R184) -/
  | fatal
  /-- the host returns "no response" to its caller and goes on -/
  | noResponse
  deriving DecidableEq, Repr, Inhabited

/-- What the host does after a desynchronization: "the caller/driver is responsible for deciding
whether to treat it as fatal or to reset state" (R189, U4). -/
inductive DesyncPolicy
  | fatal
  /-- the source does not say what is reset; the block offers `ACK` and `RST` (U4) -/
  | resetState
  deriving DecidableEq, Repr, Inhabited

/-! The OPEN parameters of R7 (D20 to D22) and U4's: constants without a body (log entry 16). -/
opaque readDeadlineMs : Nat
opaque handshakeSleep : Nat
opaque readQuantum : Nat
opaque noFramePolicy : NoFramePolicy
opaque desyncPolicy : DesyncPolicy

/-- FREE VALUE (log entry 9): what `PLEN` gives on a buffer of fewer than six bytes, where R102
says it "is undefined". -/
opaque plenOfShortBuffer : List Byte → Half

end Sys2Proof.Config
end

