-- ==== Sys2Proof/Syntax.lean ====
section
/-! DEFINITION. The operations of `spec/opcode_table.json`, one constructor per row (R9, R82), and
the words that stand on the block's ports (`30_encoding.md` R70, R83). -/

namespace Sys2Proof

/-- One row of the opcode table. `type`, `cmd`, `seq`, `len` are the frame fields of R74. -/
inductive Instr
  /-- `SEND type, cmd, len` (R121) -/
  | send (type cmd : Byte) (len : Half)
  /-- `ACK` (R122) -/
  | ack
  /-- `TMO` (R123) -/
  | tmo
  /-- `FLT` (R124) -/
  | flt
  /-- `WRTX addr, byte` (R126, R51) -/
  | wrtx (addr : Half) (data : Byte)
  /-- `RDRX addr -> byte` (R127, R54) -/
  | rdrx (addr : Half)
  /-- `RDCSR n -> word` (R128) -/
  | rdcsr (n : BitVec 3)
  /-- `TXB -> byte` (R141): the byte is the block's, not an operand. -/
  | txb
  /-- `RXB byte` (R143) -/
  | rxb (data : Byte)
  /-- `RST` (R220) -/
  | rst
  /-- `NEXTSEQ` (R100): the number is the block's, not an operand. -/
  | nextSeq
  /-- `ENCODE(t, c, s, P)` (R101) -/
  | encode (type cmd seq : Byte) (payload : List Byte)
  /-- `PLEN(B)` (R102) -/
  | pLen (buf : List Byte)
  /-- `VALID(B)` (R103) -/
  | valid (buf : List Byte)
  /-- `DECODE(B)` (R104) -/
  | decode (buf : List Byte)
  /-- `CHKSEQ(R, REQSEQ)` (R105): the header of the decoded response `R`. -/
  | chkSeq (type cmd seq : Byte) (len : Half)
  /-- `FRAME`: a frame of no listed family (R74, R82) -/
  | frame (type cmd seq : Byte) (len : Half)
  /-- the system family, for a `command` the source does not list (R161) -/
  | familySystem (cmd seq : Byte) (len : Half)
  /-- the stream family, for a `command` the source does not list (R161) -/
  | familyStream (cmd seq : Byte) (len : Half)
  /-- the clock family, for a `command` the source does not list (R161) -/
  | familyClock (cmd seq : Byte) (len : Half)
  /-- the metadata family, for a `command` the source does not list (R161) -/
  | familyMetadata (cmd seq : Byte) (len : Half)
  /-- the notification family, for a `command` the source does not list (R161) -/
  | familyNotification (cmd seq : Byte) (len : Half)
  /-- the gpio family, for a `command` the source does not list (R161) -/
  | familyGpio (cmd seq : Byte) (len : Half)
  /-- readiness-check (R163) -/
  | readinessCheck (seq : Byte) (len : Half)
  /-- play (R166) -/
  | play (seq : Byte) (len : Half)
  /-- get-play-status (R167) -/
  | getPlayStatus (seq : Byte) (len : Half)
  /-- set-stereo-mode (R165) -/
  | setStereoMode (seq : Byte) (len : Half)
  /-- set-volume (R164) -/
  | setVolume (seq : Byte) (len : Half)
  /-- get-clock (R168) -/
  | getClock (seq : Byte) (len : Half)
  /-- get-app-data (R168) -/
  | getAppData (seq : Byte) (len : Half)
  deriving DecidableEq, Repr

/-- A call of a codec function. `FN` rows have no opcode (R70, R82), so the function is named and not
coded; its operands are byte sequences and, where R82 gives the pattern of a value the function produces
or examines, that word. -/
inductive CodecCall
  /-- the 8-bit word is the number returned -/
  | nextSeq (result : BitVec 8)
  /-- the 48-bit header of the frame produced, and the payload -/
  | encode (header : BitVec 48) (payload : List Byte)
  | pLen (buf : List Byte)
  | valid (buf : List Byte)
  | decode (buf : List Byte)
  /-- the 48-bit header of the response examined -/
  | chkSeq (header : BitVec 48)
  deriving DecidableEq, Repr

/-- What stands on a port, by format (R70, R83). -/
inductive PortWord
  /-- the command word `CW` on `cmd_word` with its strobe (R71) -/
  | cw (w : BitVec 35)
  /-- `WR`: `txbuf_addr`, `txbuf_wdata` with write enable -/
  | wr (w : BitVec 24)
  /-- `RD`: `rxbuf_addr` -/
  | rd (w : BitVec 16)
  /-- `CS`: `csr_addr` -/
  | cs (w : BitVec 3)
  /-- `BY` on the transmit stream: `tx_ready` is 1; the bits are the block's output (R83). -/
  | tx (d : BitVec 8)
  /-- `BY` on the receive stream: `rx_valid` is 1 and `rx_data` is `d`. -/
  | rx (d : BitVec 8)
  /-- `RS`: the level of `rst_n` -/
  | rs (level : BitVec 1)
  /-- `FN`: a call of a codec function -/
  | fn (c : CodecCall)
  /-- `FH`: the header word of a frame (R15, R75) -/
  | fh (w : BitVec 48)
  deriving DecidableEq, Repr

end Sys2Proof
end

