-- ==== Sys2Proof/WellFormed.lean ====
section
/-! DEFINITION. Which terms of `Instr` are operations of the spec: those an encoding stands for. -/

namespace Sys2Proof

/-- The `command_type` values the source lists (R161). -/
def listedType (t : Byte) : Bool :=
  t = Config.typeSystem || t = Config.typeStream || t = Config.typeClock ||
  t = Config.typeMetadata || t = Config.typeNotification || t = Config.typeGpio

/-- The `(command_type, command)` pairs the source lists (R162). -/
def listedCommand (t c : Byte) : Bool :=
  (t = Config.typeSystem && c = Config.cmdReadinessCheck) ||
  (t = Config.typeStream && (c = Config.cmdPlay || c = Config.cmdGetPlayStatus ||
    c = Config.cmdSetStereoMode || c = Config.cmdSetVolume)) ||
  (t = Config.typeClock && c = Config.cmdGetClock) ||
  (t = Config.typeMetadata && c = Config.cmdGetAppData)

/-- An `FH` row stands only for headers that no row with more mask bits names (R82). Every other
operation has a word, whatever its operands. -/
def wellFormed : Instr → Bool
  | .send _ _ _ => true
  | .ack => true
  | .tmo => true
  | .flt => true
  | .wrtx _ _ => true
  | .rdrx _ => true
  | .rdcsr _ => true
  | .txb => true
  | .rxb _ => true
  | .rst => true
  | .nextSeq => true
  | .encode _ _ _ _ => true
  | .pLen _ => true
  | .valid _ => true
  | .decode _ => true
  | .chkSeq _ _ _ _ => true
  | .frame t _ _ _ => !listedType t
  | .familySystem c _ _ => !listedCommand Config.typeSystem c
  | .familyStream c _ _ => !listedCommand Config.typeStream c
  | .familyClock c _ _ => !listedCommand Config.typeClock c
  | .familyMetadata c _ _ => !listedCommand Config.typeMetadata c
  | .familyNotification c _ _ => !listedCommand Config.typeNotification c
  | .familyGpio c _ _ => !listedCommand Config.typeGpio c
  | .readinessCheck _ _ => true
  | .play _ _ => true
  | .getPlayStatus _ _ => true
  | .setStereoMode _ _ => true
  | .setVolume _ _ => true
  | .getClock _ _ => true
  | .getAppData _ _ => true

end Sys2Proof
end

