-- ==== Sys2Proof/Decode.lean ====
section
/-! DEFINITION. From port words to operations and back (`30_encoding.md` R71 to R83), and the bit
field and byte order helpers of R13. -/

namespace Sys2Proof

/-! ## Fields and byte order (R13, R55, R76) -/

/-- `v[hi:lo]` as a number (R13). -/
def field {k : Nat} (w : BitVec k) (hi lo : Nat) : Nat := w.toNat / 2 ^ lo % 2 ^ (hi - lo + 1)

/-- `be16(a, b) = a * 256 + b` (R13): the lower-offset byte is the more significant. -/
def be16 (a b : Byte) : Half := BitVec.ofNat 16 (a.toNat * 256 + b.toNat)

/-- `hi8(n) = n div 256` (R13). -/
def hi8 (n : Half) : Byte := BitVec.ofNat 8 (n.toNat / 256)

/-- `lo8(n) = n mod 256` (R13). -/
def lo8 (n : Half) : Byte := BitVec.ofNat 8 (n.toNat % 256)

/-- The six header bytes of a frame in wire order (R74). -/
def headerBytes (t c s : Byte) (n : Half) : List Byte :=
  [Config.startMarker, t, c, s, hi8 n, lo8 n]

/-! ## Operation codes of `CW[34:32]` (R72) -/

def opSend : Nat := 1
def opAck : Nat := 2
def opTmo : Nat := 3
def opFlt : Nat := 4

/-! ## Rejections -/

/-- Why a port word is no operation. -/
inductive DecodeReject
  /-- `CW` with `op` 0, 5, 6 or 7 (R72, R81) -/
  | reservedOp (op : Nat)
  /-- `rst_n` is 1: no reset (R83) -/
  | resetNotAsserted
  /-- a header word without the start marker matches no row (R75, R82) -/
  | noStartMarker
  deriving DecidableEq, Repr

/-! ## Header words -/

/-- The `FH` row with the most mask bits that matches a well-started header (R82): a command row,
else a family row, else `FRAME`. -/
def nameHeader (t c s : Byte) (n : Half) : Instr :=
  if t = Config.typeSystem then
    if c = Config.cmdReadinessCheck then .readinessCheck s n else .familySystem c s n
  else if t = Config.typeStream then
    if c = Config.cmdPlay then .play s n
    else if c = Config.cmdGetPlayStatus then .getPlayStatus s n
    else if c = Config.cmdSetStereoMode then .setStereoMode s n
    else if c = Config.cmdSetVolume then .setVolume s n
    else .familyStream c s n
  else if t = Config.typeClock then
    if c = Config.cmdGetClock then .getClock s n else .familyClock c s n
  else if t = Config.typeMetadata then
    if c = Config.cmdGetAppData then .getAppData s n else .familyMetadata c s n
  else if t = Config.typeNotification then .familyNotification c s n
  else if t = Config.typeGpio then .familyGpio c s n
  else .frame t c s n

/-- The fields of `FH` (R75), and the row that names it. -/
def decodeHeaderWord (w : BitVec 48) : Except DecodeReject Instr :=
  if field w 47 40 = Config.startMarker.toNat then
    .ok (nameHeader (BitVec.ofNat 8 (field w 39 32)) (BitVec.ofNat 8 (field w 31 24))
      (BitVec.ofNat 8 (field w 23 16)) (BitVec.ofNat 16 (field w 15 0)))
  else .error .noStartMarker

/-- The fields of `CW` (R71) by its operation code (R72). -/
def decodeCommandWord (w : BitVec 35) : Except DecodeReject Instr :=
  let op := field w 34 32
  if op = opSend then
    .ok (.send (BitVec.ofNat 8 (field w 31 24)) (BitVec.ofNat 8 (field w 23 16))
      (BitVec.ofNat 16 (field w 15 0)))
  else if op = opAck then .ok .ack
  else if op = opTmo then .ok .tmo
  else if op = opFlt then .ok .flt
  else .error (.reservedOp op)

/-- The operation a call of a codec function stands for (R82): every call is one. The number in a
`NEXTSEQ` word, and the start marker and the length in `ENCODE`'s header, are values the function
produces and not operands, so they are not read (log entry 19). `PLEN` of a buffer without a header has
an open value (R102; log entry 9), and `CHKSEQ` takes any header, validated or not (log entry 8). -/
def decodeCodecCall : CodecCall → Instr
  | .nextSeq _ => .nextSeq
  | .encode h p => .encode (BitVec.ofNat 8 (field h 39 32)) (BitVec.ofNat 8 (field h 31 24))
      (BitVec.ofNat 8 (field h 23 16)) p
  | .pLen b => .pLen b
  | .valid b => .valid b
  | .decode b => .decode b
  | .chkSeq h => .chkSeq (BitVec.ofNat 8 (field h 39 32)) (BitVec.ofNat 8 (field h 31 24))
      (BitVec.ofNat 8 (field h 23 16)) (BitVec.ofNat 16 (field h 15 0))

/-- The operation a port word stands for. Total: every word is an operation or rejected by name. -/
def decode : PortWord → Except DecodeReject Instr
  | .cw w => decodeCommandWord w
  | .wr w => .ok (.wrtx (BitVec.ofNat 16 (field w 23 8)) (BitVec.ofNat 8 (field w 7 0)))
  | .rd w => .ok (.rdrx w)
  | .cs w => .ok (.rdcsr w)
  | .tx _ => .ok .txb
  | .rx d => .ok (.rxb d)
  | .rs l => if l = 0 then .ok .rst else .error .resetNotAsserted
  | .fn c => .ok (decodeCodecCall c)
  | .fh w => decodeHeaderWord w

/-! ## Words of the opcode table -/

/-- The port word whose table bits are `w`, by the width the table gives its format (R70). Several
formats share a width and no bit tells them apart: 8 bits are read as `BY` on the receive stream,
16 as `RD`, 48 as `FH` (log entry 10). -/
def tableWord (nbits w : Nat) : Option PortWord :=
  if 2 ^ nbits ≤ w then none
  else if nbits = 35 ∨ nbits = 40 then
    if w < 2 ^ 35 then some (.cw (BitVec.ofNat 35 w)) else none
  else if nbits = 24 then some (.wr (BitVec.ofNat 24 w))
  else if nbits = 16 then some (.rd (BitVec.ofNat 16 w))
  else if nbits = 3 then some (.cs (BitVec.ofNat 3 w))
  else if nbits = 8 then some (.rx (BitVec.ofNat 8 w))
  else if nbits = 1 then some (.rs (BitVec.ofNat 1 w))
  else if nbits = 48 then some (.fh (BitVec.ofNat 48 w))
  else none

/-- The operation the decoder reads from table bits. -/
def decodeTableWord (nbits w : Nat) : Option Instr :=
  match tableWord nbits w with
  | none => none
  | some p =>
    match decode p with
    | .ok i => some i
    | .error _ => none

/-! ## The encoder -/

/-- `CW` from its fields (R71). -/
def commandWord (op : Nat) (type cmd : Byte) (len : Half) : BitVec 35 :=
  BitVec.ofNat 35 (op * 2 ^ 32 + type.toNat * 2 ^ 24 + cmd.toNat * 2 ^ 16 + len.toNat)

/-- `FH` from its fields (R75). -/
def headerWord (t c s : Byte) (n : Half) : BitVec 48 :=
  BitVec.ofNat 48 (Config.startMarker.toNat * 2 ^ 40 + t.toNat * 2 ^ 32 + c.toNat * 2 ^ 24 +
    s.toNat * 2 ^ 16 + n.toNat)

/-- The word of an operation, from the formats of R70 to R83. Bits the operation ignores or the
block produces are written 0 (log entry 19). -/
def encode : Instr → PortWord
  | .send t c n => .cw (commandWord opSend t c n)
  | .ack => .cw (commandWord opAck 0 0 0)
  | .tmo => .cw (commandWord opTmo 0 0 0)
  | .flt => .cw (commandWord opFlt 0 0 0)
  | .wrtx a v => .wr (BitVec.ofNat 24 (a.toNat * 2 ^ 8 + v.toNat))
  | .rdrx a => .rd a
  | .rdcsr n => .cs n
  | .txb => .tx 0
  | .rxb d => .rx d
  | .rst => .rs 0
  | .nextSeq => .fn (.nextSeq 0)
  | .encode t c s p => .fn (.encode (headerWord t c s (BitVec.ofNat 16 p.length)) p)
  | .pLen b => .fn (.pLen b)
  | .valid b => .fn (.valid b)
  | .decode b => .fn (.decode b)
  | .chkSeq t c s n => .fn (.chkSeq (headerWord t c s n))
  | .frame t c s n => .fh (headerWord t c s n)
  | .familySystem c s n => .fh (headerWord Config.typeSystem c s n)
  | .familyStream c s n => .fh (headerWord Config.typeStream c s n)
  | .familyClock c s n => .fh (headerWord Config.typeClock c s n)
  | .familyMetadata c s n => .fh (headerWord Config.typeMetadata c s n)
  | .familyNotification c s n => .fh (headerWord Config.typeNotification c s n)
  | .familyGpio c s n => .fh (headerWord Config.typeGpio c s n)
  | .readinessCheck s n => .fh (headerWord Config.typeSystem Config.cmdReadinessCheck s n)
  | .play s n => .fh (headerWord Config.typeStream Config.cmdPlay s n)
  | .getPlayStatus s n => .fh (headerWord Config.typeStream Config.cmdGetPlayStatus s n)
  | .setStereoMode s n => .fh (headerWord Config.typeStream Config.cmdSetStereoMode s n)
  | .setVolume s n => .fh (headerWord Config.typeStream Config.cmdSetVolume s n)
  | .getClock s n => .fh (headerWord Config.typeClock Config.cmdGetClock s n)
  | .getAppData s n => .fh (headerWord Config.typeMetadata Config.cmdGetAppData s n)

/-! ## The table's `FH` rows as masks -/

/-- A match-and-mask row of `opcode_table.json` over `FH`; `command_type` and `command` are fixed
where the mask covers them. -/
structure HeaderRow where
  mnemonic : String
  pattern : Nat
  mask : Nat
  deriving DecidableEq, Repr

/-- The `FRAME` row: the mask covers the start marker. -/
def frameRow (mnemonic : String) : HeaderRow :=
  ⟨mnemonic, Config.startMarker.toNat <<< 40, 0xFF <<< 40⟩

/-- A family's row: the mask covers the start marker and `command_type`. -/
def familyRow (mnemonic : String) (t : Byte) : HeaderRow :=
  ⟨mnemonic, (Config.startMarker.toNat * 2 ^ 8 + t.toNat) <<< 32, 0xFFFF <<< 32⟩

/-- A command's row: the mask covers the start marker, `command_type` and `command`. -/
def commandRow (mnemonic : String) (t c : Byte) : HeaderRow :=
  ⟨mnemonic, (Config.startMarker.toNat * 2 ^ 16 + t.toNat * 2 ^ 8 + c.toNat) <<< 24,
    0xFFFFFF <<< 24⟩

/-- The 14 `FH` rows of the table (R74, R161, R162). -/
def headerRows : List HeaderRow :=
  [frameRow "FRAME",
   familyRow "FAMILY_SYSTEM" Config.typeSystem,
   familyRow "FAMILY_STREAM" Config.typeStream,
   familyRow "FAMILY_CLOCK" Config.typeClock,
   familyRow "FAMILY_METADATA" Config.typeMetadata,
   familyRow "FAMILY_NOTIFICATION" Config.typeNotification,
   familyRow "FAMILY_GPIO" Config.typeGpio] ++
  [commandRow "READINESS_CHECK" Config.typeSystem Config.cmdReadinessCheck,
   commandRow "PLAY" Config.typeStream Config.cmdPlay,
   commandRow "GET_PLAY_STATUS" Config.typeStream Config.cmdGetPlayStatus,
   commandRow "SET_STEREO_MODE" Config.typeStream Config.cmdSetStereoMode,
   commandRow "SET_VOLUME" Config.typeStream Config.cmdSetVolume,
   commandRow "GET_CLOCK" Config.typeClock Config.cmdGetClock,
   commandRow "GET_APP_DATA" Config.typeMetadata Config.cmdGetAppData]

/-- A row matches a word when the masked word is the row's pattern. -/
def rowMatches (r : HeaderRow) (w : BitVec 48) : Bool := w.toNat &&& r.mask = r.pattern

/-- The row's mnemonic of an `FH` operation; the other operations have none among these rows. -/
def headerMnemonic : Instr → Option String
  | .frame _ _ _ _ => some "FRAME"
  | .familySystem _ _ _ => some "FAMILY_SYSTEM"
  | .familyStream _ _ _ => some "FAMILY_STREAM"
  | .familyClock _ _ _ => some "FAMILY_CLOCK"
  | .familyMetadata _ _ _ => some "FAMILY_METADATA"
  | .familyNotification _ _ _ => some "FAMILY_NOTIFICATION"
  | .familyGpio _ _ _ => some "FAMILY_GPIO"
  | .readinessCheck _ _ => some "READINESS_CHECK"
  | .play _ _ => some "PLAY"
  | .getPlayStatus _ _ => some "GET_PLAY_STATUS"
  | .setStereoMode _ _ => some "SET_STEREO_MODE"
  | .setVolume _ _ => some "SET_VOLUME"
  | .getClock _ _ => some "GET_CLOCK"
  | .getAppData _ _ => some "GET_APP_DATA"
  | .send _ _ _ => none
  | .ack => none
  | .tmo => none
  | .flt => none
  | .wrtx _ _ => none
  | .rdrx _ => none
  | .rdcsr _ => none
  | .txb => none
  | .rxb _ => none
  | .rst => none
  | .nextSeq => none
  | .encode _ _ _ _ => none
  | .pLen _ => none
  | .valid _ => none
  | .decode _ => none
  | .chkSeq _ _ _ _ => none

end Sys2Proof
end

