-- ==== Sys2Proof/Machine/State.lean ====
section
/-! DEFINITION. The state of the block and of the environment it is seen through (`10_state.md`
R20, R47), the reasons a step can stop, and the state after reset (`70_reset_and_hazards.md`
R220). -/

namespace Sys2Proof.Machine

/-- A byte memory: (address, byte) pairs with strictly rising addresses. An address that is not
listed holds no value, so no entry can equal what an unlisted address reads as (R222, U5). -/
abbrev Memory := List Host.Cell

/-- The canonical form of a memory. -/
abbrev Memory.wf (m : Memory) : Prop := m.Pairwise (fun x y => x.1 < y.1)

/-- `PHASE` (R27). Codes 6 and 7 are no state of the model (U12). -/
inductive Phase
  | idle | tx | rxHdr | rxBody | done | err
  deriving DecidableEq, Repr

/-- The error kinds (R180); code 0 of `ERR` is the absence of one, code 7 is never produced. -/
inductive ErrKind
  | tooBig | io | timeout | malformed | invalid | desync
  deriving DecidableEq, Repr

/-- A decoded frame (R74, R104). -/
structure Frame where
  type : Byte
  cmd : Byte
  seq : Byte
  payloadLength : Half
  payload : List Byte
  deriving DecidableEq, Repr

/-- The value an operation returned to its caller (R127, R128, R100 to R105). -/
inductive Ret
  /-- nothing returned yet -/
  | nothing
  /-- `RDRX`, `NEXTSEQ` -/
  | byte (b : Byte)
  /-- `RDCSR` -/
  | word (w : Half)
  /-- `PLEN` -/
  | length (n : Half)
  /-- `VALID`, `CHKSEQ` -/
  | truth (b : Bool)
  /-- `ENCODE` -/
  | encoded (bytes : List Byte)
  /-- `DECODE` -/
  | decoded (f : Frame)
  /-- `ENCODE` or `DECODE` failed with this kind. -/
  | failed (e : ErrKind)
  deriving DecidableEq, Repr

/-- The input pins of one clock cycle (R46). -/
structure Pins where
  rstN : Bool
  cmdStrobe : Bool
  cmdWord : BitVec 35
  txbufWe : Bool
  txbufAddr : Half
  txbufWdata : Byte
  rxbufAddr : Half
  csrAddr : BitVec 3
  txReady : Bool
  rxValid : Bool
  rxData : Byte
  deriving DecidableEq, Repr

/-- What happens next to the block: one operation on its port, a byte of the module reaching the
link's queue (R47), or one clock cycle of the pins (R48). -/
inductive Event
  | port (w : PortWord)
  | arrive (b : Byte)
  | cycle (p : Pins)
  deriving DecidableEq, Repr

/-- The block's registers and buffers (R20), the link's two queues (R47), and two fields of the
model's own: the value last returned and the operations still to come (R48). -/
structure State where
  /-- `PHASE` (R27) -/
  phase : Phase
  /-- `ERR` (R28): `none` is code 0 -/
  err : Option ErrKind
  /-- `SEQ` (R21) -/
  seq : Byte
  /-- `REQSEQ` (R22) -/
  reqSeq : Byte
  /-- `TXTYPE` (R23) -/
  txType : Byte
  /-- `TXCMD` (R23) -/
  txCmd : Byte
  /-- `TXLEN` (R24) -/
  txLen : Half
  /-- `TXIDX` (R25) -/
  txIdx : Half
  /-- `RXCNT` (R26) -/
  rxCnt : Half
  /-- `TXBUF` (R31) -/
  txBuf : Memory
  /-- `RXBUF` (R32) -/
  rxBuf : Memory
  /-- `RXQ` (R47): bytes the link has received and the block has not taken, oldest first -/
  rxQ : List Byte
  /-- `TXQ` (R47): bytes the link has taken from the block, oldest first -/
  txQ : List Byte
  /-- the model's own: the value the last read or codec operation returned -/
  ret : Ret
  /-- the model's own: the total order of operations (R58), the next one first -/
  sched : List Event
  deriving DecidableEq, Repr

/-- Why the machine stops with a fault. -/
inductive Fault
  /-- `TXB`, or an `FH` row's run of it, would hand over a `TXBUF` cell never written since
  power-up (R52, U5). Safe: the hardware sends an unspecified byte and goes on. -/
  | txBufUnwritten (addr : Nat)
  /-- `RXB`, `RDRX` or `RDCSR` would read an `RXBUF` cell never written. Safe: no reachable state
  does (R32, R53). -/
  | rxBufUnwritten (addr : Nat)
  /-- `RXB` would store at an address `RXBUF` does not have (R50). Safe: no reachable state does
  (R53). -/
  | rxBufNoCell (addr : Nat)
  deriving DecidableEq, Repr

/-- Why an event has no meaning. -/
inductive Refusal
  /-- An arm of `exec` without a meaning. Safe. -/
  | notModelled (mnemonic : String)
  /-- `RXB` with a byte that is not the head of a non-empty `RXQ`: the link delivers nothing else
  (R143, R47). Safe. -/
  | rxDataNotQueueHead
  /-- `step` met a header word without the start marker: no row of the table matches it (R75, R82).
  Safe. -/
  | headerWithoutStartMarker
  /-- `Safety.guardedStep` only: the host issues a command the block would drop (R120, U1). Safe. -/
  | commandDropped
  /-- `Safety.guardedStep` only: a command word with a reserved `op` (R72, U3). Safe. -/
  | reservedCommandWord
  deriving DecidableEq, Repr

/-- The state after power-up and reset: the registers as R220 says, the buffers without content
(R222), nothing waiting on the link, nothing returned, no operation pending (log entries 1, 5,
12). -/
def State.reset : State :=
  { phase := .idle, err := none, seq := 0, reqSeq := 0, txType := 0, txCmd := 0, txLen := 0,
    txIdx := 0, rxCnt := 0, txBuf := [], rxBuf := [], rxQ := [], txQ := [], ret := .nothing,
    sched := [] }

end Sys2Proof.Machine
end

