-- ==== Sys2Proof/Machine/Codec.lean ====
section
/-! DEFINITION. The codec functions on byte sequences (`40_codec.md` R101 to R105). -/

namespace Sys2Proof.Machine

/-- `PLEN(B) = B[4] * 256 + B[5]` where both bytes exist (R102). -/
def plenOf (b : List Byte) : Option Half :=
  match b[4]?, b[5]? with
  | some h, some l => some (be16 h l)
  | _, _ => none

/-- `VALID(B)` (R103): the conjuncts from left to right, sums on natural numbers. -/
def validFrame (b : List Byte) : Bool :=
  match plenOf b with
  | none => false
  | some n =>
    b[0]? = some Config.startMarker && n.toNat < Config.maxLenExcl &&
    b.length = n.toNat + Config.overhead &&
    b[Config.headerLen + n.toNat]? = some Config.endMarker

/-- `ENCODE(t, c, s, P)` (R101). -/
def encodeFrame (t c s : Byte) (p : List Byte) : Except ErrKind (List Byte) :=
  if Config.maxLenExcl ≤ p.length then .error .tooBig
  else .ok (headerBytes t c s (BitVec.ofNat 16 p.length) ++ p ++ [Config.endMarker])

/-- The fields of a buffer that is a valid frame (R74). -/
def frameFields (b : List Byte) : Frame :=
  let n := (plenOf b).getD 0
  { type := b.getD 1 0, cmd := b.getD 2 0, seq := b.getD 3 0, payloadLength := n,
    payload := (b.drop Config.headerLen).take n.toNat }

/-- `DECODE(B)` (R104): the start marker first, then `VALID`. -/
def decodeFrame (b : List Byte) : Except ErrKind Frame :=
  if 1 ≤ b.length ∧ b[0]? ≠ some Config.startMarker then .error .malformed
  else if validFrame b then .ok (frameFields b)
  else .error .invalid

/-- `CHKSEQ(R, q)` (R105): equality of two bytes and nothing else. -/
def chkSeq (responseSeq q : Byte) : Bool := responseSeq = q

end Sys2Proof.Machine
end

