-- ==== Sys2Proof/Machine/Ops.lean ====
section
/-! DEFINITION. The operations the meanings share: buffer cells, the sequence counter, entering
`ERR` and returning from it. -/

namespace Sys2Proof.Machine

/-- Every outcome of an operation of this machine. -/
abbrev Result := Host.Outcome State Fault Refusal

/-! ## Byte memories (R50, R56) -/

/-- The byte at an address; `none` where the cell holds no value. -/
def memRead : Memory → Nat → Option Byte
  | [], _ => none
  | c :: m, a => if c.1 = a then some c.2 else memRead m a

/-- Write one byte, keeping the addresses rising. -/
def memWrite : Memory → Nat → Byte → Memory
  | [], a, v => [(a, v)]
  | c :: m, a, v =>
    if a < c.1 then (a, v) :: c :: m
    else if a = c.1 then (a, v) :: m
    else c :: memWrite m a v

/-- The `len` bytes from address `base`, if every cell holds a value (R12: `B[base .. base+len-1]`). -/
def memSlice (m : Memory) (base : Nat) : Nat → Option (List Byte)
  | 0 => some []
  | len + 1 =>
    match memRead m base, memSlice m (base + 1) len with
    | some v, some vs => some (v :: vs)
    | _, _ => none

/-- `TXBUF[a]` (R52). -/
def readTx (s : State) (a : Nat) : Except Fault Byte :=
  match memRead s.txBuf a with
  | some v => .ok v
  | none => .error (.txBufUnwritten a)

/-- `RXBUF[a]` (R54). -/
def readRx (s : State) (a : Nat) : Except Fault Byte :=
  match memRead s.rxBuf a with
  | some v => .ok v
  | none => .error (.rxBufUnwritten a)

/-- `TXBUF[a] <- v` (R51). -/
def writeTx (a : Nat) (v : Byte) (s : State) : State := { s with txBuf := memWrite s.txBuf a v }

/-- `RXBUF[RXCNT] <- b; RXCNT <- RXCNT + 1` (R53, R143). -/
def captureByte (b : Byte) (s : State) : State :=
  { s with rxBuf := memWrite s.rxBuf s.rxCnt.toNat b, rxCnt := s.rxCnt + 1 }

/-- `TXBUF[0 .. TXLEN-1]` (R121). -/
def requestPayload (s : State) : Option (List Byte) := memSlice s.txBuf 0 s.txLen.toNat

/-- `RXBUF[0 .. RXCNT-1]`: the captured response bytes (R108). -/
def captured (s : State) : Option (List Byte) := memSlice s.rxBuf 0 s.rxCnt.toNat

/-! ## The sequence counter -/

/-- `(SEQ + 1) mod 256` (R100, R111 (a)). -/
def nextSeqNumber (q : Byte) : Byte := BitVec.ofNat 8 ((q.toNat + 1) % Config.seqMod)

/-- `SEQ <- (SEQ + 1) mod 256` (R100). -/
def advanceSeq (s : State) : State := { s with seq := nextSeqNumber s.seq }

/-! ## Entering and leaving `ERR` -/

/-- `raise Err(code)` (R181): the phase and the code, nothing else. -/
def raiseErr (e : ErrKind) (s : State) : State := { s with phase := .err, err := some e }

/-- The return to `IDLE` (R122, R193): counters cleared, everything else kept. -/
def returnToIdle (s : State) : State :=
  { s with phase := .idle, err := none, txIdx := 0, rxCnt := 0 }

/-! ## Outcomes -/

/-- Go on with the value of a read, or stop with its fault. -/
def withValue {α : Type} (r : Except Fault α) (k : α → Result) : Result :=
  match r with
  | .ok v => k v
  | .error f => .fault f

/-- One operation after another: a stop ends the sequence. -/
def andThen (o : Result) (k : State → Result) : Result :=
  match o with
  | .next s => k s
  | .fault f => .fault f
  | .refused r => .refused r

/-- Hand a value to the caller of an operation. -/
def returning (r : Ret) (s : State) : State := { s with ret := r }

end Sys2Proof.Machine
end

