-- ==== Sys2Proof/Machine/CodecOps.lean ====
section
/-! DEFINITION. The codec functions as operations of their own: the result goes to the caller, and
only `NEXTSEQ` writes a register (`40_codec.md` R100 to R105). How a call of one stands to the block
is `Fetch.lean`'s and log entry 8's. -/

namespace Sys2Proof.Machine

/-- `NEXTSEQ` (R100): the value before the increment. -/
def execNextSeq (s : State) : Result := .next (returning (.byte s.seq) (advanceSeq s))

/-- `ENCODE(t, c, s, P)` (R101). -/
def execEncode (t c q : Byte) (p : List Byte) (s : State) : Result :=
  match encodeFrame t c q p with
  | .ok b => .next (returning (.encoded b) s)
  | .error e => .next (returning (.failed e) s)

/-- `PLEN(B)` (R102): "undefined for |B| < 6", where the value is free (log entry 9). -/
def execPLen (b : List Byte) (s : State) : Result :=
  match plenOf b with
  | some n => .next (returning (.length n) s)
  | none => .next (returning (.length (Config.plenOfShortBuffer b)) s)

/-- `VALID(B)` (R103). -/
def execValid (b : List Byte) (s : State) : Result := .next (returning (.truth (validFrame b)) s)

/-- `DECODE(B)` (R104): on failure no field is returned. -/
def execDecode (b : List Byte) (s : State) : Result :=
  match decodeFrame b with
  | .ok f => .next (returning (.decoded f) s)
  | .error e => .next (returning (.failed e) s)

/-- `CHKSEQ(R, REQSEQ)` (R105): only the response's sequence byte is compared. R105 applies it to
frames that passed `VALID`; that it answers on any header is the model's choice (log entry 8). -/
def execChkSeq (_t _c q : Byte) (_n : Half) (s : State) : Result :=
  .next (returning (.truth (chkSeq q s.reqSeq)) s)

end Sys2Proof.Machine
end

