-- ==== Sys2Proof/Machine/ResetOps.lean ====
section
/-! DEFINITION. `RST` (`70_reset_and_hazards.md` R220, R222, R223). -/

namespace Sys2Proof.Machine

/-- `RST`: every register to its reset value in every phase (R220); the buffers keep what they held
(R222) and the link's queues are not touched (R223). -/
def execRst (s : State) : Result :=
  .next { s with
    phase := .idle, err := none, seq := 0, reqSeq := 0, txType := 0, txCmd := 0, txLen := 0,
    txIdx := 0, rxCnt := 0 }

end Sys2Proof.Machine
end

