-- ==== Sys2Proof/Machine/Flags.lean ====
section
/-! DEFINITION. The codes of `PHASE` and `ERR`, the acceptance table, and the level outputs (`10_state.md`
R27, R28, R36, `41_host_ops.md` R125). -/

namespace Sys2Proof.Machine

/-- The codes of `PHASE` (R27). -/
def phaseCode : Phase → BitVec 3
  | .idle => 0
  | .tx => 1
  | .rxHdr => 2
  | .rxBody => 3
  | .done => 4
  | .err => 5

/-- The codes of `ERR` (R180). -/
def errCode : Option ErrKind → BitVec 3
  | none => 0
  | some .tooBig => 1
  | some .io => 2
  | some .timeout => 3
  | some .malformed => 4
  | some .invalid => 5
  | some .desync => 6

/-- The acceptance table of R125: whether a command word with this `op` is accepted in this phase. -/
def accepts (op : Nat) (p : Phase) : Bool :=
  if op = opSend then p = .idle
  else if op = opAck then p = .done || p = .err
  else if op = opTmo then p = .rxHdr || p = .rxBody
  else if op = opFlt then p = .tx || p = .rxHdr || p = .rxBody
  else false

/-- `cmd_accept` for the word on `cmd_word` (R36, R125). -/
def cmdAccept (s : State) (w : BitVec 35) : Bool := accepts (field w 34 32) s.phase

/-- `busy` (R36) -/
def busy (s : State) : Bool := s.phase = .tx || s.phase = .rxHdr || s.phase = .rxBody

/-- `done` (R36) -/
def doneOut (s : State) : Bool := s.phase = .done

/-- `err` (R36) -/
def errOut (s : State) : Bool := s.phase = .err

/-- `irq = done OR err` (R36, R190) -/
def irq (s : State) : Bool := doneOut s || errOut s

/-- `tx_valid` (R36): `TXB` is enabled. -/
def txValid (s : State) : Bool := s.phase = .tx

/-- `rx_ready` (R36): `RXB` is enabled. -/
def rxReady (s : State) : Bool := s.phase = .rxHdr || s.phase = .rxBody

end Sys2Proof.Machine
end

