-- ==== Sys2Proof/Machine/Operands.lean ====
section
/-! DEFINITION. The values operations read: `TxByte`, `RXLEN`, the windows of `RDRX`, the status
registers (`42_link_ops.md` R140, `10_state.md` R33, R37 to R45, `20_memory.md` R54). -/

namespace Sys2Proof.Machine

/-- `TxByte` (R140). -/
def txByte (s : State) : Except Fault Byte :=
  let i := s.txIdx.toNat
  if i = 0 then .ok Config.startMarker
  else if i = 1 then .ok s.txType
  else if i = 2 then .ok s.txCmd
  else if i = 3 then .ok s.reqSeq
  else if i = 4 then .ok (hi8 s.txLen)
  else if i = 5 then .ok (lo8 s.txLen)
  else if i < Config.headerLen + s.txLen.toNat then readTx s (i - Config.headerLen)
  else .ok Config.endMarker

/-- `tx_data` (R36): `TxByte` in `TX`, else 0x00. -/
def txData (s : State) : Except Fault Byte := if txValid s then txByte s else .ok 0

/-- `RXLEN = be16(RXBUF[4], RXBUF[5])` (R33). -/
def rxLen (s : State) : Except Fault Half :=
  match readRx s 4, readRx s 5 with
  | .ok h, .ok l => .ok (be16 h l)
  | .error f, _ => .error f
  | _, .error f => .error f

/-- How many bytes `RDRX` shows, from address 0: the response window in `DONE`, the diagnostic
window in `ERR`, none elsewhere (R54). -/
def windowSize (s : State) : Nat :=
  if s.phase = .done then s.rxCnt.toNat
  else if s.phase = .err then min s.rxCnt.toNat Config.headerLen
  else 0

/-- What `RDRX a` returns (R54). -/
def rdrxValue (s : State) (a : Half) : Except Fault Byte :=
  if a.toNat < windowSize s then readRx s a.toNat else .ok 0

/-- `CSR0` `STATUS` (R38): `ERRF`, `DONE`, `BUSY`, `ERR`, `PHASE` from bit 8 down. -/
def statusWord (s : State) : Half :=
  BitVec.ofNat 16 ((phaseCode s.phase).toNat + 2 ^ 3 * (errCode s.err).toNat +
    2 ^ 6 * (busy s).toNat + 2 ^ 7 * (doneOut s).toNat + 2 ^ 8 * (errOut s).toNat)

/-- `CSR3` `COUNT` (R41). -/
def countWord (s : State) : Half := if s.txIdx ≠ 0 then s.txIdx else s.rxCnt

/-- `CSR6` `RESPHDR` (R44). -/
def respHdrWord (s : State) : Except Fault Half :=
  if s.phase = .done then
    match readRx s 1, readRx s 2 with
    | .ok t, .ok c => .ok (be16 t c)
    | .error f, _ => .error f
    | _, .error f => .error f
  else .ok 0

/-- `CSR7` `RESPLEN` (R45). -/
def respLenWord (s : State) : Except Fault Half := if s.phase = .done then rxLen s else .ok 0

/-- The value of `CSRn` (R37 to R45). -/
def csrValue (s : State) (n : BitVec 3) : Except Fault Half :=
  match n.toNat with
  | 0 => .ok (statusWord s)
  | 1 => .ok (BitVec.ofNat 16 s.seq.toNat)
  | 2 => .ok (BitVec.ofNat 16 s.reqSeq.toNat)
  | 3 => .ok (countWord s)
  | 4 => .ok (be16 s.txType s.txCmd)
  | 5 => .ok s.txLen
  | 6 => respHdrWord s
  | _ => respLenWord s

end Sys2Proof.Machine
end

