-- ==== Sys2Proof/Machine/HostOps.lean ====
section
/-! DEFINITION. The host's operations (`41_host_ops.md` R121 to R128). An operation that is not
accepted is dropped: nothing changes (R120; log entry 2). -/

namespace Sys2Proof.Machine

/-- The effect of an accepted or dropped `SEND` (R121); shared by `SEND` and the `FH` rows. -/
def sendRequest (t c : Byte) (n : Half) (s : State) : State :=
  if accepts opSend s.phase then
    let latched := { s with txType := t, txCmd := c, txLen := n, txIdx := 0, rxCnt := 0 }
    if Config.maxLenExcl ≤ n.toNat then raiseErr .tooBig latched
    else advanceSeq { latched with reqSeq := s.seq, err := none, phase := .tx }
  else s

/-- `SEND type, cmd, len` (R121). -/
def execSend (t c : Byte) (n : Half) (s : State) : Result := .next (sendRequest t c n s)

/-- `ACK` (R122). -/
def execAck (s : State) : Result :=
  if accepts opAck s.phase then .next (returnToIdle s) else .next s

/-- `TMO` (R123). -/
def execTmo (s : State) : Result :=
  if accepts opTmo s.phase then .next (raiseErr .timeout s) else .next s

/-- `FLT` (R124). -/
def execFlt (s : State) : Result :=
  if accepts opFlt s.phase then .next (raiseErr .io s) else .next s

/-- `WRTX addr, byte` (R126, R51). -/
def execWrtx (a : Half) (v : Byte) (s : State) : Result :=
  if a.toNat < Config.txBufDepth ∧ s.phase ≠ .tx then .next (writeTx a.toNat v s) else .next s

/-- `RDRX addr -> byte` (R127, R54). -/
def execRdrx (a : Half) (s : State) : Result :=
  withValue (rdrxValue s a) fun v => .next (returning (.byte v) s)

/-- `RDCSR n -> word` (R128). -/
def execRdcsr (n : BitVec 3) (s : State) : Result :=
  withValue (csrValue s n) fun w => .next (returning (.word w) s)

end Sys2Proof.Machine
end

