-- ==== Sys2Proof/Machine/LinkOps.lean ====
section
/-! DEFINITION. The link's operations `TXB` and `RXB` (`42_link_ops.md` R140 to R145). An operation
that is not enabled does not happen: nothing changes (R30). -/

namespace Sys2Proof.Machine

/-- The request byte at `TXIDX` has been taken: the next one is due, or the response (R141). -/
def advanceTx (s : State) : State :=
  if s.txIdx.toNat = Config.headerLen + s.txLen.toNat then { s with txIdx := 0, phase := .rxHdr }
  else { s with txIdx := s.txIdx + 1 }

/-- The link takes one request byte in `TX` (R141); shared by `TXB` and the `FH` rows. -/
def handOver (s : State) : Result :=
  if txValid s then
    withValue (txByte s) fun b => .next (advanceTx { s with txQ := s.txQ ++ [b] })
  else .next s

/-- `TXB -> byte` (R141). -/
def execTxb (s : State) : Result := handOver s

/-- The checks when the sixth header byte is in (R143, R192 (1) and (2)). -/
def checkHeader (s : State) : Result :=
  withValue (readRx s 0) fun m =>
    if m ≠ Config.startMarker then .next (raiseErr .malformed s)
    else withValue (rxLen s) fun n =>
      if Config.maxLenExcl ≤ n.toNat then .next (raiseErr .invalid s)
      else .next { s with phase := .rxBody }

/-- The checks when a body byte `b` is in (R143, R192 (3) and (4)). -/
def checkBody (b : Byte) (s : State) : Result :=
  withValue (rxLen s) fun n =>
    if s.rxCnt.toNat = n.toNat + Config.overhead then
      if b ≠ Config.endMarker then .next (raiseErr .invalid s)
      else withValue (readRx s 3) fun q =>
        if chkSeq q s.reqSeq then .next { s with phase := .done }
        else .next (raiseErr .desync s)
    else .next s

/-- The block takes a response byte in `RXHDR` or `RXBODY` (R143). -/
def receiveByte (b : Byte) (s : State) : Result :=
  if s.rxCnt.toNat < Config.rxBufDepth then
    if s.phase = .rxHdr then
      if (captureByte b s).rxCnt.toNat = Config.headerLen then checkHeader (captureByte b s)
      else .next (captureByte b s)
    else checkBody b (captureByte b s)
  else .fault (.rxBufNoCell s.rxCnt.toNat)

/-- `RXB byte` (R143): the byte is the head of `RXQ`, or comes straight through an empty `RXQ`
(log entry 11). -/
def execRxb (b : Byte) (s : State) : Result :=
  if rxReady s then
    match s.rxQ with
    | [] => receiveByte b s
    | h :: q =>
      if h = b then receiveByte b { s with rxQ := q } else .refused .rxDataNotQueueHead
  else .next s

end Sys2Proof.Machine
end

