-- ==== Sys2Proof/Machine/WireOps.lean ====
section
/-! DEFINITION. The `FH` rows of the opcode table: the request frame with this header is put onto
the wire (`30_encoding.md` R74, R82, R84, R85, `43_wire_commands.md` R161 to R168; log entries 6
and 7). -/

namespace Sys2Proof.Machine

/-- `k` operations `TXB` in a row, ending at a stop. -/
def handOverRun : Nat → State → Result
  | 0, s => .next s
  | k + 1, s => andThen (handOver s) (handOverRun k)

/-- The transmit half of `exchange(t, c, P)` with `P = TXBUF[0 .. n-1]` (R85): `SEND t, c, n`, then
`n + 7` times `TXB`. Like `SEND` it is accepted in `IDLE` and dropped elsewhere, and a refused
`SEND` hands nothing over. -/
def carryRequest (t c : Byte) (n : Half) (s : State) : Result :=
  if accepts opSend s.phase then
    if txValid (sendRequest t c n s) then
      handOverRun (n.toNat + Config.overhead) (sendRequest t c n s)
    else .next (sendRequest t c n s)
  else .next s

/-- `FRAME` (R74). The sequence field is the sender's to assign: the block puts `SEQ` there. -/
def execFrame (t c _q : Byte) (n : Half) (s : State) : Result := carryRequest t c n s

/-! ## Families (R161) -/

def execFamilySystem (c _q : Byte) (n : Half) (s : State) : Result :=
  carryRequest Config.typeSystem c n s
def execFamilyStream (c _q : Byte) (n : Half) (s : State) : Result :=
  carryRequest Config.typeStream c n s
def execFamilyClock (c _q : Byte) (n : Half) (s : State) : Result :=
  carryRequest Config.typeClock c n s
def execFamilyMetadata (c _q : Byte) (n : Half) (s : State) : Result :=
  carryRequest Config.typeMetadata c n s
def execFamilyNotification (c _q : Byte) (n : Half) (s : State) : Result :=
  carryRequest Config.typeNotification c n s
def execFamilyGpio (c _q : Byte) (n : Half) (s : State) : Result :=
  carryRequest Config.typeGpio c n s

/-! ## Commands (R162 to R168). The block gives the payload no meaning and checks no shape (R160). -/

/-- Readiness check (R163). -/
def execReadinessCheck (_q : Byte) (n : Half) (s : State) : Result :=
  carryRequest Config.typeSystem Config.cmdReadinessCheck n s
/-- Select a playback source (R166). -/
def execPlay (_q : Byte) (n : Half) (s : State) : Result :=
  carryRequest Config.typeStream Config.cmdPlay n s
/-- The status fetch (R167). -/
def execGetPlayStatus (_q : Byte) (n : Half) (s : State) : Result :=
  carryRequest Config.typeStream Config.cmdGetPlayStatus n s
/-- Set stereo mode (R165). -/
def execSetStereoMode (_q : Byte) (n : Half) (s : State) : Result :=
  carryRequest Config.typeStream Config.cmdSetStereoMode n s
/-- Set output volume (R164). -/
def execSetVolume (_q : Byte) (n : Half) (s : State) : Result :=
  carryRequest Config.typeStream Config.cmdSetVolume n s
/-- Get-clock (R168). -/
def execGetClock (_q : Byte) (n : Half) (s : State) : Result :=
  carryRequest Config.typeClock Config.cmdGetClock n s
/-- Get-app-data (R168). -/
def execGetAppData (_q : Byte) (n : Half) (s : State) : Result :=
  carryRequest Config.typeMetadata Config.cmdGetAppData n s

end Sys2Proof.Machine
end

