-- ==== Sys2Proof/Machine/Dispatch.lean ====
section
/-! DEFINITION. One arm per row of the opcode table. -/

namespace Sys2Proof.Machine

def exec (i : Instr) (s : State) : Host.Outcome State Fault Refusal :=
  match i with
  -- host operations (41_host_ops.md)
  | .send t c n => Sys2Proof.Machine.execSend t c n s
  | .ack => Sys2Proof.Machine.execAck s
  | .tmo => Sys2Proof.Machine.execTmo s
  | .flt => Sys2Proof.Machine.execFlt s
  | .wrtx a v => Sys2Proof.Machine.execWrtx a v s
  | .rdrx a => Sys2Proof.Machine.execRdrx a s
  | .rdcsr n => Sys2Proof.Machine.execRdcsr n s
  -- link operations (42_link_ops.md)
  | .txb => Sys2Proof.Machine.execTxb s
  | .rxb b => Sys2Proof.Machine.execRxb b s
  -- reset (70_reset_and_hazards.md)
  | .rst => Sys2Proof.Machine.execRst s
  -- codec functions (40_codec.md)
  | .nextSeq => Sys2Proof.Machine.execNextSeq s
  | .encode t c q p => Sys2Proof.Machine.execEncode t c q p s
  | .pLen b => Sys2Proof.Machine.execPLen b s
  | .valid b => Sys2Proof.Machine.execValid b s
  | .decode b => Sys2Proof.Machine.execDecode b s
  | .chkSeq t c q n => Sys2Proof.Machine.execChkSeq t c q n s
  -- the wire frame, its families and commands (30_encoding.md, 43_wire_commands.md)
  | .frame t c q n => Sys2Proof.Machine.execFrame t c q n s
  | .familySystem c q n => Sys2Proof.Machine.execFamilySystem c q n s
  | .familyStream c q n => Sys2Proof.Machine.execFamilyStream c q n s
  | .familyClock c q n => Sys2Proof.Machine.execFamilyClock c q n s
  | .familyMetadata c q n => Sys2Proof.Machine.execFamilyMetadata c q n s
  | .familyNotification c q n => Sys2Proof.Machine.execFamilyNotification c q n s
  | .familyGpio c q n => Sys2Proof.Machine.execFamilyGpio c q n s
  | .readinessCheck q n => Sys2Proof.Machine.execReadinessCheck q n s
  | .play q n => Sys2Proof.Machine.execPlay q n s
  | .getPlayStatus q n => Sys2Proof.Machine.execGetPlayStatus q n s
  | .setStereoMode q n => Sys2Proof.Machine.execSetStereoMode q n s
  | .setVolume q n => Sys2Proof.Machine.execSetVolume q n s
  | .getClock q n => Sys2Proof.Machine.execGetClock q n s
  | .getAppData q n => Sys2Proof.Machine.execGetAppData q n s

end Sys2Proof.Machine
end

