-- ==== Sys2Proof/Machine/Fetch.lean ====
section
/-! DEFINITION. From the next event to its effect: a port word is decoded and run, a byte of the
module joins the link's queue, a clock cycle applies its pins in the order of `10_state.md` R48. -/

namespace Sys2Proof.Machine

/-- A codec function called on its own is evaluated beside the block: the caller gets its value and
no register of the block changes. "Inside the block" `NEXTSEQ` "happens only as part of `SEND`"
(R100), and `SEQ` is "written only by `SEND` [...] and by reset" (R21); log entry 8. -/
def callBeside (i : Instr) (s : State) : Result :=
  andThen (exec i s) fun t => .next (returning t.ret s)

/-- A decoded operation on the port its word stands on. -/
def runOperation (w : PortWord) (i : Instr) (s : State) : Result :=
  match w with
  | .cw _ => exec i s
  | .wr _ => exec i s
  | .rd _ => exec i s
  | .cs _ => exec i s
  | .tx _ => exec i s
  | .rx _ => exec i s
  | .rs _ => exec i s
  | .fn _ => callBeside i s
  | .fh _ => exec i s

/-- A port word takes effect: its operation, or nothing where the spec says nothing happens
(reserved command words are dropped, R72; no reset while `rst_n` is 1). A header word without the
start marker is refused: it is no frame's header (R74, R75), names no operation (R82) and is never what
the block hands over (R140); such bytes from the module are `RXB`s and raise `E_MALFORMED` (R79). -/
def runWord (w : PortWord) (s : State) : Result :=
  match decode w with
  | .ok i => runOperation w i s
  | .error (.reservedOp _) => .next s
  | .error .resetNotAsserted => .next s
  | .error .noStartMarker => .refused .headerWithoutStartMarker

/-- A byte of the module joins the link's queue (R47); the block does not see it. -/
def arriveByte (b : Byte) (s : State) : State := { s with rxQ := s.rxQ ++ [b] }

/-! ## One clock cycle (R46, R48) -/

/-- The command port's turn. -/
def cycleCommand (p : Pins) (s : State) : Result :=
  if p.cmdStrobe then runWord (.cw p.cmdWord) s else .next s

/-- The link's turn: `TXB` or `RXB`, enabled by the phase after the command. A byte offered where none
is taken stays the link's; if it does not stand in `RXQ`, the model keeps it nowhere (log entry
11). -/
def cycleLink (p : Pins) (s : State) : Result :=
  if txValid s then if p.txReady then exec .txb s else .next s
  else if rxReady s then if p.rxValid then exec (.rxb p.rxData) s else .next s
  else .next s

/-- The payload buffer's turn. -/
def cycleWrite (p : Pins) (s : State) : Result :=
  if p.txbufWe then exec (.wrtx p.txbufAddr p.txbufWdata) s else .next s

/-- One cycle: `RST` alone, or the command, then the link, then the payload write (R48). -/
def runCycle (p : Pins) (s : State) : Result :=
  if p.rstN then
    andThen (cycleCommand p s) fun s1 => andThen (cycleLink p s1) (cycleWrite p)
  else exec .rst s

/-- The output pins of one cycle (R36, R46): functions of the state at the start of the cycle and,
for the read ports and `cmd_accept`, of the addresses and the word presented. -/
structure PinsOut where
  cmdAccept : Bool
  rxbufRdata : Except Fault Byte
  csrRdata : Except Fault Half
  busy : Bool
  done : Bool
  err : Bool
  irq : Bool
  txValid : Bool
  txData : Except Fault Byte
  rxReady : Bool
  deriving DecidableEq, Repr

/-- The outputs of R36 and the two read ports of R46. -/
def outputPins (p : Pins) (s : State) : PinsOut :=
  { cmdAccept := cmdAccept s p.cmdWord, rxbufRdata := rdrxValue s p.rxbufAddr,
    csrRdata := csrValue s p.csrAddr, busy := busy s, done := doneOut s, err := errOut s,
    irq := irq s, txValid := txValid s, txData := txData s, rxReady := rxReady s }

/-! ## Events -/

/-- The effect of one event. -/
def runEvent (e : Event) (s : State) : Result :=
  match e with
  | .port w => runWord w s
  | .arrive b => .next (arriveByte b s)
  | .cycle p => runCycle p s

/-- Put a word of the opcode table where the next event is taken from. -/
def placeTableWord (s : State) (nbits w : Nat) : State :=
  match tableWord nbits w with
  | some p => { s with sched := .port p :: s.sched }
  | none => s

end Sys2Proof.Machine
end

