-- ==== Sys2Proof/Machine/Step.lean ====
section
/-! DEFINITION. One step: the next event of the schedule takes effect; with none pending the block
waits and nothing changes (`20_memory.md` R58, `70_reset_and_hazards.md` R223; log entry 1). -/

namespace Sys2Proof.Machine

def step (s : State) : Host.Outcome State Fault Refusal :=
  match s.sched with
  | [] => .next s
  | e :: rest => runEvent e { s with sched := rest }

/-- `s` with that word as the next operation. -/
def State.withFetchWord (s : State) (nbits w : Nat) : State := placeTableWord s nbits w

end Sys2Proof.Machine
end

