-- ==== Sys2Proof/Machine/HostAgent.lean ====
section
/-! DEFINITION. The host around the block, where the spec settles what it does: the pseudo-operations
of `30_encoding.md` R85 and the payloads of `43_wire_commands.md` R163 to R168, the deadline timer of
`60_exceptions.md` R195, the handshake of `70_reset_and_hazards.md` R225, and the policies of R203
and R204. None of it is state of the block (`10_state.md` R49). -/

namespace Sys2Proof.Machine

/-! ## Requests and the pseudo-operations (R85) -/

/-- What `exchange` takes: "pure encodings of `(command_type, command, payload)` triples" (R160). -/
structure Request where
  type : Byte
  cmd : Byte
  payload : List Byte
  deriving DecidableEq, Repr

/-- `exchange(0x00, 0x00, [])` (R163, D18). -/
def readinessRequest : Request := ⟨Config.typeSystem, Config.cmdReadinessCheck, []⟩
/-- `set_volume(v)` (R164). -/
def setVolumeRequest (v : Byte) : Request := ⟨Config.typeStream, Config.cmdSetVolume, [v]⟩
/-- `set_stereo_mode(m)` (R165). -/
def setStereoModeRequest (m : Byte) : Request := ⟨Config.typeStream, Config.cmdSetStereoMode, [m]⟩
/-- `play(mode, arg)`: the 32-bit argument is big-endian (R166, R55). -/
def playRequest (mode : Byte) (arg : BitVec 32) : Request :=
  ⟨Config.typeStream, Config.cmdPlay,
    [mode, BitVec.ofNat 8 (field arg 31 24), BitVec.ofNat 8 (field arg 23 16),
      BitVec.ofNat 8 (field arg 15 8), BitVec.ofNat 8 (field arg 7 0)]⟩
/-! The source does not give these three payloads (R85, R167, R168): the caller does. -/
def getPlayStatusRequest (p : List Byte) : Request :=
  ⟨Config.typeStream, Config.cmdGetPlayStatus, p⟩
def getAppDataRequest (p : List Byte) : Request := ⟨Config.typeMetadata, Config.cmdGetAppData, p⟩
def getClockRequest (p : List Byte) : Request := ⟨Config.typeClock, Config.cmdGetClock, p⟩

/-- An operation as an event on its port. -/
def opEvent (i : Instr) : Event := .port (encode i)

/-- A number on a 16-bit port (R46). DESIGN CHOICE (log entry 25): a number of 65536 or more, which
the port cannot carry and of which no rule speaks, is presented as 0xFFFF, so that `WRTX` is dropped
(R51) and `SEND` fails `E_TOOBIG` (R73) as for every other number too large. -/
def halfOf (n : Nat) : Half := BitVec.ofNat 16 (min n 0xFFFF)

/-- `WRTX a, P[0]; WRTX a+1, P[1]; ...` -/
def loadFrom (a : Nat) : List Byte → List Event
  | [] => []
  | v :: p => opEvent (.wrtx (halfOf a) v) :: loadFrom (a + 1) p

/-- `load P` (R85). -/
def load (p : List Byte) : List Event := loadFrom 0 p

/-- `load P`, `SEND t, c, n`: the host's part of `exchange` before the link's (R85). -/
def requestEvents (r : Request) : List Event :=
  load r.payload ++ [opEvent (.send r.type r.cmd (halfOf r.payload.length))]

/-- `load P`, `SEND t, c, n`, `n + 7` times `TXB`: the transmit half of `exchange` (R85). -/
def transmitEvents (r : Request) : List Event :=
  requestEvents r ++ List.replicate (r.payload.length + Config.overhead) (opEvent .txb)

/-- Events one after another. -/
def runEvents : List Event → State → Result
  | [], s => .next s
  | e :: es, s => andThen (runEvent e s) (runEvents es)

/-! ### The link's part, and what the host may issue meanwhile -/

/-- What happens while an exchange is under way (R85). -/
inductive LinkEvent
  /-- the link is ready: it takes the request byte due (`TXB`), or hands over the head of `RXQ`
  (`RXB`) if there is one -/
  | ready
  /-- a byte of the module reaches `RXQ` (R47) -/
  | arrive (b : Byte)
  /-- the host's deadline has expired (R195): `TMO` -/
  | timeout
  /-- the link has failed (R197): `FLT` -/
  | fault
  deriving DecidableEq, Repr

/-- The operation an event of the exchange stands for. -/
def linkStep (e : LinkEvent) (s : State) : Result :=
  match e with
  | .ready =>
    if txValid s then exec .txb s
    else match s.rxQ with
      | [] => .next s
      | b :: _ => exec (.rxb b) s
  | .arrive b => .next (arriveByte b s)
  | .timeout => exec .tmo s
  | .fault => exec .flt s

/-- The events take effect "until `PHASE` is `DONE` or `ERR`" (R85); those left over are no part of
the exchange. -/
def untilEnded : List LinkEvent → State → Result
  | [], s => .next s
  | e :: es, s => if busy s then andThen (linkStep e s) (untilEnded es) else .next s

/-- A link that takes the `n + 7` bytes of a request with `n` payload bytes. -/
def takesRequest (n : Nat) : List LinkEvent := List.replicate (n + Config.overhead) .ready

/-- A module whose bytes arrive and are taken one by one. -/
def answeredBy (b : List Byte) : List LinkEvent := b.flatMap fun v => [.arrive v, .ready]

/-! ### The result -/

/-- What `exchange` gives its caller: the response or the error kind (R85). -/
inductive ExchangeResult
  | response (f : Frame)
  | failed (e : ErrKind)
  deriving DecidableEq, Repr

/-- The result of the exchange the block has ended, if it has (R239). -/
def exchangeResult (s : State) : Option ExchangeResult :=
  match s.phase, captured s, s.err with
  | .done, some b, _ => some (.response (frameFields b))
  | .err, _, some e => some (.failed e)
  | _, _, _ => none

/-- The error kind of a code in `CSR0.ERR` (R180); 0 and 7 are none. -/
def errOfCode (c : Nat) : Option ErrKind :=
  match c with
  | 1 => some .tooBig
  | 2 => some .io
  | 3 => some .timeout
  | 4 => some .malformed
  | 5 => some .invalid
  | 6 => some .desync
  | _ => none

/-- `RDRX a`, `RDRX a + 1`, ...: `k` bytes. -/
def readWindow (s : State) (a : Nat) : Nat → Except Fault (List Byte)
  | 0 => .ok []
  | k + 1 =>
    match rdrxValue s (halfOf a), readWindow s (a + 1) k with
    | .ok v, .ok p => .ok (v :: p)
    | .error f, _ => .error f
    | _, .error f => .error f

/-- The response through the host's ports: type and command from `RDCSR 6`, the length from
`RDCSR 7`, the sequence number and the payload from `RDRX` (R85). -/
def readResponse (s : State) : Except Fault Frame :=
  match csrValue s 6, csrValue s 7, rdrxValue s 3 with
  | .ok h, .ok n, .ok q =>
    match readWindow s Config.headerLen n.toNat with
    | .ok p => .ok ⟨hi8 h, lo8 h, q, n, p⟩
    | .error f => .error f
  | .error f, _, _ => .error f
  | _, .error f, _ => .error f
  | _, _, .error f => .error f

/-- The result as the host reads it: the response in `DONE`, the code in `CSR0.ERR` in `ERR`, none
while the exchange goes on (R85, R239). -/
def readResult (s : State) : Except Fault (Option ExchangeResult) :=
  if doneOut s then
    match readResponse s with
    | .ok f => .ok (some (.response f))
    | .error f => .error f
  else if errOut s then .ok ((errOfCode (field (statusWord s) 5 3)).map .failed)
  else .ok none

/-- How an exchange stands when its events are over: its result, or none while it still waits. -/
structure Exchanged where
  result : Option ExchangeResult
  state : State
  deriving DecidableEq, Repr

/-- The end of an exchange: the result is read, "finally `ACK`" (R85, R232). -/
def finishExchange (s : State) : Host.Outcome Exchanged Fault Refusal :=
  match readResult s with
  | .error f => .fault f
  | .ok none => .next ⟨none, s⟩
  | .ok (some x) =>
    match exec .ack s with
    | .next t => .next ⟨some x, t⟩
    | .fault f => .fault f
    | .refused r => .refused r

/-- `exchange(t, c, P)` (R85) issued in `IDLE`, with what the link, the module and the host's timer
do meanwhile. -/
def exchange (r : Request) (es : List LinkEvent) (s : State) :
    Host.Outcome Exchanged Fault Refusal :=
  match andThen (runEvents (requestEvents r) s) (untilEnded es) with
  | .next t => finishExchange t
  | .fault f => .fault f
  | .refused r => .refused r

/-! ## The deadline timer (R195, R196) -/

/-- The host's timer: the receiving phase it was started for, and the time since. -/
structure Timer where
  phase : Option Phase
  elapsedMs : Nat
  deriving DecidableEq, Repr

/-- Time passes. -/
def timerTick (d : Nat) (t : Timer) : Timer := { t with elapsedMs := t.elapsedMs + d }

/-- The host sees the phase after an operation: the timer starts afresh at the entry to each
receiving phase; within a phase nothing restarts it (R195). -/
def timerObserve (p : Phase) (t : Timer) : Timer :=
  match p with
  | .rxHdr => if t.phase = some .rxHdr then t else ⟨some .rxHdr, 0⟩
  | .rxBody => if t.phase = some .rxBody then t else ⟨some .rxBody, 0⟩
  | .idle => ⟨none, 0⟩
  | .tx => ⟨none, 0⟩
  | .done => ⟨none, 0⟩
  | .err => ⟨none, 0⟩

/-- "when the elapsed time in the phase exceeds `READ_DEADLINE_MS`" (R195). -/
def timerExpired (deadlineMs : Nat) (t : Timer) : Bool :=
  t.phase.isSome && deadlineMs < t.elapsedMs

/-- The host issues `TMO` when the deadline has expired (R195). -/
def timerCommand (deadlineMs : Nat) (t : Timer) : Option PortWord :=
  if timerExpired deadlineMs t then some (encode .tmo) else none

/-! ## The readiness handshake (R225 to R227) -/

/-- Where the handshake stands. -/
inductive HandshakeStatus
  /-- attempt number `k`, counted from 1, is under way or due -/
  | attempting (k : Nat)
  | ready
  /-- "no response from device" -/
  | noResponse
  /-- a fatal error of an attempt (R227) -/
  | failed (e : ErrKind)
  deriving DecidableEq, Repr

/-- One attempt's result (R225); `n` is `HANDSHAKE_ATTEMPTS`. -/
def handshakeStep (n : Nat) (st : HandshakeStatus) (r : ExchangeResult) : HandshakeStatus :=
  match st, r with
  | .attempting _, .response _ => .ready
  | .attempting k, .failed .timeout => if n ≤ k then .noResponse else .attempting (k + 1)
  | .attempting _, .failed e => .failed e
  | .ready, _ => .ready
  | .noResponse, _ => .noResponse
  | .failed e, _ => .failed e

/-- Where the handshake starts. DESIGN CHOICE (log entry 15): with `HANDSHAKE_ATTEMPTS = 0` the loop
of R225 makes no attempt and the rule names no outcome; here it is "no response from device", and
the host sends nothing. -/
def handshakeStart (n : Nat) : HandshakeStatus := if n = 0 then .noResponse else .attempting 1

/-- The handshake over the results of its attempts. -/
def handshake (n : Nat) (rs : List ExchangeResult) : HandshakeStatus :=
  rs.foldl (handshakeStep n) (handshakeStart n)

/-- The handshake as a run of exchanges, each with what the link and the host's timer do during it;
it ends with its status, and with the first exchange that is still waiting (R225). -/
def handshakeRun (n : Nat) : List (List LinkEvent) → HandshakeStatus → State →
    Host.Outcome (HandshakeStatus × State) Fault Refusal
  | es :: ess, .attempting k, s =>
    match exchange readinessRequest es s with
    | .next ⟨some x, t⟩ => handshakeRun n ess (handshakeStep n (.attempting k) x) t
    | .next ⟨none, t⟩ => .next (.attempting k, t)
    | .fault f => .fault f
    | .refused r => .refused r
  | _, st, s => .next (st, s)

/-- Whether the host sleeps `HANDSHAKE_SLEEP` after this result: after every timeout but the last
attempt's (R225). -/
def handshakeSleeps (n : Nat) (st : HandshakeStatus) (r : ExchangeResult) : Bool :=
  match st, r with
  | .attempting k, .failed .timeout => k < n
  | _, _ => false

/-- The command the handshaking host issues next, by what it sees of the block (R225). -/
def handshakeCommand (deadlineMs : Nat) (st : HandshakeStatus) (t : Timer) (s : State) :
    Option PortWord :=
  match s.phase with
  | .idle =>
    match st with
    | .attempting _ =>
      some (encode (.send readinessRequest.type readinessRequest.cmd
        (halfOf readinessRequest.payload.length)))
    | .ready => none
    | .noResponse => none
    | .failed _ => none
  | .tx => none
  | .rxHdr => timerCommand deadlineMs t
  | .rxBody => timerCommand deadlineMs t
  | .done => some (encode .ack)
  | .err => some (encode .ack)

/-! ## Policies (R189, R203, R204) -/

/-- How the host treats an error of a normal exchange; the block is left by `ACK` under each. -/
inductive Verdict
  | fatal (e : ErrKind)
  /-- the caller is told "no response" and the host goes on (R203) -/
  | noResponse
  /-- the host resets state after a desynchronization (R189); "not defined by the source" (U4) -/
  | resetState
  deriving DecidableEq, Repr

/-- `NOFRAME_POLICY` touches the timeout alone (R203), U4's parameter the desynchronization alone;
every other error is fatal (R189). -/
def hostVerdict (noFrame : Config.NoFramePolicy) (desync : Config.DesyncPolicy) (e : ErrKind) :
    Verdict :=
  match e with
  | .timeout =>
    match noFrame with
    | .noResponse => .noResponse
    | .fatal => .fatal .timeout
  | .desync =>
    match desync with
    | .resetState => .resetState
    | .fatal => .fatal .desync
  | .tooBig => .fatal .tooBig
  | .io => .fatal .io
  | .malformed => .fatal .malformed
  | .invalid => .fatal .invalid

/-- The classes a caller tells apart (R204). -/
inductive ErrClass
  | programmerError | ioFault | retryableTimeout | protocolViolation
  deriving DecidableEq, Repr

/-- The class of each code (R204). -/
def errClass : ErrKind → ErrClass
  | .tooBig => .programmerError
  | .io => .ioFault
  | .timeout => .retryableTimeout
  | .malformed => .protocolViolation
  | .invalid => .protocolViolation
  | .desync => .protocolViolation

end Sys2Proof.Machine
end

