-- ==== Sys2Proof/Safety.lean ====
section
/-! DEFINITION. What a claim may ask of a state: the invariant of reachable states (`10_state.md`
R34), the resting and waiting states (`70_reset_and_hazards.md` R239), and the step that refuses a
host outside its obligations (`93_implementation_defined.md` U1, U3). -/

namespace Sys2Proof.Machine

/-- A buffer in canonical form, with cells inside its space only (R50). -/
def Memory.inSpace (m : Memory) (depth : Nat) : Prop := m.wf ∧ ∀ c ∈ m, c.1 < depth

/-- Every cell below `k` holds a value. -/
def cellsHeld (m : Memory) (k : Nat) : Prop := ∀ a < k, (memRead m a).isSome

/-- The invariant of the reachable states (R34 (b) to (g), (i)), with what makes it inductive: the
captured cells are held, and the buffers keep their form. Clause (a) is the type `Phase`; clause
(h) is about the run and is `SeqFollowsReqSeq`. -/
structure StateInv (s : State) : Prop where
  /-- (b) -/
  errIff : s.err = none ↔ s.phase ≠ .err
  /-- (c) -/
  idle : s.phase = .idle → s.txIdx = 0 ∧ s.rxCnt = 0
  /-- (d) -/
  tx : s.phase = .tx → s.txLen.toNat < Config.maxLenExcl ∧
    s.txIdx.toNat ≤ s.txLen.toNat + Config.headerLen ∧ s.rxCnt = 0
  /-- (e) -/
  rxHdr : s.phase = .rxHdr → s.rxCnt.toNat < Config.headerLen ∧ s.txIdx = 0
  /-- (f) -/
  rxBody : s.phase = .rxBody → memRead s.rxBuf 0 = some Config.startMarker ∧
    ∃ n, rxLen s = .ok n ∧ n.toNat < Config.maxLenExcl ∧
      Config.headerLen ≤ s.rxCnt.toNat ∧ s.rxCnt.toNat ≤ n.toNat + Config.headerLen
  /-- (g) -/
  done : s.phase = .done → ∃ b n, captured s = some b ∧ validFrame b = true ∧
    b[3]? = some s.reqSeq ∧ rxLen s = .ok n ∧ s.rxCnt.toNat = n.toNat + Config.overhead
  /-- (i) -/
  oneIndex : s.txIdx = 0 ∨ s.rxCnt = 0
  /-- R25: outside `TX` and `ERR` the transmit index is 0 -/
  txIdxRest : s.phase ≠ .tx → s.phase ≠ .err → s.txIdx = 0
  /-- R26: the captured length never exceeds the largest frame, and its cells are held -/
  capturedHeld : s.rxCnt.toNat ≤ Config.maxFrame ∧ cellsHeld s.rxBuf s.rxCnt.toNat
  /-- the buffers stay in their spaces -/
  txBufForm : s.txBuf.inSpace Config.txBufDepth
  rxBufForm : s.rxBuf.inSpace Config.rxBufDepth

/-- R34 (h): `SEQ = (REQSEQ + 1) mod 256`, after the first request since reset; until then both are
0. -/
abbrev SeqFollowsReqSeq (s : State) : Prop :=
  s.seq = nextSeqNumber s.reqSeq ∨ (s.seq = 0 ∧ s.reqSeq = 0)

/-- A run of the block is at rest (R239). -/
def atRest (s : State) : Bool := s.phase = .idle

/-- Waiting on the link or the host's timer (R236, R239). -/
def waitingOnLink (s : State) : Bool := s.phase = .tx || s.phase = .rxHdr || s.phase = .rxBody

/-- Waiting on the host's `ACK` (R236, R239). -/
def waitingOnHost (s : State) : Bool := s.phase = .done || s.phase = .err

/-! ## The host's and the link's obligations -/

/-- What is wrong with an event, seen from outside the block: a command the block would drop (U1), a
reserved word (U3), a receive byte that is not the head of `RXQ`. -/
def breach (s : State) (e : Event) : Option Refusal :=
  match e with
  | .port (.cw w) => commandBreach s w
  | .port (.rx d) => rxBreach s d
  | .port (.wr _) => none
  | .port (.rd _) => none
  | .port (.cs _) => none
  | .port (.tx _) => none
  | .port (.rs _) => none
  | .port (.fn _) => none
  | .port (.fh _) => if accepts opSend s.phase then none else some .commandDropped
  | .arrive _ => none
  | .cycle p => if p.rstN && p.cmdStrobe then commandBreach s p.cmdWord else none
where
  commandBreach (s : State) (w : BitVec 35) : Option Refusal :=
    match decode (.cw w) with
    | .error _ => some .reservedCommandWord
    | .ok _ => if cmdAccept s w then none else some .commandDropped
  rxBreach (s : State) (d : Byte) : Option Refusal :=
    match s.rxQ with
    | [] => none
    | h :: _ => if rxReady s && h ≠ d then some .rxDataNotQueueHead else none

/-- The step that "refuses a host that issues a command the block would drop" (R120, U1) and a
reserved word (R72, U3), and is `step` otherwise (log entry 2). -/
def guardedStep (s : State) : Host.Outcome State Fault Refusal :=
  match s.sched with
  | [] => step s
  | e :: _ =>
    match breach s e with
    | some r => .refused r
    | none => step s

end Sys2Proof.Machine
end

