-- ==== Sys2Proof/Certificates/Slice0/Obligations.lean ====
section
/-! DEFINITION. The statements for the provers. Each docstring names the rule of `spec/` it
formalises, or the sections it rests on where the spec marks the rule as derived or the model made
the choice (a log entry of `notes/assumptions/`). -/

open Sys2Proof Sys2Proof.Machine

/-! ## Words the statements share -/

/-- The operation completes, changes no state and returns `r`. -/
def Sys2Proof.Statements.Returns (i : Instr) (s : State) (r : Ret) : Prop :=
  exec i s = .next { s with ret := r }

/-- The operation completes and changes nothing. -/
def Sys2Proof.Statements.Dropped (i : Instr) (s : State) : Prop := exec i s = .next s

/-- The bytes of R74's frame with payload `p`, written out. -/
def Sys2Proof.Statements.frameOf (t c q : Byte) (p : List Byte) : List Byte :=
  [0xFE, t, c, q, BitVec.ofNat 8 (p.length / 256), BitVec.ofNat 8 (p.length % 256)] ++ p ++ [0xFD]

/-- `payload_length` of a buffer with a header, on natural numbers (R102). -/
def Sys2Proof.Statements.declared (b : List Byte) : Nat :=
  (b.getD 4 0).toNat * 256 + (b.getD 5 0).toNat

/-- The four conditions of R103 on a buffer with a header. -/
def Sys2Proof.Statements.FourConditions (b : List Byte) : Prop :=
  6 ≤ b.length ∧ b[0]? = some 0xFE ∧ Sys2Proof.Statements.declared b < 0xF000 ∧
  b.length = Sys2Proof.Statements.declared b + 7 ∧
  b[6 + Sys2Proof.Statements.declared b]? = some 0xFD

/-- What a row of the wire does with a request in `IDLE`, `command_type`, `command` and length being
`t`, `c`, `n` (log entry 6): the header is latched, the next sequence number is taken, and the whole
frame, with the payload held in `TXBUF`, goes to the link. -/
def Sys2Proof.Statements.CarriesRequest (i : Instr) (t c : Byte) (n : Half) : Prop :=
  ∀ (s : State) (p : List Byte), s.phase = .idle → n.toNat < 0xF000 →
    memSlice s.txBuf 0 n.toNat = some p →
    exec i s = .next { s with
      txType := t, txCmd := c, txLen := n, txIdx := 0, rxCnt := 0, reqSeq := s.seq,
      seq := s.seq + 1, err := none, phase := .rxHdr,
      txQ := s.txQ ++ Sys2Proof.Statements.frameOf t c s.seq p }

/-- What a row of the wire does otherwise (log entry 6): a length of 0xF000 or more fails like
`SEND`; outside `IDLE` the request is dropped; a payload cell that holds no value is the fault of
U5. -/
def Sys2Proof.Statements.FailsLikeSend (i : Instr) (t c : Byte) (n : Half) : Prop :=
  ∀ s : State,
    (s.phase = .idle → 0xF000 ≤ n.toNat →
      exec i s = .next { s with
        txType := t, txCmd := c, txLen := n, txIdx := 0, rxCnt := 0,
        phase := .err, err := some .tooBig }) ∧
    (s.phase ≠ .idle → exec i s = .next s) ∧
    (s.phase = .idle → n.toNat < 0xF000 → ∀ a, a < n.toNat → memRead s.txBuf a = none →
      (∀ b < a, memRead s.txBuf b ≠ none) → exec i s = .fault (.txBufUnwritten a))

/-- The 14 rows of the wire with their `command_type`, `command` and length. -/
def Sys2Proof.Statements.EveryWireRow (P : Instr → Byte → Byte → Half → Prop) : Prop :=
  ∀ (t c q : Byte) (n : Half),
    P (.frame t c q n) t c n ∧
    P (.familySystem c q n) 0x00 c n ∧ P (.familyStream c q n) 0x01 c n ∧
    P (.familyClock c q n) 0x02 c n ∧ P (.familyMetadata c q n) 0x03 c n ∧
    P (.familyNotification c q n) 0x07 c n ∧ P (.familyGpio c q n) 0x08 c n ∧
    P (.readinessCheck q n) 0x00 0x00 n ∧ P (.play q n) 0x01 0x00 n ∧
    P (.getPlayStatus q n) 0x01 0x10 n ∧ P (.setStereoMode q n) 0x01 0x20 n ∧
    P (.setVolume q n) 0x01 0x22 n ∧ P (.getClock q n) 0x02 0x01 n ∧
    P (.getAppData q n) 0x03 0x00 n

/-- The length of the request an operation is for: `SEND`'s, or that of a row of the wire. -/
def Sys2Proof.Statements.requestLen (i : Instr) : Option Half :=
  match i with
  | .send _ _ n => some n
  | .frame _ _ _ n => some n
  | .familySystem _ _ n => some n
  | .familyStream _ _ n => some n
  | .familyClock _ _ n => some n
  | .familyMetadata _ _ n => some n
  | .familyNotification _ _ n => some n
  | .familyGpio _ _ n => some n
  | .readinessCheck _ n => some n
  | .play _ n => some n
  | .getPlayStatus _ n => some n
  | .setStereoMode _ n => some n
  | .setVolume _ n => some n
  | .getClock _ n => some n
  | .getAppData _ n => some n
  | .ack => none
  | .tmo => none
  | .flt => none
  | .wrtx _ _ => none
  | .rdrx _ => none
  | .rdcsr _ => none
  | .txb => none
  | .rxb _ => none
  | .rst => none
  | .nextSeq => none
  | .encode _ _ _ _ => none
  | .pLen _ => none
  | .valid _ => none
  | .decode _ => none
  | .chkSeq _ _ _ _ => none

/-- Whether an operation starts a request in this state: `SEND` or a row of the wire (the model's
choice, log entry 6), in `IDLE`, with a legal length. -/
def Sys2Proof.Statements.startsRequest (i : Instr) (s : State) : Bool :=
  match Sys2Proof.Statements.requestLen i with
  | some n => s.phase = .idle && n.toNat < 0xF000
  | none => false

/-- Whether a port word starts a request in this state. -/
def Sys2Proof.Statements.wordStarts (w : PortWord) (s : State) : Bool :=
  match decode w with
  | .ok i => Sys2Proof.Statements.startsRequest i s
  | .error _ => false

/-- Whether an event starts a request in this state: by its word, or by the command of a cycle
without reset. -/
def Sys2Proof.Statements.eventStarts (e : Event) (s : State) : Bool :=
  match e with
  | .port w => Sys2Proof.Statements.wordStarts w s
  | .arrive _ => false
  | .cycle p => p.rstN && p.cmdStrobe && Sys2Proof.Statements.wordStarts (.cw p.cmdWord) s

/-- Whether an event is a reset. -/
def Sys2Proof.Statements.eventResets (e : Event) : Bool :=
  match e with
  | .port w => decode w = .ok .rst
  | .arrive _ => false
  | .cycle p => !p.rstN

/-- How many requests a sequence of operations starts, up to where it stops. -/
def Sys2Proof.Statements.requestsStarted : List Instr → State → Nat
  | [], _ => 0
  | i :: is, s =>
    (if Sys2Proof.Statements.startsRequest i s then 1 else 0) +
      match exec i s with
      | .next t => Sys2Proof.Statements.requestsStarted is t
      | .fault _ => 0
      | .refused _ => 0

/-- Operations one after another. -/
def Sys2Proof.Statements.runOps : List Instr → State → Result
  | [], s => .next s
  | i :: is, s => andThen (exec i s) (Sys2Proof.Statements.runOps is)

/-- Whether an operation is a row of the wire. -/
def Sys2Proof.Statements.isWireRow (i : Instr) : Bool := (headerMnemonic i).isSome

/-- Two operations that differ at most in a request's `command_type` and `command` or in a payload
byte written to `TXBUF`. -/
def Sys2Proof.Statements.SameButTypeCommandPayload (i i' : Instr) : Prop :=
  i = i' ∨
  (∃ t c t' c' n, i = .send t c n ∧ i' = .send t' c' n) ∨
  (∃ a v v', i = .wrtx a v ∧ i' = .wrtx a v') ∨
  (Sys2Proof.Statements.isWireRow i = true ∧ Sys2Proof.Statements.isWireRow i' = true ∧
    Sys2Proof.Statements.requestLen i = Sys2Proof.Statements.requestLen i')

open Sys2Proof.Statements

/-! ## Reset -/

/-- R220: in every phase `RST` gives each register its reset value; everything else (both buffers,
the link's queues) is kept; and a cycle with `rst_n = 0` is `RST` and nothing else. -/
def Obligations.RstResetsRegistersInEveryPhase : Prop :=
  ∀ (s : State) (p : Pins),
    exec .rst s = .next { s with
      phase := .idle, err := none, seq := 0, reqSeq := 0, txType := 0, txCmd := 0, txLen := 0,
      txIdx := 0, rxCnt := 0 } ∧
    (p.rstN = false → runCycle p s = exec .rst s)

/-- `70_reset_and_hazards.md` §1, R221, which the spec marks derived: "`busy = done = err = irq =
0`, `tx_valid = 0`, `tx_data = 0x00`, `rx_ready = 0`; `cmd_accept = 1` for `SEND` and 0 for every
other word. Status registers `CSR0` to `CSR7` all read 0x0000." -/
def Obligations.OutputsAfterReset : Prop :=
  ∀ s t : State, exec .rst s = .next t →
    busy t = false ∧ doneOut t = false ∧ errOut t = false ∧ irq t = false ∧ txValid t = false ∧
    txData t = .ok 0 ∧ rxReady t = false ∧
    (∀ w : BitVec 35, cmdAccept t w = true ↔ ∃ y c n, decode (.cw w) = .ok (.send y c n)) ∧
    ∀ n : BitVec 3, Returns (.rdcsr n) t (.word 0)

/-! ## Host operations -/

/-- R121: `SEND` in `IDLE` with `len < 0xF000` latches the header, takes the sequence number
and enters `TX`; with `len >= 0xF000` it raises `E_TOOBIG` and uses no sequence number; in every
other phase it is dropped. -/
def Obligations.SendByPhaseAndLength : Prop :=
  ∀ (s : State) (t c : Byte) (n : Half),
    (s.phase = .idle → n.toNat < 0xF000 →
      exec (.send t c n) s = .next { s with
        txType := t, txCmd := c, txLen := n, txIdx := 0, rxCnt := 0, reqSeq := s.seq,
        seq := s.seq + 1, err := none, phase := .tx }) ∧
    (s.phase = .idle → 0xF000 ≤ n.toNat →
      exec (.send t c n) s = .next { s with
        txType := t, txCmd := c, txLen := n, txIdx := 0, rxCnt := 0,
        phase := .err, err := some .tooBig }) ∧
    (s.phase ≠ .idle → Dropped (.send t c n) s)

/-- R122: `ACK` in `DONE` or `ERR` returns to `IDLE` with the counters cleared, the windows closed
and everything else kept; elsewhere it is dropped; and from `ERR` no operation but it and `RST`
leads back to `IDLE`. -/
def Obligations.AckReturnsToIdle : Prop :=
  ∀ s : State,
    (s.phase = .done ∨ s.phase = .err →
      exec .ack s = .next { s with phase := .idle, err := none, txIdx := 0, rxCnt := 0 } ∧
      ∀ a, Returns (.rdrx a) { s with phase := .idle, err := none, txIdx := 0, rxCnt := 0 }
        (.byte 0)) ∧
    (s.phase ≠ .done → s.phase ≠ .err → Dropped .ack s) ∧
    (s.phase = .err → ∀ i t, i ≠ .ack → i ≠ .rst → exec i s = .next t → t.phase ≠ .idle)

/-- R123: `TMO` in `RXHDR` or `RXBODY` raises `E_TIMEOUT` and changes nothing else, so that the first
`min(RXCNT, 6)` captured bytes are readable; elsewhere it is dropped. -/
def Obligations.TmoRaisesTimeout : Prop :=
  ∀ s : State,
    (s.phase = .rxHdr ∨ s.phase = .rxBody →
      exec .tmo s = .next { s with phase := .err, err := some .timeout } ∧
      ∀ (a : Half) (v : Byte), a.toNat < min s.rxCnt.toNat 6 →
        memRead s.rxBuf a.toNat = some v →
        Returns (.rdrx a) { s with phase := .err, err := some .timeout } (.byte v)) ∧
    (s.phase ≠ .rxHdr → s.phase ≠ .rxBody → Dropped .tmo s)

/-- R124: `FLT` in `TX`, `RXHDR` or `RXBODY` raises `E_IO` and changes nothing else; elsewhere it is
dropped. -/
def Obligations.FltRaisesIoError : Prop :=
  ∀ s : State,
    (s.phase = .tx ∨ s.phase = .rxHdr ∨ s.phase = .rxBody →
      exec .flt s = .next { s with phase := .err, err := some .io }) ∧
    (s.phase = .idle ∨ s.phase = .done ∨ s.phase = .err → Dropped .flt s)

/-- R125: `cmd_accept` is the table, by the word's `op`; an accepted word takes effect and leaves the
phase, a word that is not accepted changes nothing. -/
def Obligations.CommandAcceptanceTable : Prop :=
  ∀ (s : State) (w : BitVec 35),
    (cmdAccept s w = true ↔
      (w.toNat / 2 ^ 32 = 1 ∧ s.phase = .idle) ∨
      (w.toNat / 2 ^ 32 = 2 ∧ (s.phase = .done ∨ s.phase = .err)) ∨
      (w.toNat / 2 ^ 32 = 3 ∧ (s.phase = .rxHdr ∨ s.phase = .rxBody)) ∨
      (w.toNat / 2 ^ 32 = 4 ∧ (s.phase = .tx ∨ s.phase = .rxHdr ∨ s.phase = .rxBody))) ∧
    (cmdAccept s w = true → ∃ t, runWord (.cw w) s = .next t ∧ t.phase ≠ s.phase) ∧
    (cmdAccept s w = false → runWord (.cw w) s = .next s)

/-- R51: `WRTX a, v` with `a <= 0xEFFE` outside `TX` writes that cell and nothing else; any other is
dropped; and what the host's reads return does not depend on `TXBUF`. -/
def Obligations.WrtxWritesOneCell : Prop :=
  ∀ (s : State) (a : Half) (v : Byte),
    (a.toNat ≤ 0xEFFE → s.phase ≠ .tx →
      ∃ m, exec (.wrtx a v) s = .next { s with txBuf := m } ∧ memRead m a.toNat = some v ∧
        ∀ b, b ≠ a.toNat → memRead m b = memRead s.txBuf b) ∧
    (0xEFFE < a.toNat ∨ s.phase = .tx → Dropped (.wrtx a v) s) ∧
    (∀ (m : Memory) (r : Ret),
      (∀ b, Returns (.rdrx b) s r → Returns (.rdrx b) { s with txBuf := m } r) ∧
      ∀ n, Returns (.rdcsr n) s r → Returns (.rdcsr n) { s with txBuf := m } r)

/-- R54, R127: `RDRX a` returns the captured byte in the response window (`DONE`, `a < RXCNT`) and in
the diagnostic window (`ERR`, `a < min(RXCNT, 6)`), and 0x00 everywhere else; it changes no state. In
`DONE` the markers stand at offsets 0 and `6 + RXLEN`, and offset 3 is `REQSEQ`. -/
def Obligations.RdrxWindows : Prop :=
  ∀ s : State, StateInv s →
    (∀ a : Half, ∃ v, Returns (.rdrx a) s (.byte v) ∧
      (s.phase = .done → a.toNat < s.rxCnt.toNat → memRead s.rxBuf a.toNat = some v) ∧
      (s.phase = .err → a.toNat < min s.rxCnt.toNat 6 → memRead s.rxBuf a.toNat = some v) ∧
      (¬(s.phase = .done ∧ a.toNat < s.rxCnt.toNat) →
        ¬(s.phase = .err ∧ a.toNat < min s.rxCnt.toNat 6) → v = 0)) ∧
    (s.phase = .done →
      ∃ n, rxLen s = .ok n ∧ s.rxCnt.toNat = n.toNat + 7 ∧ Returns (.rdrx 0) s (.byte 0xFE) ∧
        Returns (.rdrx 3) s (.byte s.reqSeq) ∧
        Returns (.rdrx (BitVec.ofNat 16 (6 + n.toNat))) s (.byte 0xFD))

/-- R38, with the codes of R27 and R180: the fields of `CSR0`. -/
def Obligations.StatusWordFields : Prop :=
  ∀ s : State, ∃ w, Returns (.rdcsr 0) s (.word w) ∧
    field w 2 0 = (match s.phase with
      | .idle => 0 | .tx => 1 | .rxHdr => 2 | .rxBody => 3 | .done => 4 | .err => 5) ∧
    field w 5 3 = (match s.err with
      | none => 0 | some .tooBig => 1 | some .io => 2 | some .timeout => 3
      | some .malformed => 4 | some .invalid => 5 | some .desync => 6) ∧
    (field w 6 6 = 1 ↔ s.phase = .tx ∨ s.phase = .rxHdr ∨ s.phase = .rxBody) ∧
    (field w 7 7 = 1 ↔ s.phase = .done) ∧ (field w 8 8 = 1 ↔ s.phase = .err) ∧
    field w 15 9 = 0

/-- R39 to R43: `RDCSR` 0 to 5 completes in every state; `CSR1` to `CSR5` show `SEQ`,
`REQSEQ`, the byte index, the request's header bytes and `TXLEN`. -/
def Obligations.RequestStatusRegisters : Prop :=
  ∀ s : State,
    (∀ n : BitVec 3, n.toNat ≤ 5 → ∃ w, Returns (.rdcsr n) s (.word w)) ∧
    Returns (.rdcsr 1) s (.word (BitVec.ofNat 16 s.seq.toNat)) ∧
    Returns (.rdcsr 2) s (.word (BitVec.ofNat 16 s.reqSeq.toNat)) ∧
    Returns (.rdcsr 3) s (.word (if s.txIdx ≠ 0 then s.txIdx else s.rxCnt)) ∧
    (∃ w, Returns (.rdcsr 4) s (.word w) ∧ field w 15 8 = s.txType.toNat ∧
      field w 7 0 = s.txCmd.toNat) ∧
    Returns (.rdcsr 5) s (.word s.txLen)

/-- R44, R45: `CSR6` and `CSR7` show the response's type, command and length in `DONE`, the length
being below 0xF000, and 0 in every other phase; in `DONE` the response's sequence number is
`REQSEQ`. -/
def Obligations.ResponseStatusRegisters : Prop :=
  ∀ s : State, StateInv s →
    (s.phase ≠ .done → Returns (.rdcsr 6) s (.word 0) ∧ Returns (.rdcsr 7) s (.word 0)) ∧
    (s.phase = .done →
      memRead s.rxBuf 3 = some s.reqSeq ∧
      (∃ w t c, Returns (.rdcsr 6) s (.word w) ∧ memRead s.rxBuf 1 = some t ∧
        memRead s.rxBuf 2 = some c ∧ field w 15 8 = t.toNat ∧ field w 7 0 = c.toNat) ∧
      ∃ w h l, Returns (.rdcsr 7) s (.word w) ∧ memRead s.rxBuf 4 = some h ∧
        memRead s.rxBuf 5 = some l ∧ w.toNat = h.toNat * 256 + l.toNat ∧ w.toNat < 0xF000)

/-- R36: the outputs are functions of the phase, `tx_data` is 0x00 outside `TX`. -/
def Obligations.OutputsByPhase : Prop :=
  ∀ (s : State) (p : Pins),
    ((outputPins p s).busy = true ↔ s.phase = .tx ∨ s.phase = .rxHdr ∨ s.phase = .rxBody) ∧
    ((outputPins p s).done = true ↔ s.phase = .done) ∧
    ((outputPins p s).err = true ↔ s.phase = .err) ∧
    ((outputPins p s).irq = true ↔ s.phase = .done ∨ s.phase = .err) ∧
    ((outputPins p s).txValid = true ↔ s.phase = .tx) ∧
    (s.phase ≠ .tx → (outputPins p s).txData = .ok 0) ∧
    (s.phase = .tx → (outputPins p s).txData = txByte s) ∧
    ((outputPins p s).rxReady = true ↔ s.phase = .rxHdr ∨ s.phase = .rxBody) ∧
    ((outputPins p s).cmdAccept = true ↔
      ∃ t, runWord (.cw p.cmdWord) s = .next t ∧ t.phase ≠ s.phase)

/-! ## Link operations -/

/-- R140, R141: in `TX` one `TXB` hands `TxByte` to the link; after the end marker it enters `RXHDR`
with the index cleared, otherwise it advances the index; outside `TX` nothing happens. -/
def Obligations.TxbHandsOverTxByte : Prop :=
  ∀ s : State,
    (s.phase = .tx →
      (6 ≤ s.txIdx.toNat → s.txIdx.toNat < 6 + s.txLen.toNat →
        memRead s.txBuf (s.txIdx.toNat - 6) ≠ none) →
      exec .txb s = .next { s with
        txQ := s.txQ ++ [
          if s.txIdx.toNat = 0 then 0xFE
          else if s.txIdx.toNat = 1 then s.txType
          else if s.txIdx.toNat = 2 then s.txCmd
          else if s.txIdx.toNat = 3 then s.reqSeq
          else if s.txIdx.toNat = 4 then BitVec.ofNat 8 (s.txLen.toNat / 256)
          else if s.txIdx.toNat = 5 then BitVec.ofNat 8 (s.txLen.toNat % 256)
          else if s.txIdx.toNat < 6 + s.txLen.toNat then
            (memRead s.txBuf (s.txIdx.toNat - 6)).getD 0
          else 0xFD],
        txIdx := if s.txIdx.toNat = 6 + s.txLen.toNat then 0 else s.txIdx + 1,
        phase := if s.txIdx.toNat = 6 + s.txLen.toNat then .rxHdr else .tx }) ∧
    (s.phase ≠ .tx → Dropped .txb s)

/-- `20_memory.md` §2 (R52: "a model treats handing over such a byte as a fault"; U5, log entry 3):
`TXB` stops exactly where the payload byte due was never written. -/
def Obligations.TxbFaultsOnUnwrittenPayload : Prop :=
  ∀ (s : State) (a : Nat),
    exec .txb s = .fault (.txBufUnwritten a) ↔
      s.phase = .tx ∧ s.txIdx.toNat = a + 6 ∧ a < s.txLen.toNat ∧ memRead s.txBuf a = none

/-- `42_link_ops.md` §1, R142, which the spec marks derived: "The bytes handed over by the `TXB`
operations of one exchange, in order, are exactly `ENCODE(TXTYPE, TXCMD, REQSEQ, P)`". -/
def Obligations.TransmitRunIsEncode : Prop :=
  ∀ (s : State) (p : List Byte), s.phase = .tx → s.txIdx = 0 → s.txLen.toNat < 0xF000 →
    memSlice s.txBuf 0 s.txLen.toNat = some p →
    ∃ f, encodeFrame s.txType s.txCmd s.reqSeq p = .ok f ∧
      runOps (List.replicate (s.txLen.toNat + 7) .txb) s =
        .next { s with txIdx := 0, phase := .rxHdr, txQ := s.txQ ++ f }

/-- `30_encoding.md` §7 (R85, `load P`; `SEND t, c, n`; `n + 7` times `TXB`): from `IDLE`, whatever
`TXBUF` held, the transmit half of `exchange(t, c, P)` puts exactly R74's frame with the next
sequence number onto the wire and waits for the response. -/
def Obligations.ExchangePutsItsFrameOnTheWire : Prop :=
  ∀ (s : State) (r : Request), s.phase = .idle → r.payload.length < 0xF000 →
    ∃ m, runEvents (transmitEvents r) s = .next { s with
        txBuf := m, txType := r.type, txCmd := r.cmd,
        txLen := BitVec.ofNat 16 r.payload.length, txIdx := 0, rxCnt := 0, reqSeq := s.seq,
        seq := s.seq + 1, err := none, phase := .rxHdr,
        txQ := s.txQ ++ frameOf r.type r.cmd s.seq r.payload } ∧
      memSlice m 0 r.payload.length = some r.payload ∧
      ∀ a, r.payload.length ≤ a → memRead m a = memRead s.txBuf a

/-- `43_wire_commands.md` §3 (R164): "`set_volume(16)` must produce the byte sequence `FE 01 22 <seq> 00
01 10 FD`", by the host's operations, for every volume byte. That the row of the wire with length 1
and the volume in `TXBUF[0]` does the same, whatever its sequence field, is the model's choice (log
entries 6 and 7). -/
def Obligations.SetVolumeBytes : Prop :=
  ∀ (s : State) (v q : Byte), s.phase = .idle →
    (∃ t, runEvents (transmitEvents (setVolumeRequest v)) s = .next t ∧
      t.txQ = s.txQ ++ [0xFE, 0x01, 0x22, s.seq, 0x00, 0x01, v, 0xFD]) ∧
    (memRead s.txBuf 0 = some v →
      ∃ t, exec (.setVolume q 1) s = .next t ∧
        t.txQ = s.txQ ++ [0xFE, 0x01, 0x22, s.seq, 0x00, 0x01, v, 0xFD])

/-- `43_wire_commands.md` §3: the request frames of the readiness check (R163), of set-stereo-mode (R165)
and of play, its 32-bit argument most significant byte first (R166). The readiness check's empty payload
is the spec's own decision D18, since the source gives none. -/
def Obligations.FacadeRequestFrames : Prop :=
  ∀ (s : State) (m a3 a2 a1 a0 : Byte), s.phase = .idle →
    (∃ t, runEvents (transmitEvents readinessRequest) s = .next t ∧
      t.txQ = s.txQ ++ [0xFE, 0x00, 0x00, s.seq, 0x00, 0x00, 0xFD]) ∧
    (∃ t, runEvents (transmitEvents (setStereoModeRequest m)) s = .next t ∧
      t.txQ = s.txQ ++ [0xFE, 0x01, 0x20, s.seq, 0x00, 0x01, m, 0xFD]) ∧
    (∃ t, runEvents (transmitEvents (playRequest m (BitVec.ofNat 32
        (a3.toNat * 2 ^ 24 + a2.toNat * 2 ^ 16 + a1.toNat * 2 ^ 8 + a0.toNat)))) s = .next t ∧
      t.txQ = s.txQ ++ [0xFE, 0x01, 0x00, s.seq, 0x00, 0x05, m, a3, a2, a1, a0, 0xFD])

/-- R144: with `tx_ready = 0` and no command and no write, a cycle in `TX` changes no state, so
`tx_valid` and `tx_data` stay as they are; with `tx_ready = 1` the byte is handed over. -/
def Obligations.TransientBusyChangesNothing : Prop :=
  ∀ (s : State) (p : Pins), s.phase = .tx → p.rstN = true → p.cmdStrobe = false →
    p.txReady = false → p.txbufWe = false →
    runCycle p s = .next s ∧ (outputPins p s).txValid = true ∧
    (outputPins p s).txData = txByte s ∧
    runCycle { p with txReady := true } s = exec .txb s

/-- `42_link_ops.md` §2 (R143) and `60_exceptions.md` §4 (R192): what one response byte does, check by
check. `s1` is the state with the byte captured; the checks read `RXBUF` after the write. Outside the
receiving phases no byte is taken. That the byte may also pass through an empty `RXQ`, where R143
takes the head of `RXQ`, is the model's choice (log entry 11). -/
def Obligations.RxbByPhaseAndCount : Prop :=
  ∀ (s : State) (b : Byte), StateInv s → (s.rxQ = [] ∨ s.rxQ.head? = some b) →
    let s1 := { s with
      rxQ := s.rxQ.tail, rxBuf := memWrite s.rxBuf s.rxCnt.toNat b, rxCnt := s.rxCnt + 1 }
    (s.phase = .rxHdr → s.rxCnt.toNat + 1 < 6 → exec (.rxb b) s = .next s1) ∧
    (s.phase = .rxHdr → s.rxCnt.toNat + 1 = 6 →
      ∃ m h l, memRead s1.rxBuf 0 = some m ∧ memRead s1.rxBuf 4 = some h ∧
        memRead s1.rxBuf 5 = some l ∧
        exec (.rxb b) s = .next
          (if m ≠ 0xFE then { s1 with phase := .err, err := some .malformed }
           else if 0xF000 ≤ h.toNat * 256 + l.toNat then
             { s1 with phase := .err, err := some .invalid }
           else { s1 with phase := .rxBody })) ∧
    (s.phase = .rxBody →
      ∃ q h l, memRead s1.rxBuf 3 = some q ∧ memRead s1.rxBuf 4 = some h ∧
        memRead s1.rxBuf 5 = some l ∧
        exec (.rxb b) s = .next
          (if s.rxCnt.toNat + 1 = h.toNat * 256 + l.toNat + 7 then
             if b ≠ 0xFD then { s1 with phase := .err, err := some .invalid }
             else if q ≠ s.reqSeq then { s1 with phase := .err, err := some .desync }
             else { s1 with phase := .done }
           else s1)) ∧
    (s.phase ≠ .rxHdr → s.phase ≠ .rxBody → Dropped (.rxb b) s)

/-- `42_link_ops.md` §2 (R145 (g)) and log entry 11: where `RXB` is not enabled no byte is taken; and
in a receiving phase a byte that is not the head of a non-empty `RXQ` is refused by name. -/
def Obligations.RxbOutsideItsPhases : Prop :=
  ∀ (s : State) (b : Byte),
    (s.phase ≠ .rxHdr → s.phase ≠ .rxBody → Dropped (.rxb b) s) ∧
    (s.phase = .rxHdr ∨ s.phase = .rxBody → ∀ h q, s.rxQ = h :: q → h ≠ b →
      exec (.rxb b) s = .refused .rxDataNotQueueHead)

/-- `20_memory.md` §3 (R53): `RXB` writes the byte into `RXBUF[RXCNT]` and no other cell; no other
operation writes `RXBUF`. That the address is at most 0xF005 is a sentence the spec marks derived,
from R34 (e) and (f). -/
def Obligations.OnlyRxbWritesRxbuf : Prop :=
  ∀ (i : Instr) (s t : State), StateInv s → exec i s = .next t →
    (∀ b, i = .rxb b → s.phase = .rxHdr ∨ s.phase = .rxBody →
      s.rxCnt.toNat ≤ 0xF005 ∧ memRead t.rxBuf s.rxCnt.toNat = some b ∧
      ∀ a, a ≠ s.rxCnt.toNat → memRead t.rxBuf a = memRead s.rxBuf a) ∧
    ((∀ b, i ≠ .rxb b) → t.rxBuf = s.rxBuf)

/-- `40_codec.md` §5, R108, which the spec marks derived: with `C` the captured bytes after an
enabled `RXB`, the verdict of the streaming receiver is that of `VALID` and the sequence check. -/
def Obligations.StreamingReceiverAgreesWithValid : Prop :=
  ∀ (s t : State) (b : Byte), StateInv s → (s.phase = .rxHdr ∨ s.phase = .rxBody) →
    exec (.rxb b) s = .next t →
    ∃ g, captured t = some g ∧ g.length = s.rxCnt.toNat + 1 ∧
      (t.phase = .done ↔ FourConditions g ∧ g[3]? = some s.reqSeq) ∧
      (t.err = some .malformed ↔ g.length = 6 ∧ g[0]? ≠ some 0xFE) ∧
      (t.err = some .invalid ↔ g[0]? = some 0xFE ∧
        ((g.length = 6 ∧ 0xF000 ≤ declared g) ∨
         (6 ≤ g.length ∧ g.length = declared g + 7 ∧ g[g.length - 1]? ≠ some 0xFD))) ∧
      (t.err = some .desync ↔ FourConditions g ∧ g[3]? ≠ some s.reqSeq)

/-- `40_codec.md` §5 (R108) and `42_link_ops.md` §2 (R145 (d), (f), (h)): a whole frame at the head of
`RXQ`, of any type, command and payload, is taken from the link and nothing beyond it; the exchange
ends in `DONE` with the frame readable if it carries `REQSEQ`, and with `E_DESYNC` otherwise. -/
def Obligations.WholeFrameEndsTheExchange : Prop :=
  ∀ (s : State) (t c q : Byte) (p rest : List Byte), StateInv s → s.phase = .rxHdr → s.rxCnt = 0 →
    p.length < 0xF000 → s.rxQ = frameOf t c q p ++ rest →
    ∃ u, runOps ((frameOf t c q p).map .rxb) s = .next u ∧ u.rxQ = rest ∧
      captured u = some (frameOf t c q p) ∧
      (q = s.reqSeq → u.phase = .done ∧
        exchangeResult u = some (.response ⟨t, c, q, BitVec.ofNat 16 p.length, p⟩)) ∧
      (q ≠ s.reqSeq → u.phase = .err ∧ exchangeResult u = some (.failed .desync)) ∧
      u.seq = s.seq ∧ u.reqSeq = s.reqSeq ∧ u.txBuf = s.txBuf ∧ u.txQ = s.txQ ∧
      u.txIdx = s.txIdx ∧ u.txLen = s.txLen ∧ u.txType = s.txType ∧ u.txCmd = s.txCmd

/-! ## Errors, phases, whole-machine rules -/

/-- `60_exceptions.md` §5, R193, which the spec marks derived: "In `ERR` every operation except
`ACK`, `RST`, `WRTX`, `RDRX` and `RDCSR` is dropped". R9's operations on the ports and the rows of
the wire (log entry 6) change nothing; and the step of every port word that is none of the five
changes nothing but the value returned, which a codec function gives its caller (log entry 8). -/
def Obligations.ErrPhaseDropsEverythingElse : Prop :=
  ∀ s : State, s.phase = .err →
    (∀ i : Instr, (∃ t c n, i = .send t c n) ∨ i = .tmo ∨ i = .flt ∨ i = .txb ∨
      (∃ b, i = .rxb b) ∨ isWireRow i = true → Dropped i s) ∧
    (∀ w rest i, s.sched = .port w :: rest → decode w = .ok i → i ≠ .ack → i ≠ .rst →
      (∀ a v, i ≠ .wrtx a v) → (∀ a, i ≠ .rdrx a) → (∀ n, i ≠ .rdcsr n) →
      ∃ r, step s = .next { s with sched := rest, ret := r })

/-- `10_state.md` §3, R30, which the spec marks derived: the phase transitions are those of the
table. A row of the wire runs `SEND` and its `TXB`s, so it goes from `IDLE` to `RXHDR` or `ERR`
(log entry 6). -/
def Obligations.PhaseTransitionsAreTheTable : Prop :=
  ∀ (i : Instr) (s t : State), exec i s = .next t → t.phase ≠ s.phase →
    (i = .rst ∧ t.phase = .idle ∧ t.err = none) ∨
    ((∃ y c n, i = .send y c n) ∧ s.phase = .idle ∧
      ((t.phase = .tx ∧ t.err = none) ∨ (t.phase = .err ∧ t.err = some .tooBig))) ∨
    (isWireRow i = true ∧ s.phase = .idle ∧
      ((t.phase = .rxHdr ∧ t.err = none) ∨ (t.phase = .err ∧ t.err = some .tooBig))) ∨
    (i = .txb ∧ s.phase = .tx ∧ t.phase = .rxHdr ∧ t.err = s.err) ∨
    (i = .flt ∧ (s.phase = .tx ∨ s.phase = .rxHdr ∨ s.phase = .rxBody) ∧ t.phase = .err ∧
      t.err = some .io) ∨
    (i = .tmo ∧ (s.phase = .rxHdr ∨ s.phase = .rxBody) ∧ t.phase = .err ∧
      t.err = some .timeout) ∨
    ((∃ b, i = .rxb b) ∧ s.phase = .rxHdr ∧
      ((t.phase = .rxBody ∧ t.err = s.err) ∨
       (t.phase = .err ∧ (t.err = some .malformed ∨ t.err = some .invalid)))) ∨
    ((∃ b, i = .rxb b) ∧ s.phase = .rxBody ∧
      ((t.phase = .done ∧ t.err = s.err) ∨
       (t.phase = .err ∧ (t.err = some .invalid ∨ t.err = some .desync)))) ∨
    (i = .ack ∧ (s.phase = .done ∨ s.phase = .err) ∧ t.phase = .idle ∧ t.err = none)

/-- The invariant of R34 holds after reset. -/
def Obligations.ResetMeetsTheInvariant : Prop := StateInv State.reset

/-- `10_state.md` §5, R34, which the spec marks derived: every step, from every state that meets the
invariant, whatever the host, the link and the module do, keeps it. -/
def Obligations.EveryStepKeepsTheInvariant : Prop :=
  ∀ s t : State, StateInv s → step s = .next t → StateInv t

/-- `10_state.md` §5, R34 (h): "after at least one non-refused `SEND` since reset, `SEQ = (REQSEQ + 1)
mod 256`": an operation that starts a request establishes it and every operation but `RST` and a
stand-alone `NEXTSEQ` (log entry 8) keeps it. R34 (h) speaks of `SEND`; that a row of the wire starts a
request too is the model's choice (log entry 6). -/
def Obligations.SeqIsOneAheadOfReqSeq : Prop :=
  ∀ (i : Instr) (s t : State), exec i s = .next t → i ≠ .rst → i ≠ .nextSeq →
    (startsRequest i s = true → t.seq = t.reqSeq + 1) ∧
    (s.seq = s.reqSeq + 1 → t.seq = t.reqSeq + 1)

/-- `40_codec.md` §5, R109, which the spec marks derived: along any run without `RST` and without a
stand-alone `NEXTSEQ` (log entry 8), `SEQ` has advanced by the number of requests started, modulo
256: from reset the `k`-th request carries `k mod 256`. R109 counts non-refused `SEND`s; that a row of
the wire counts as a request too is the model's choice (log entry 6). -/
def Obligations.SeqCountsTheRequests : Prop :=
  ∀ (is : List Instr) (s t : State), runOps is s = .next t →
    (∀ i ∈ is, i ≠ .rst ∧ i ≠ .nextSeq) →
    t.seq.toNat = (s.seq.toNat + requestsStarted is s) % 256

/-- `20_memory.md` R52 and R53, U5, log entries 3 and 4: from a state of the invariant a step stops
with a fault only for a payload cell of `TXBUF` that holds no value. -/
def Obligations.OnlyUnwrittenPayloadFaults : Prop :=
  ∀ (s : State) (f : Fault), StateInv s → step s = .fault f →
    ∃ a, f = .txBufUnwritten a ∧ a < 0xEFFF ∧ memRead s.txBuf a = none

/-- `10_state.md` §5, R35 ("An invalid frame must never be treated as a response"): whatever the host
reads through `RDRX` at offset 6 or beyond, or through `CSR6` and `CSR7`, is 0 unless the captured
bytes are a valid frame with the request's sequence number. -/
def Obligations.NoInvalidFrameIsReadable : Prop :=
  ∀ s : State, StateInv s →
    (∃ a v, Returns (.rdrx a) s (.byte v) ∧ 6 ≤ a.toNat ∧ v ≠ 0) ∨
    (∃ n w, (n = 6 ∨ n = 7) ∧ Returns (.rdcsr n) s (.word w) ∧ w ≠ 0) →
    s.phase = .done ∧ ∃ g, captured s = some g ∧ FourConditions g ∧ g[3]? = some s.reqSeq

/-- `43_wire_commands.md` §1 (R160, which the spec marks derived): "no operation branches on them".
Two states that differ only in the request's type, command and payload go through the same registers
under any operation, also under two that differ in a request's type and command or in a payload byte
written; only the bytes handed over and what `RDCSR 4` shows may differ. And of a response the two
bytes at offsets 1 and 2 and every payload byte change nothing but the cell they are stored in,
whether taken from the head of `RXQ` or, which is the model's choice (log entry 11), through an empty
one. The rows of the wire are log entry 6's. -/
def Obligations.TypeCommandAndPayloadAreTransparent : Prop :=
  (∀ (s s' t t' : State) (i i' : Instr),
    (∃ y c m, s' = { s with txType := y, txCmd := c, txBuf := m }) →
    SameButTypeCommandPayload i i' → exec i s = .next t → exec i' s' = .next t' →
    ∃ y c m z r, t' = { t with txType := y, txCmd := c, txBuf := m, txQ := z, ret := r } ∧
      (i ≠ .rdcsr 4 → r = t.ret)) ∧
  (∀ (s : State) (b b' : Byte) (q : List Byte), StateInv s →
    (s.phase = .rxHdr ∧ (s.rxCnt = 1 ∨ s.rxCnt = 2) ∨
     s.phase = .rxBody ∧ ∃ n, rxLen s = .ok n ∧ s.rxCnt.toNat < n.toNat + 6) →
    (∃ t m, exec (.rxb b) { s with rxQ := b :: q } = .next t ∧
      exec (.rxb b') { s with rxQ := b' :: q } = .next { t with rxBuf := m } ∧
      t.phase = s.phase ∧ t.rxQ = q ∧
      ∀ a, a ≠ s.rxCnt.toNat → memRead m a = memRead t.rxBuf a) ∧
    (s.rxQ = [] →
      ∃ t m, exec (.rxb b) s = .next t ∧ exec (.rxb b') s = .next { t with rxBuf := m } ∧
        t.phase = s.phase ∧ ∀ a, a ≠ s.rxCnt.toNat → memRead m a = memRead t.rxBuf a))

/-! ## Codec functions -/

/-- `40_codec.md` §1 (R100): `NEXTSEQ` returns the value before the increment and steps the counter
modulo 256, as part of a `SEND`. How a call of it outside a `SEND` stands to the block is the model's
choice (log entry 8), said by `StepRunsTheDecodedOperation`. -/
def Obligations.NextSeqReturnsAndSteps : Prop :=
  ∀ s : State, ∃ q, exec .nextSeq s = .next { s with seq := q, ret := .byte s.seq } ∧
    q.toNat = (s.seq.toNat + 1) % 256

/-- R101: `ENCODE` builds the frame of a payload below 0xF000 bytes and fails `E_TOOBIG` otherwise. -/
def Obligations.EncodeBuildsTheFrame : Prop :=
  ∀ (s : State) (t c q : Byte) (p : List Byte),
    (p.length < 0xF000 → Returns (.encode t c q p) s (.encoded (frameOf t c q p))) ∧
    (0xF000 ≤ p.length → Returns (.encode t c q p) s (.failed .tooBig))

/-- `40_codec.md` §3 (R102): `PLEN` of a buffer with a header is bytes 4 and 5, big-endian. Of a
shorter buffer it "is undefined"; that the operation completes there too, with a value nothing
constrains, is the model's choice (log entry 9). -/
def Obligations.PlenReadsBytesFourAndFive : Prop :=
  ∀ (s : State) (b : List Byte), ∃ n, Returns (.pLen b) s (.length n) ∧
    (6 ≤ b.length → n.toNat = declared b)

/-- R103: `VALID` answers whether the conditions hold, on any byte sequence. -/
def Obligations.ValidIsTheFourConditions : Prop :=
  ∀ (s : State) (b : List Byte), ∃ v, Returns (.valid b) s (.truth v) ∧
    (v = true ↔ FourConditions b)

/-- R104: `DECODE` fails `E_MALFORMED` on a wrong first byte, else `E_INVALID` on a buffer that is not
valid (the empty one too), else gives the fields. -/
def Obligations.DecodeValidatesThenExtracts : Prop :=
  ∀ (s : State) (b : List Byte),
    (1 ≤ b.length → b[0]? ≠ some 0xFE → Returns (.decode b) s (.failed .malformed)) ∧
    (¬(1 ≤ b.length ∧ b[0]? ≠ some 0xFE) → ¬FourConditions b →
      Returns (.decode b) s (.failed .invalid)) ∧
    (FourConditions b → ∃ t c q n p, Returns (.decode b) s (.decoded ⟨t, c, q, n, p⟩) ∧
      b[1]? = some t ∧ b[2]? = some c ∧ b[3]? = some q ∧ n.toNat = declared b ∧
      p.length = declared b ∧ ∀ k < p.length, p[k]? = b[6 + k]?)

/-- `40_codec.md` §4 (R105): `CHKSEQ` compares the response's sequence byte with `REQSEQ` and nothing
else. That it answers on a header that passed no `VALID`, whatever its length, is the model's choice
(log entry 8). -/
def Obligations.ChkSeqComparesTheSequenceByte : Prop :=
  ∀ (s : State) (t c q : Byte) (n : Half), ∃ v, Returns (.chkSeq t c q n) s (.truth v) ∧
    (v = true ↔ q = s.reqSeq)

/-- R106: for every payload below 0xF000 bytes, `DECODE` of `ENCODE` reproduces every field, and the
encoded frame is valid. -/
def Obligations.CodecRoundTrip : Prop :=
  ∀ (t c q : Byte) (p : List Byte), p.length < 0xF000 →
    ∃ b n, encodeFrame t c q p = .ok b ∧ validFrame b = true ∧
      decodeFrame b = .ok ⟨t, c, q, n, p⟩ ∧ n.toNat = p.length

/-- R107: a buffer is accepted iff all conditions hold, and changing the start byte, the end byte, the
declared length or the actual length of a valid buffer makes it rejected. -/
def Obligations.AlteredFramesAreRejected : Prop :=
  ∀ b : List Byte, (validFrame b = true ↔ FourConditions b) ∧
    (validFrame b = true →
      (∀ v, v ≠ 0xFE → validFrame (b.set 0 v) = false) ∧
      (∀ v, v ≠ 0xFD → validFrame (b.set (6 + declared b) v) = false) ∧
      (∀ h l, ¬(b[4]? = some h ∧ b[5]? = some l) →
        validFrame ((b.set 4 h).set 5 l) = false) ∧
      (∀ k, k < b.length → validFrame (b.take k) = false) ∧
      (∀ x, x ≠ [] → validFrame (b ++ x) = false))

/-- `40_codec.md` §5, R110, which the spec marks derived: of the prefixes of a stream at most one is
a valid frame, and its length is `PLEN + 7`. -/
def Obligations.FramingIsPrefixDetermined : Prop :=
  ∀ (b : List Byte) (j k : Nat), j ≤ b.length → k ≤ b.length →
    validFrame (b.take j) = true → validFrame (b.take k) = true →
    j = k ∧ j = declared b + 7

/-! ## Encodings -/

/-- `30_encoding.md` §2 to §6 (R71, R72, R75, R82, R83): decoding the word of a well-formed operation
gives it back, whatever its operands. -/
def Obligations.DecodeOfEncodeIsTheOperation : Prop :=
  ∀ i : Instr, wellFormed i = true → decode (encode i) = .ok i

/-- `30_encoding.md` §6 (R82): "the row with the most mask bits set that matches is the one that names
the frame", for every header word; without the start marker no row matches and the word is
rejected. -/
def Obligations.HeaderNamedByTheLongestMask : Prop :=
  ∀ w : BitVec 48,
    ((∀ r ∈ headerRows, rowMatches r w = false) → decode (.fh w) = .error .noStartMarker) ∧
    (∀ r ∈ headerRows, rowMatches r w = true →
      ∃ i r', decode (.fh w) = .ok i ∧ wellFormed i = true ∧ r' ∈ headerRows ∧
        rowMatches r' w = true ∧ headerMnemonic i = some r'.mnemonic ∧ r.mask &&& r'.mask = r.mask)

/-- `30_encoding.md` §2 (R72; log entry 2): a command word with `op` 0, 5, 6 or 7 is rejected by name,
is never accepted and changes nothing; every other word is the operation of its `op`. -/
def Obligations.ReservedCommandWordsAreDropped : Prop :=
  ∀ (s : State) (w : BitVec 35),
    (w.toNat / 2 ^ 32 = 0 ∨ 5 ≤ w.toNat / 2 ^ 32 →
      decode (.cw w) = .error (.reservedOp (w.toNat / 2 ^ 32)) ∧ cmdAccept s w = false ∧
      runWord (.cw w) s = .next s) ∧
    (w.toNat / 2 ^ 32 = 1 → ∃ t c n, decode (.cw w) = .ok (.send t c n) ∧
      t.toNat = w.toNat / 2 ^ 24 % 256 ∧ c.toNat = w.toNat / 2 ^ 16 % 256 ∧
      n.toNat = w.toNat % 2 ^ 16) ∧
    (w.toNat / 2 ^ 32 = 2 → decode (.cw w) = .ok .ack) ∧
    (w.toNat / 2 ^ 32 = 3 → decode (.cw w) = .ok .tmo) ∧
    (w.toNat / 2 ^ 32 = 4 → decode (.cw w) = .ok .flt)

/-- `95_test_vectors.md` §V.2, §V.4, P1: words written out from the encodings are the operations they
stand for. -/
def Obligations.SampleWordsDecode : Prop :=
  decode (.cw 0x101220001) = .ok (.send 0x01 0x22 1) ∧
  decode (.cw 0x2DEADBEEF) = .ok .ack ∧
  decode (.wr 0x000010) = .ok (.wrtx 0 0x10) ∧
  decode (.rd 0x0007) = .ok (.rdrx 7) ∧
  decode (.cs 6) = .ok (.rdcsr 6) ∧
  decode (.rx 0xFE) = .ok (.rxb 0xFE) ∧
  decode (.rs 0) = .ok .rst ∧
  decode (.fn (.encode 0xFE0122070002 [0xAA, 0xBB])) = .ok (.encode 0x01 0x22 0x07 [0xAA, 0xBB]) ∧
  decode (.fn (.chkSeq 0xFE0122041234)) = .ok (.chkSeq 0x01 0x22 0x04 0x1234) ∧
  decode (.fn (.decode [0xFE, 0x01, 0x22, 0x07, 0x00, 0x02, 0xAA, 0xBB, 0xFD])) =
    .ok (.decode [0xFE, 0x01, 0x22, 0x07, 0x00, 0x02, 0xAA, 0xBB, 0xFD]) ∧
  decode (.fh 0xFE0122050001) = .ok (.setVolume 0x05 1) ∧
  decode (.fh 0xFE0833050000) = .ok (.familyGpio 0x33 0x05 0) ∧
  decode (.fh 0xFE0500050000) = .ok (.frame 0x05 0x00 0x05 0)

/-! ## Rows of the wire (the meaning is log entry 6's; the sequence field is log entry 7's) -/

/-- `30_encoding.md` §7 (R84, R85), `43_wire_commands.md` §2 and §3: every row of the wire, in `IDLE`
with its payload in `TXBUF`, completes and puts its request frame onto the wire, with the next
sequence number. That a row stands for this run is the model's choice (log entries 6 and 7). -/
def Obligations.WireRowsCarryTheirRequest : Prop := EveryWireRow CarriesRequest

/-- `41_host_ops.md` §2, `20_memory.md` §2 and log entry 6: where a row of the wire fails, is dropped,
or stops. -/
def Obligations.WireRowsFailLikeSend : Prop := EveryWireRow FailsLikeSend

/-! ## Steps and cycles (the schedule is the model's, log entry 1) -/

/-- `20_memory.md` §6 (R58) and log entry 1: the next event is taken from the schedule and takes
effect; a word that decodes runs as that operation; with no event nothing changes. A `NEXTSEQ` called
on its own gives its caller `SEQ` and leaves the block as it is (log entry 8). -/
def Obligations.StepRunsTheDecodedOperation : Prop :=
  ∀ s : State,
    (∀ w rest i, s.sched = .port w :: rest → decode w = .ok i → i ≠ .nextSeq →
      step s = exec i { s with sched := rest }) ∧
    (∀ w rest, s.sched = .port w :: rest → decode w = .ok .nextSeq →
      step s = .next { s with sched := rest, ret := .byte s.seq }) ∧
    (∀ b rest, s.sched = .arrive b :: rest →
      step s = .next { s with sched := rest, rxQ := s.rxQ ++ [b] }) ∧
    (∀ p rest, s.sched = .cycle p :: rest → step s = runCycle p { s with sched := rest }) ∧
    (s.sched = [] → step s = .next s)

/-- Log entries 1 and 10: a table word that decodes is the very next operation. -/
def Obligations.FetchWordRunsNext : Prop :=
  ∀ (s : State) (nbits w : Nat) (i : Instr), decodeTableWord nbits w = some i →
    step (s.withFetchWord nbits w) = exec i s

/-- R48: with reset a cycle is `RST` and nothing else; without it, the command, then `TXB` or `RXB` by
the phase after the command, then the payload write, each seeing the state before it; the read ports
show the state at the start of the cycle. -/
def Obligations.CycleOrder : Prop :=
  ∀ (s : State) (p : Pins),
    (p.rstN = false → runCycle p s = exec .rst s) ∧
    (∀ s1 s2, p.rstN = true →
      (if p.cmdStrobe then runWord (.cw p.cmdWord) s else .next s) = .next s1 →
      (if s1.phase = .tx ∧ p.txReady = true then exec .txb s1
        else if (s1.phase = .rxHdr ∨ s1.phase = .rxBody) ∧ p.rxValid = true then
          exec (.rxb p.rxData) s1
        else .next s1) = .next s2 →
      runCycle p s =
        (if p.txbufWe then exec (.wrtx p.txbufAddr p.txbufWdata) s2 else .next s2)) ∧
    (∀ v, (outputPins p s).rxbufRdata = .ok v → Returns (.rdrx p.rxbufAddr) s (.byte v)) ∧
    (∀ w, (outputPins p s).csrRdata = .ok w → Returns (.rdcsr p.csrAddr) s (.word w))

/-- `60_exceptions.md` §4 (R191): a `TMO` or `FLT` and a link byte in one cycle: the command is applied
first and the byte is not taken, so that the head of `RXQ` stays there. The cycle's own payload write
takes effect after it (R48). The statement also covers a byte offered while `RXQ` is empty, or one that
is not its head: that it is kept nowhere is the model's choice (log entry 11). -/
def Obligations.CommandBeatsTheByteOfItsCycle : Prop :=
  ∀ (s : State) (p : Pins) (e : ErrKind), p.rstN = true → p.cmdStrobe = true →
    (s.phase = .rxHdr ∨ s.phase = .rxBody) → p.rxValid = true →
    ((decode (.cw p.cmdWord) = .ok .tmo ∧ e = .timeout) ∨
     (decode (.cw p.cmdWord) = .ok .flt ∧ e = .io)) →
    runCycle p s = .next { s with
      phase := .err, err := some e,
      txBuf :=
        if p.txbufWe = true ∧ p.txbufAddr.toNat < 0xEFFF then
          memWrite s.txBuf p.txbufAddr.toNat p.txbufWdata
        else s.txBuf }

/-- R120 and U1, U3, log entry 2: the guarded step refuses a command word the block would drop, a row
of the wire outside `IDLE` (log entry 6) and a receive byte that is not the head of `RXQ` (log entry
11), and is the step otherwise, so what it allows the hardware does. -/
def Obligations.GuardedStepRefusesDroppedCommands : Prop :=
  ∀ s : State,
    (∀ t, guardedStep s = .next t → step s = .next t) ∧
    (s.sched = [] → guardedStep s = step s) ∧
    (∀ e rest, s.sched = e :: rest →
      (breach s e = none → guardedStep s = step s) ∧
      (∀ r, breach s e = some r → guardedStep s = .refused r) ∧
      (breach s e ≠ none ↔
        (∃ w, e = .port (.cw w) ∧ cmdAccept s w = false) ∨
        (∃ w, e = .port (.fh w) ∧ s.phase ≠ .idle) ∨
        (∃ d h q, e = .port (.rx d) ∧ (s.phase = .rxHdr ∨ s.phase = .rxBody) ∧
          s.rxQ = h :: q ∧ h ≠ d) ∨
        (∃ p, e = .cycle p ∧ p.rstN = true ∧ p.cmdStrobe = true ∧
          cmdAccept s p.cmdWord = false))) ∧
    (∀ w rest, s.sched = .port (.cw w) :: rest → cmdAccept s w = false →
      (guardedStep s = .refused .commandDropped ∨
       guardedStep s = .refused .reservedCommandWord) ∧
      step s = .next { s with sched := rest })

/-! ## The host agent -/

/-- `70_reset_and_hazards.md` §2 (R225, R227): with `n >= 1` attempts, `k < n` timeouts and then a
response make the handshake ready; `n` timeouts fail it with "no response from device"; `k < n`
timeouts and then another error fail it with that error; and the host sleeps after exactly the
timeouts of the attempts before the last. That `n = 0` attempts fail it with "no response from
device" too is the model's choice (log entry 15). -/
def Obligations.HandshakeForgivesOnlyTimeouts : Prop :=
  (∀ rest, handshake 0 rest = .noResponse) ∧
  ∀ (n k : Nat) (rest : List ExchangeResult), 1 ≤ n → k < n →
    (∀ f, handshake n (List.replicate k (.failed .timeout) ++ .response f :: rest) = .ready) ∧
    (∀ e, e ≠ .timeout →
      handshake n (List.replicate k (.failed .timeout) ++ .failed e :: rest) = .failed e) ∧
    handshake n (List.replicate n (.failed .timeout) ++ rest) = .noResponse ∧
    handshake n (List.replicate k (.failed .timeout)) = .attempting (k + 1) ∧
    (handshakeSleeps n (.attempting (k + 1)) (.failed .timeout) = true ↔ k + 1 < n)

/-- `70_reset_and_hazards.md` §2 (R225, R163) and `60_exceptions.md` §6: what the handshaking host
issues by the phase it sees, as operations. -/
def Obligations.HandshakeIssuesReadinessChecks : Prop :=
  ∀ (d k : Nat) (t : Timer) (s : State),
    (s.phase = .idle → ∃ w, handshakeCommand d (.attempting k) t s = some w ∧
      decode w = .ok (.send 0x00 0x00 0)) ∧
    (s.phase = .done ∨ s.phase = .err → ∀ st, ∃ w, handshakeCommand d st t s = some w ∧
      decode w = .ok .ack) ∧
    (s.phase = .tx → ∀ st, handshakeCommand d st t s = none) ∧
    (s.phase = .rxHdr ∨ s.phase = .rxBody → ∀ st,
      (handshakeCommand d st t s = none ↔ timerExpired d t = false) ∧
      ∀ w, handshakeCommand d st t s = some w → decode w = .ok .tmo)

/-- R195: the timer starts at the entry to a receiving phase, runs on whatever bytes arrive within the
phase, and the host issues `TMO` when the time since the entry exceeds the deadline; entering the
other receiving phase starts it afresh. -/
def Obligations.DeadlineIsOneBudgetPerPhase : Prop :=
  ∀ (p p' : Phase) (t0 : Timer) (ds : List Nat) (deadline : Nat),
    (p = .rxHdr ∨ p = .rxBody) → t0.phase ≠ some p → (p' = .rxHdr ∨ p' = .rxBody) → p' ≠ p →
    let t := ds.foldl (fun t d => timerObserve p (timerTick d t)) (timerObserve p t0)
    t.phase = some p ∧ t.elapsedMs = ds.sum ∧
    (timerCommand deadline t = some (encode .tmo) ↔ deadline < ds.sum) ∧
    (timerObserve p' t).elapsedMs = 0

/-- `60_exceptions.md` §2, §10 and §11 (R189, R203, R204; U4): the no-frame policy touches the timeout
alone, the caller's choice after a desynchronization that error alone, every other error is fatal;
and the classes of the codes. -/
def Obligations.PoliciesTouchOneErrorEach : Prop :=
  ∀ (noFrame : Config.NoFramePolicy) (desync : Config.DesyncPolicy) (e : ErrKind),
    (hostVerdict noFrame desync e = .noResponse ↔ noFrame = .noResponse ∧ e = .timeout) ∧
    (hostVerdict noFrame desync e = .resetState ↔ desync = .resetState ∧ e = .desync) ∧
    (hostVerdict noFrame desync e ≠ .noResponse → hostVerdict noFrame desync e ≠ .resetState →
      hostVerdict noFrame desync e = .fatal e) ∧
    (errClass e = .retryableTimeout ↔ e = .timeout) ∧ (errClass e = .ioFault ↔ e = .io) ∧
    (errClass e = .programmerError ↔ e = .tooBig) ∧
    (errClass e = .protocolViolation ↔ e = .malformed ∨ e = .invalid ∨ e = .desync)

/-! ## Whole exchanges, and the sequence counter over every step -/

/-- `10_state.md` §2 and §5 (R21, R34 (h)), `70_reset_and_hazards.md` §1: `SEQ` is "written only by
`SEND` [...] and by reset", over every step. An event that starts a request (by `SEND`, by a row of
the wire, log entry 6, or by the command of a cycle) leaves the request's number in `REQSEQ` and the
next one in `SEQ`; a reset leaves 0 in both; any other event leaves both as they were; and so no step
ends the relation of R34 (h). -/
def Obligations.SeqIsWrittenOnlyByRequestsAndReset : Prop :=
  ∀ s t : State, step s = .next t →
    (∀ e rest, s.sched = e :: rest →
      (eventStarts e s = true →
        s.phase = .idle ∧ t.reqSeq = s.seq ∧ t.seq.toNat = (s.seq.toNat + 1) % 256) ∧
      (eventResets e = true → t.seq = 0 ∧ t.reqSeq = 0) ∧
      (eventStarts e s = false → eventResets e = false → t.seq = s.seq ∧ t.reqSeq = s.reqSeq)) ∧
    (SeqFollowsReqSeq s → SeqFollowsReqSeq t)

/-- `30_encoding.md` §7 (R85), `60_exceptions.md` §6, `70_reset_and_hazards.md` §4: an exchange
issued in `IDLE`, with `RXQ` empty, ends in its result and, by the final `ACK`, in `IDLE`: the
response if a whole frame with its sequence number answers, `E_DESYNC` if one with another number
does, `E_TIMEOUT` if the host's deadline expires before the last byte, `E_IO` if the link fails while
the request is sent, `E_TOOBIG` with nothing sent if the payload is too long (of 65536 bytes or more
by the model's choice, log entry 25); and with no answer at all it has no result and waits. -/
def Obligations.ExchangeEndsInItsResult : Prop :=
  ∀ (s : State) (r : Request), StateInv s → s.phase = .idle → s.rxQ = [] →
    (r.payload.length < 0xF000 →
      (∀ (t c q : Byte) (p : List Byte), p.length < 0xF000 →
        (∃ u, exchange r (takesRequest r.payload.length ++ answeredBy (frameOf t c q p)) s =
            .next ⟨some (if q = s.seq then .response ⟨t, c, q, BitVec.ofNat 16 p.length, p⟩
              else .failed .desync), u⟩ ∧
          u.phase = .idle ∧ u.err = none ∧ u.seq = s.seq + 1 ∧ u.reqSeq = s.seq ∧ u.rxQ = [] ∧
          u.txQ = s.txQ ++ frameOf r.type r.cmd s.seq r.payload) ∧
        ∀ k < p.length + 7,
          ∃ u, exchange r (takesRequest r.payload.length ++
              answeredBy ((frameOf t c s.seq p).take k) ++ [.timeout]) s =
            .next ⟨some (.failed .timeout), u⟩ ∧
          u.phase = .idle ∧ u.seq = s.seq + 1 ∧ u.reqSeq = s.seq ∧ u.rxQ = []) ∧
      (∀ k < r.payload.length + 7,
        ∃ u, exchange r (List.replicate k .ready ++ [.fault]) s = .next ⟨some (.failed .io), u⟩ ∧
          u.phase = .idle ∧ u.seq = s.seq + 1 ∧
          u.txQ = s.txQ ++ (frameOf r.type r.cmd s.seq r.payload).take k) ∧
      ∃ u, exchange r (takesRequest r.payload.length) s = .next ⟨none, u⟩ ∧ u.phase = .rxHdr) ∧
    (0xF000 ≤ r.payload.length →
      ∀ es, ∃ u, exchange r es s = .next ⟨some (.failed .tooBig), u⟩ ∧ u.phase = .idle ∧
        u.seq = s.seq ∧ u.reqSeq = s.reqSeq ∧ u.txQ = s.txQ)
end

