-- ==== Sys2Proof/Laws/Memory.lean ====
section
/-! SUPPORT. The laws of the byte memories: read after write, the canonical form, slices. -/

namespace Sys2Proof.Machine

/-! ## Read after write -/

theorem memRead_below {m : Memory} (hm : m.wf) {a : Nat} (h : ∀ c ∈ m, a < c.1) :
    memRead m a = none := by
  induction m with
  | nil => rfl
  | cons c m ih =>
    have hc := h c (by simp)
    rw [memRead, if_neg (by omega)]
    exact ih (List.Pairwise.of_cons hm) fun d hd => h d (by simp [hd])

/-- Reading the written address gives the written byte. -/
theorem memRead_memWrite_same (m : Memory) (a : Nat) (v : Byte) :
    memRead (memWrite m a v) a = some v := by
  induction m with
  | nil => simp [memWrite, memRead]
  | cons c m ih =>
    unfold memWrite
    split
    · simp [memRead]
    · split
      · simp [memRead]
      · rw [memRead, if_neg (by omega), ih]

/-- Reading another address gives what it gave before. -/
theorem memRead_memWrite_other {m : Memory} (a : Nat) (v : Byte) {b : Nat} (h : b ≠ a) :
    memRead (memWrite m a v) b = memRead m b := by
  induction m with
  | nil => simp [memWrite, memRead]; omega
  | cons c m ih =>
    unfold memWrite
    split
    · rw [memRead, if_neg (by simpa using h.symm)]
    · split
      · next h2 =>
        subst h2
        simp only [memRead]
        rw [if_neg (by omega), if_neg (by omega)]
      · simp only [memRead]
        split
        · rfl
        · exact ih

/-! ## The canonical form -/

theorem memWrite_keys {m : Memory} {a : Nat} {v : Byte} {c : Host.Cell}
    (h : c ∈ memWrite m a v) : c.1 = a ∨ c ∈ m := by
  induction m with
  | nil => simp [memWrite] at h; simp [h]
  | cons d m ih =>
    unfold memWrite at h
    split at h
    · simp at h ⊢; rcases h with h | h | h <;> simp [h]
    · split at h
      · simp at h ⊢; rcases h with h | h <;> simp [h]
      · simp at h ⊢
        rcases h with h | h
        · simp [h]
        · rcases ih h with h | h <;> simp [h]

/-- A write keeps the addresses strictly rising. -/
theorem memWrite_wf {m : Memory} (hm : m.wf) (a : Nat) (v : Byte) : (memWrite m a v).wf := by
  induction m with
  | nil => simp [memWrite, Memory.wf]
  | cons c m ih =>
    have hc := List.pairwise_cons.mp hm
    unfold memWrite
    split
    · next h =>
      refine List.pairwise_cons.mpr ⟨fun d hd => ?_, hm⟩
      rcases List.mem_cons.mp hd with rfl | hd
      · exact h
      · exact h.trans (hc.1 d hd)
    · split
      · next h =>
        subst h
        exact List.pairwise_cons.mpr ⟨hc.1, hc.2⟩
      · refine List.pairwise_cons.mpr ⟨fun d hd => ?_, ih hc.2⟩
        rcases memWrite_keys hd with h | h
        · rw [h]; omega
        · exact hc.1 d h

/-- A write inside the space keeps the memory inside it and in its form. -/
theorem memWrite_inSpace {m : Memory} {depth : Nat} (hm : m.inSpace depth) {a : Nat} (v : Byte)
    (ha : a < depth) : (memWrite m a v).inSpace depth := by
  refine ⟨memWrite_wf hm.1 a v, fun c hc => ?_⟩
  rcases memWrite_keys hc with h | h
  · omega
  · exact hm.2 c h

/-- Equal reads make equal memories: the form is canonical. -/
theorem memory_ext {m m' : Memory} (hm : m.wf) (hm' : m'.wf)
    (h : ∀ a, memRead m a = memRead m' a) : m = m' := by
  induction m generalizing m' with
  | nil =>
    cases m' with
    | nil => rfl
    | cons c' m' => have := h c'.1; simp [memRead] at this
  | cons c m ih =>
    cases m' with
    | nil => have := h c.1; simp [memRead] at this
    | cons c' m' =>
      have hc := List.pairwise_cons.mp hm
      have hc' := List.pairwise_cons.mp hm'
      have hkey : c.1 = c'.1 := by
        have h1 := h c.1
        have h2 := h c'.1
        simp only [memRead, if_true] at h1 h2
        by_contra hne
        rcases Nat.lt_or_gt_of_ne hne with hlt | hlt
        · rw [if_neg (by omega),
            memRead_below hc'.2 fun d hd => hlt.trans (hc'.1 d hd)] at h1
          exact absurd h1 (by simp)
        · rw [if_neg (by omega),
            memRead_below hc.2 fun d hd => hlt.trans (hc.1 d hd)] at h2
          exact absurd h2 (by simp)
      have hval : c.2 = c'.2 := by
        have h1 := h c.1
        simp only [memRead, if_true, hkey] at h1
        exact Option.some.inj h1
      have htail : m = m' := by
        refine ih hc.2 hc'.2 fun a => ?_
        have h1 := h a
        simp only [memRead] at h1
        by_cases ha : c.1 = a
        · rw [memRead_below hc.2 fun d hd => ha ▸ hc.1 d hd,
            memRead_below hc'.2 fun d hd => ha ▸ hkey ▸ hc'.1 d hd]
        · rwa [if_neg ha, if_neg (hkey ▸ ha)] at h1
      rw [htail, Prod.ext hkey hval]

/-! ## Slices -/

/-- A slice has its length, and each of its bytes is the cell's. -/
theorem memSlice_spec {m : Memory} {base len : Nat} {b : List Byte}
    (h : memSlice m base len = some b) :
    b.length = len ∧ ∀ i < len, b[i]? = memRead m (base + i) := by
  induction len generalizing base b with
  | zero => simp [memSlice] at h; simp [← h]
  | succ len ih =>
    unfold memSlice at h
    split at h
    · next v vs hv hvs =>
      obtain ⟨hl, hb⟩ := ih hvs
      cases h
      refine ⟨by simp [hl], fun i hi => ?_⟩
      cases i with
      | zero => simp [hv]
      | succ i => simpa [Nat.add_assoc, Nat.add_comm 1] using hb i (by omega)
    · cases h

/-- A slice exists exactly when its cells hold values. -/
theorem memSlice_isSome {m : Memory} {base len : Nat} :
    (memSlice m base len).isSome ↔ ∀ i < len, (memRead m (base + i)).isSome := by
  induction len generalizing base with
  | zero => simp [memSlice]
  | succ len ih =>
    have ih := @ih (base + 1)
    unfold memSlice
    constructor
    · intro h i hi
      split at h
      · next v vs hv hvs =>
        cases i with
        | zero => simp [hv]
        | succ i =>
          have := (ih.mp (by simp [hvs])) i (by omega)
          rwa [show base + (i + 1) = base + 1 + i by omega]
      · cases h
    · intro h
      have h0 := h 0 (by omega)
      have hs : (memSlice m (base + 1) len).isSome := ih.mpr fun i hi => by
        have := h (i + 1) (by omega)
        rwa [show base + (i + 1) = base + 1 + i by omega] at this
      obtain ⟨v, hv⟩ := Option.isSome_iff_exists.mp h0
      obtain ⟨vs, hvs⟩ := Option.isSome_iff_exists.mp hs
      simp [show memRead m base = some v from hv, hvs]

/-- Reads that agree give equal slices. -/
theorem memSlice_congr {m m' : Memory} {base len : Nat}
    (h : ∀ i < len, memRead m (base + i) = memRead m' (base + i)) :
    memSlice m base len = memSlice m' base len := by
  induction len generalizing base with
  | zero => rfl
  | succ len ih =>
    have h0 := h 0 (by omega)
    simp only [Nat.add_zero] at h0
    have := @ih (base + 1) fun i hi => by
      have := h (i + 1) (by omega)
      rwa [show base + (i + 1) = base + 1 + i by omega] at this
    simp only [memSlice, h0, this]

/-- The slice with one more byte. -/
theorem memSlice_succ {m : Memory} {base len : Nat} {b : List Byte} {v : Byte}
    (h : memSlice m base len = some b) (hv : memRead m (base + len) = some v) :
    memSlice m base (len + 1) = some (b ++ [v]) := by
  induction len generalizing base b with
  | zero =>
    simp only [memSlice, Option.some.injEq, Nat.add_zero] at h hv
    simp [memSlice, hv, ← h]
  | succ len ih =>
    unfold memSlice at h
    split at h
    · next w ws hw hws =>
      cases h
      have := @ih (base + 1) ws hws (by rwa [show base + 1 + len = base + (len + 1) by omega])
      rw [memSlice, hw, this]
      rfl
    · cases h

end Sys2Proof.Machine
end

