-- ==== Sys2Proof/Laws/State.lean ====
section
/-! SUPPORT. What each named update of the state leaves in each field. -/

namespace Sys2Proof.Machine

/-! ## `writeTx` -/

@[simp] theorem writeTx_phase (a : Nat) (v : Byte) (s : State) : (writeTx a v s).phase = s.phase := rfl
@[simp] theorem writeTx_err (a : Nat) (v : Byte) (s : State) : (writeTx a v s).err = s.err := rfl
@[simp] theorem writeTx_seq (a : Nat) (v : Byte) (s : State) : (writeTx a v s).seq = s.seq := rfl
@[simp] theorem writeTx_reqSeq (a : Nat) (v : Byte) (s : State) : (writeTx a v s).reqSeq = s.reqSeq := rfl
@[simp] theorem writeTx_txType (a : Nat) (v : Byte) (s : State) : (writeTx a v s).txType = s.txType := rfl
@[simp] theorem writeTx_txCmd (a : Nat) (v : Byte) (s : State) : (writeTx a v s).txCmd = s.txCmd := rfl
@[simp] theorem writeTx_txLen (a : Nat) (v : Byte) (s : State) : (writeTx a v s).txLen = s.txLen := rfl
@[simp] theorem writeTx_txIdx (a : Nat) (v : Byte) (s : State) : (writeTx a v s).txIdx = s.txIdx := rfl
@[simp] theorem writeTx_rxCnt (a : Nat) (v : Byte) (s : State) : (writeTx a v s).rxCnt = s.rxCnt := rfl
@[simp] theorem writeTx_txBuf (a : Nat) (v : Byte) (s : State) : (writeTx a v s).txBuf = memWrite s.txBuf a v := rfl
@[simp] theorem writeTx_rxBuf (a : Nat) (v : Byte) (s : State) : (writeTx a v s).rxBuf = s.rxBuf := rfl
@[simp] theorem writeTx_rxQ (a : Nat) (v : Byte) (s : State) : (writeTx a v s).rxQ = s.rxQ := rfl
@[simp] theorem writeTx_txQ (a : Nat) (v : Byte) (s : State) : (writeTx a v s).txQ = s.txQ := rfl
@[simp] theorem writeTx_ret (a : Nat) (v : Byte) (s : State) : (writeTx a v s).ret = s.ret := rfl
@[simp] theorem writeTx_sched (a : Nat) (v : Byte) (s : State) : (writeTx a v s).sched = s.sched := rfl

/-! ## `captureByte` -/

@[simp] theorem captureByte_phase (b : Byte) (s : State) : (captureByte b s).phase = s.phase := rfl
@[simp] theorem captureByte_err (b : Byte) (s : State) : (captureByte b s).err = s.err := rfl
@[simp] theorem captureByte_seq (b : Byte) (s : State) : (captureByte b s).seq = s.seq := rfl
@[simp] theorem captureByte_reqSeq (b : Byte) (s : State) : (captureByte b s).reqSeq = s.reqSeq := rfl
@[simp] theorem captureByte_txType (b : Byte) (s : State) : (captureByte b s).txType = s.txType := rfl
@[simp] theorem captureByte_txCmd (b : Byte) (s : State) : (captureByte b s).txCmd = s.txCmd := rfl
@[simp] theorem captureByte_txLen (b : Byte) (s : State) : (captureByte b s).txLen = s.txLen := rfl
@[simp] theorem captureByte_txIdx (b : Byte) (s : State) : (captureByte b s).txIdx = s.txIdx := rfl
@[simp] theorem captureByte_rxCnt (b : Byte) (s : State) : (captureByte b s).rxCnt = s.rxCnt + 1 := rfl
@[simp] theorem captureByte_txBuf (b : Byte) (s : State) : (captureByte b s).txBuf = s.txBuf := rfl
@[simp] theorem captureByte_rxBuf (b : Byte) (s : State) : (captureByte b s).rxBuf = memWrite s.rxBuf s.rxCnt.toNat b := rfl
@[simp] theorem captureByte_rxQ (b : Byte) (s : State) : (captureByte b s).rxQ = s.rxQ := rfl
@[simp] theorem captureByte_txQ (b : Byte) (s : State) : (captureByte b s).txQ = s.txQ := rfl
@[simp] theorem captureByte_ret (b : Byte) (s : State) : (captureByte b s).ret = s.ret := rfl
@[simp] theorem captureByte_sched (b : Byte) (s : State) : (captureByte b s).sched = s.sched := rfl

/-! ## `nextSeqNumber` and `advanceSeq` -/

/-- Reducing modulo 256 is what a byte does by itself (R111 (a)). -/
@[simp] theorem nextSeqNumber_eq (q : Byte) : nextSeqNumber q = q + 1 := by
  apply BitVec.eq_of_toNat_eq
  simp [nextSeqNumber]

@[simp] theorem advanceSeq_phase (s : State) : (advanceSeq s).phase = s.phase := rfl
@[simp] theorem advanceSeq_err (s : State) : (advanceSeq s).err = s.err := rfl
@[simp] theorem advanceSeq_seq (s : State) : (advanceSeq s).seq = s.seq + 1 :=
  nextSeqNumber_eq s.seq
@[simp] theorem advanceSeq_reqSeq (s : State) : (advanceSeq s).reqSeq = s.reqSeq := rfl
@[simp] theorem advanceSeq_txType (s : State) : (advanceSeq s).txType = s.txType := rfl
@[simp] theorem advanceSeq_txCmd (s : State) : (advanceSeq s).txCmd = s.txCmd := rfl
@[simp] theorem advanceSeq_txLen (s : State) : (advanceSeq s).txLen = s.txLen := rfl
@[simp] theorem advanceSeq_txIdx (s : State) : (advanceSeq s).txIdx = s.txIdx := rfl
@[simp] theorem advanceSeq_rxCnt (s : State) : (advanceSeq s).rxCnt = s.rxCnt := rfl
@[simp] theorem advanceSeq_txBuf (s : State) : (advanceSeq s).txBuf = s.txBuf := rfl
@[simp] theorem advanceSeq_rxBuf (s : State) : (advanceSeq s).rxBuf = s.rxBuf := rfl
@[simp] theorem advanceSeq_rxQ (s : State) : (advanceSeq s).rxQ = s.rxQ := rfl
@[simp] theorem advanceSeq_txQ (s : State) : (advanceSeq s).txQ = s.txQ := rfl
@[simp] theorem advanceSeq_ret (s : State) : (advanceSeq s).ret = s.ret := rfl
@[simp] theorem advanceSeq_sched (s : State) : (advanceSeq s).sched = s.sched := rfl

/-! ## `raiseErr` -/

@[simp] theorem raiseErr_phase (e : ErrKind) (s : State) : (raiseErr e s).phase = .err := rfl
@[simp] theorem raiseErr_err (e : ErrKind) (s : State) : (raiseErr e s).err = some e := rfl
@[simp] theorem raiseErr_seq (e : ErrKind) (s : State) : (raiseErr e s).seq = s.seq := rfl
@[simp] theorem raiseErr_reqSeq (e : ErrKind) (s : State) : (raiseErr e s).reqSeq = s.reqSeq := rfl
@[simp] theorem raiseErr_txType (e : ErrKind) (s : State) : (raiseErr e s).txType = s.txType := rfl
@[simp] theorem raiseErr_txCmd (e : ErrKind) (s : State) : (raiseErr e s).txCmd = s.txCmd := rfl
@[simp] theorem raiseErr_txLen (e : ErrKind) (s : State) : (raiseErr e s).txLen = s.txLen := rfl
@[simp] theorem raiseErr_txIdx (e : ErrKind) (s : State) : (raiseErr e s).txIdx = s.txIdx := rfl
@[simp] theorem raiseErr_rxCnt (e : ErrKind) (s : State) : (raiseErr e s).rxCnt = s.rxCnt := rfl
@[simp] theorem raiseErr_txBuf (e : ErrKind) (s : State) : (raiseErr e s).txBuf = s.txBuf := rfl
@[simp] theorem raiseErr_rxBuf (e : ErrKind) (s : State) : (raiseErr e s).rxBuf = s.rxBuf := rfl
@[simp] theorem raiseErr_rxQ (e : ErrKind) (s : State) : (raiseErr e s).rxQ = s.rxQ := rfl
@[simp] theorem raiseErr_txQ (e : ErrKind) (s : State) : (raiseErr e s).txQ = s.txQ := rfl
@[simp] theorem raiseErr_ret (e : ErrKind) (s : State) : (raiseErr e s).ret = s.ret := rfl
@[simp] theorem raiseErr_sched (e : ErrKind) (s : State) : (raiseErr e s).sched = s.sched := rfl

/-! ## `returnToIdle` -/

@[simp] theorem returnToIdle_phase (s : State) : (returnToIdle s).phase = .idle := rfl
@[simp] theorem returnToIdle_err (s : State) : (returnToIdle s).err = none := rfl
@[simp] theorem returnToIdle_seq (s : State) : (returnToIdle s).seq = s.seq := rfl
@[simp] theorem returnToIdle_reqSeq (s : State) : (returnToIdle s).reqSeq = s.reqSeq := rfl
@[simp] theorem returnToIdle_txType (s : State) : (returnToIdle s).txType = s.txType := rfl
@[simp] theorem returnToIdle_txCmd (s : State) : (returnToIdle s).txCmd = s.txCmd := rfl
@[simp] theorem returnToIdle_txLen (s : State) : (returnToIdle s).txLen = s.txLen := rfl
@[simp] theorem returnToIdle_txIdx (s : State) : (returnToIdle s).txIdx = 0 := rfl
@[simp] theorem returnToIdle_rxCnt (s : State) : (returnToIdle s).rxCnt = 0 := rfl
@[simp] theorem returnToIdle_txBuf (s : State) : (returnToIdle s).txBuf = s.txBuf := rfl
@[simp] theorem returnToIdle_rxBuf (s : State) : (returnToIdle s).rxBuf = s.rxBuf := rfl
@[simp] theorem returnToIdle_rxQ (s : State) : (returnToIdle s).rxQ = s.rxQ := rfl
@[simp] theorem returnToIdle_txQ (s : State) : (returnToIdle s).txQ = s.txQ := rfl
@[simp] theorem returnToIdle_ret (s : State) : (returnToIdle s).ret = s.ret := rfl
@[simp] theorem returnToIdle_sched (s : State) : (returnToIdle s).sched = s.sched := rfl

/-! ## `returning` -/

@[simp] theorem returning_phase (r : Ret) (s : State) : (returning r s).phase = s.phase := rfl
@[simp] theorem returning_err (r : Ret) (s : State) : (returning r s).err = s.err := rfl
@[simp] theorem returning_seq (r : Ret) (s : State) : (returning r s).seq = s.seq := rfl
@[simp] theorem returning_reqSeq (r : Ret) (s : State) : (returning r s).reqSeq = s.reqSeq := rfl
@[simp] theorem returning_txType (r : Ret) (s : State) : (returning r s).txType = s.txType := rfl
@[simp] theorem returning_txCmd (r : Ret) (s : State) : (returning r s).txCmd = s.txCmd := rfl
@[simp] theorem returning_txLen (r : Ret) (s : State) : (returning r s).txLen = s.txLen := rfl
@[simp] theorem returning_txIdx (r : Ret) (s : State) : (returning r s).txIdx = s.txIdx := rfl
@[simp] theorem returning_rxCnt (r : Ret) (s : State) : (returning r s).rxCnt = s.rxCnt := rfl
@[simp] theorem returning_txBuf (r : Ret) (s : State) : (returning r s).txBuf = s.txBuf := rfl
@[simp] theorem returning_rxBuf (r : Ret) (s : State) : (returning r s).rxBuf = s.rxBuf := rfl
@[simp] theorem returning_rxQ (r : Ret) (s : State) : (returning r s).rxQ = s.rxQ := rfl
@[simp] theorem returning_txQ (r : Ret) (s : State) : (returning r s).txQ = s.txQ := rfl
@[simp] theorem returning_ret (r : Ret) (s : State) : (returning r s).ret = r := rfl
@[simp] theorem returning_sched (r : Ret) (s : State) : (returning r s).sched = s.sched := rfl

/-! ## `arriveByte` -/

@[simp] theorem arriveByte_phase (b : Byte) (s : State) : (arriveByte b s).phase = s.phase := rfl
@[simp] theorem arriveByte_err (b : Byte) (s : State) : (arriveByte b s).err = s.err := rfl
@[simp] theorem arriveByte_seq (b : Byte) (s : State) : (arriveByte b s).seq = s.seq := rfl
@[simp] theorem arriveByte_reqSeq (b : Byte) (s : State) : (arriveByte b s).reqSeq = s.reqSeq := rfl
@[simp] theorem arriveByte_txType (b : Byte) (s : State) : (arriveByte b s).txType = s.txType := rfl
@[simp] theorem arriveByte_txCmd (b : Byte) (s : State) : (arriveByte b s).txCmd = s.txCmd := rfl
@[simp] theorem arriveByte_txLen (b : Byte) (s : State) : (arriveByte b s).txLen = s.txLen := rfl
@[simp] theorem arriveByte_txIdx (b : Byte) (s : State) : (arriveByte b s).txIdx = s.txIdx := rfl
@[simp] theorem arriveByte_rxCnt (b : Byte) (s : State) : (arriveByte b s).rxCnt = s.rxCnt := rfl
@[simp] theorem arriveByte_txBuf (b : Byte) (s : State) : (arriveByte b s).txBuf = s.txBuf := rfl
@[simp] theorem arriveByte_rxBuf (b : Byte) (s : State) : (arriveByte b s).rxBuf = s.rxBuf := rfl
@[simp] theorem arriveByte_rxQ (b : Byte) (s : State) : (arriveByte b s).rxQ = s.rxQ ++ [b] := rfl
@[simp] theorem arriveByte_txQ (b : Byte) (s : State) : (arriveByte b s).txQ = s.txQ := rfl
@[simp] theorem arriveByte_ret (b : Byte) (s : State) : (arriveByte b s).ret = s.ret := rfl
@[simp] theorem arriveByte_sched (b : Byte) (s : State) : (arriveByte b s).sched = s.sched := rfl

/-! ## `andThen` and `withValue` -/

@[simp] theorem andThen_next (s : State) (k : State → Result) : andThen (.next s) k = k s := rfl
@[simp] theorem andThen_fault (f : Fault) (k : State → Result) :
    andThen (.fault f) k = .fault f := rfl
@[simp] theorem andThen_refused (r : Refusal) (k : State → Result) :
    andThen (.refused r) k = .refused r := rfl
@[simp] theorem withValue_ok {α : Type} (v : α) (k : α → Result) :
    withValue (.ok v) k = k v := rfl
@[simp] theorem withValue_error {α : Type} (f : Fault) (k : α → Result) :
    withValue (.error f) k = .fault f := rfl

/-- A sequence answers a next state exactly when both halves do. -/
theorem andThen_eq_next {o : Result} {k : State → Result} {t : State} :
    andThen o k = .next t ↔ ∃ s, o = .next s ∧ k s = .next t := by
  cases o <;> simp [andThen]

theorem withValue_eq_next {α : Type} {r : Except Fault α} {k : α → Result} {t : State} :
    withValue r k = .next t ↔ ∃ v, r = .ok v ∧ k v = .next t := by
  cases r <;> simp [withValue]

end Sys2Proof.Machine
end

