-- ==== Sys2Proof/Laws/Ops.lean ====
section
/-! SUPPORT. What each shared operation can do, said once: later proofs cite these and do not
unfold the operations. -/

namespace Sys2Proof.Machine

/-! ## Byte order -/

theorem be16_toNat (h l : Byte) : (be16 h l).toNat = h.toNat * 256 + l.toNat := by
  have := h.isLt; have := l.isLt
  simp [be16]; omega

theorem be16_hi8_lo8 (n : Half) : be16 (hi8 n) (lo8 n) = n := by
  apply BitVec.eq_of_toNat_eq
  have := n.isLt
  simp [be16_toNat, hi8, lo8]; omega

theorem hi8_be16 (h l : Byte) : hi8 (be16 h l) = h := by
  apply BitVec.eq_of_toNat_eq
  have := h.isLt; have := l.isLt
  simp [be16_toNat, hi8]; omega

theorem lo8_be16 (h l : Byte) : lo8 (be16 h l) = l := by
  apply BitVec.eq_of_toNat_eq
  have := h.isLt; have := l.isLt
  simp [be16_toNat, lo8]; omega

/-! ## Numbers on a 16-bit port -/

theorem halfOf_eq {n : Nat} (h : n < 65536) : halfOf n = BitVec.ofNat 16 n := by
  simp [halfOf, show min n 65535 = n by omega]

theorem halfOf_toNat (n : Nat) : (halfOf n).toNat = min n 65535 := by
  simp [halfOf]

/-! ## Reads -/

theorem readTx_eq_ok {s : State} {a : Nat} {v : Byte} :
    readTx s a = .ok v ↔ memRead s.txBuf a = some v := by
  unfold readTx; split <;> simp_all

theorem readRx_eq_ok {s : State} {a : Nat} {v : Byte} :
    readRx s a = .ok v ↔ memRead s.rxBuf a = some v := by
  unfold readRx; split <;> simp_all

theorem readRx_eq_error {s : State} {a : Nat} {f : Fault} :
    readRx s a = .error f ↔ memRead s.rxBuf a = none ∧ f = .rxBufUnwritten a := by
  unfold readRx
  cases memRead s.rxBuf a <;> simp [eq_comm]

theorem rxLen_eq_ok {s : State} {n : Half} :
    rxLen s = .ok n ↔
      ∃ h l, memRead s.rxBuf 4 = some h ∧ memRead s.rxBuf 5 = some l ∧ n = be16 h l := by
  unfold rxLen readRx
  cases memRead s.rxBuf 4 <;> cases memRead s.rxBuf 5 <;> simp [eq_comm]

/-- `RXLEN` depends on two cells of `RXBUF` only. -/
theorem rxLen_congr {s t : State} (h4 : memRead s.rxBuf 4 = memRead t.rxBuf 4)
    (h5 : memRead s.rxBuf 5 = memRead t.rxBuf 5) : rxLen s = rxLen t := by
  simp [rxLen, readRx, h4, h5]

/-! ## The invariant's bounds as numerals -/

theorem stateInv_tx {s : State} (h : StateInv s) (hp : s.phase = .tx) :
    s.txLen.toNat < 61440 ∧ s.txIdx.toNat ≤ s.txLen.toNat + 6 ∧ s.rxCnt = 0 := h.tx hp

theorem stateInv_rxHdr {s : State} (h : StateInv s) (hp : s.phase = .rxHdr) :
    s.rxCnt.toNat < 6 ∧ s.txIdx = 0 := h.rxHdr hp

theorem stateInv_rxBody {s : State} (h : StateInv s) (hp : s.phase = .rxBody) :
    memRead s.rxBuf 0 = some 0xFE ∧ ∃ n, rxLen s = .ok n ∧ n.toNat < 61440 ∧
      6 ≤ s.rxCnt.toNat ∧ s.rxCnt.toNat ≤ n.toNat + 6 := h.rxBody hp

/-- The invariant does not look at the link's receive queue. -/
theorem stateInv_rxQ {s : State} (h : StateInv s) (q : List Byte) : StateInv { s with rxQ := q } :=
  ⟨h.errIff, h.idle, h.tx, h.rxHdr, h.rxBody, h.done, h.oneIndex, h.txIdxRest, h.capturedHeld,
    h.txBufForm, h.rxBufForm⟩

/-- Nor at the schedule. -/
theorem stateInv_sched {s : State} (h : StateInv s) (r : List Event) :
    StateInv { s with sched := r } :=
  ⟨h.errIff, h.idle, h.tx, h.rxHdr, h.rxBody, h.done, h.oneIndex, h.txIdxRest, h.capturedHeld,
    h.txBufForm, h.rxBufForm⟩

/-! ## Acceptance (R125) -/

@[simp] theorem accepts_send (p : Phase) : accepts opSend p = decide (p = .idle) := by
  cases p <;> decide
@[simp] theorem accepts_ack (p : Phase) : accepts opAck p = decide (p = .done ∨ p = .err) := by
  cases p <;> decide
@[simp] theorem accepts_tmo (p : Phase) :
    accepts opTmo p = decide (p = .rxHdr ∨ p = .rxBody) := by
  cases p <;> decide
@[simp] theorem accepts_flt (p : Phase) :
    accepts opFlt p = decide (p = .tx ∨ p = .rxHdr ∨ p = .rxBody) := by
  cases p <;> decide

/-! ## `SEND` (R121) -/

theorem sendRequest_accepted {s : State} (h : s.phase = .idle) (t c : Byte) {n : Half}
    (hn : n.toNat < 0xF000) :
    sendRequest t c n s =
      { s with txType := t, txCmd := c, txLen := n, txIdx := 0, rxCnt := 0, reqSeq := s.seq,
               seq := s.seq + 1, err := none, phase := .tx } := by
  simp [sendRequest, h, advanceSeq, Nat.not_le.mpr hn]

theorem sendRequest_tooBig {s : State} (h : s.phase = .idle) (t c : Byte) {n : Half}
    (hn : 0xF000 ≤ n.toNat) :
    sendRequest t c n s =
      { s with txType := t, txCmd := c, txLen := n, txIdx := 0, rxCnt := 0, err := some .tooBig,
               phase := .err } := by
  simp [sendRequest, h, raiseErr, hn]

theorem sendRequest_dropped {s : State} (h : s.phase ≠ .idle) (t c : Byte) (n : Half) :
    sendRequest t c n s = s := by
  simp [sendRequest, h]

/-! ## `TXB` (R141) -/

/-- What one `TXB` can do: nothing outside `TX`; in `TX` one byte goes to the link, and it was the
last one or not. -/
theorem handOver_cases {s t : State} (h : handOver s = .next t) :
    (s.phase ≠ .tx ∧ t = s) ∨
    (s.phase = .tx ∧ ∃ b, txByte s = .ok b ∧
      ((s.txIdx.toNat = 6 + s.txLen.toNat ∧
          t = { s with txQ := s.txQ ++ [b], txIdx := 0, phase := .rxHdr }) ∨
       (s.txIdx.toNat ≠ 6 + s.txLen.toNat ∧
          t = { s with txQ := s.txQ ++ [b], txIdx := s.txIdx + 1 }))) := by
  unfold handOver at h
  split at h
  · next hp =>
    obtain ⟨b, hb, ht⟩ := withValue_eq_next.mp h
    refine .inr ⟨by simpa [txValid] using hp, b, hb, ?_⟩
    have ht := Host.Outcome.next.inj ht
    unfold advanceTx at ht
    split at ht
    · next hl => exact .inl ⟨by simpa using hl, ht.symm⟩
    · next hl => exact .inr ⟨by simpa using hl, ht.symm⟩
  · next hp =>
    exact .inl ⟨by simpa [txValid] using hp, by simpa using h.symm⟩

/-- A property every `TXB` keeps, a run of `TXB` keeps. -/
theorem handOverRun_keeps {P : State → Prop} (hP : ∀ s t, P s → handOver s = .next t → P t)
    (k : Nat) {s t : State} (hs : P s) (h : handOverRun k s = .next t) : P t := by
  induction k generalizing s with
  | zero => cases h; exact hs
  | succ k ih =>
    obtain ⟨u, hu, ht⟩ := andThen_eq_next.mp h
    exact ih (hP s u hs hu) ht

/-- A property `SEND` and `TXB` keep, a carried request keeps. -/
theorem carryRequest_keeps {P : State → Prop} {c d : Byte} {n : Half}
    (hS : ∀ s, P s → P (sendRequest c d n s))
    (hT : ∀ s t, P s → handOver s = .next t → P t)
    {s t : State} (hs : P s) (h : carryRequest c d n s = .next t) : P t := by
  unfold carryRequest at h
  split at h
  · split at h
    · exact handOverRun_keeps hT _ (hS s hs) h
    · cases h; exact hS s hs
  · cases h; exact hs

/-! ## `RXB` (R143) -/

/-- What the checks of the sixth byte can do (R192 (1), (2)). -/
theorem checkHeader_cases {s t : State} (h : checkHeader s = .next t) :
    ∃ m, memRead s.rxBuf 0 = some m ∧
      ((m ≠ 0xFE ∧ t = raiseErr .malformed s) ∨
       (m = 0xFE ∧ ∃ n, rxLen s = .ok n ∧
         ((0xF000 ≤ n.toNat ∧ t = raiseErr .invalid s) ∨
          (n.toNat < 0xF000 ∧ t = { s with phase := .rxBody })))) := by
  unfold checkHeader at h
  obtain ⟨m, hm, h⟩ := withValue_eq_next.mp h
  refine ⟨m, readRx_eq_ok.mp hm, ?_⟩
  split at h
  · next hne => exact .inl ⟨by simpa using hne, by simpa using h.symm⟩
  · next he =>
    obtain ⟨n, hn, h⟩ := withValue_eq_next.mp h
    refine .inr ⟨by simpa using he, n, hn, ?_⟩
    split at h
    · next hb => exact .inl ⟨by simpa using hb, by simpa using h.symm⟩
    · next hb => exact .inr ⟨by simpa using hb, by simpa using h.symm⟩

/-- What the checks of a body byte can do (R192 (3), (4)). -/
theorem checkBody_cases {b : Byte} {s t : State} (h : checkBody b s = .next t) :
    ∃ n, rxLen s = .ok n ∧
      ((s.rxCnt.toNat ≠ n.toNat + 7 ∧ t = s) ∨
       (s.rxCnt.toNat = n.toNat + 7 ∧ b ≠ 0xFD ∧ t = raiseErr .invalid s) ∨
       (s.rxCnt.toNat = n.toNat + 7 ∧ b = 0xFD ∧ ∃ q, memRead s.rxBuf 3 = some q ∧
         ((q ≠ s.reqSeq ∧ t = raiseErr .desync s) ∨
          (q = s.reqSeq ∧ t = { s with phase := .done })))) := by
  unfold checkBody at h
  obtain ⟨n, hn, h⟩ := withValue_eq_next.mp h
  refine ⟨n, hn, ?_⟩
  split at h
  · next hl =>
    have hl : s.rxCnt.toNat = n.toNat + 7 := by simpa using hl
    split at h
    · next hb => exact .inr (.inl ⟨hl, by simpa using hb, by simpa using h.symm⟩)
    · next hb =>
      obtain ⟨q, hq, h⟩ := withValue_eq_next.mp h
      refine .inr (.inr ⟨hl, by simpa using hb, q, readRx_eq_ok.mp hq, ?_⟩)
      split at h
      · next he => exact .inr ⟨by simpa [chkSeq] using he, by simpa using h.symm⟩
      · next he => exact .inl ⟨by simpa [chkSeq] using he, by simpa using h.symm⟩
  · next hl => exact .inl ⟨by simpa using hl, by simpa using h.symm⟩

/-- What taking a response byte can do: in `RXHDR` wait or check the header, in `RXBODY` check the
body; the byte has been captured in an existing cell. -/
theorem receiveByte_cases {b : Byte} {s t : State} (h : receiveByte b s = .next t) :
    s.rxCnt.toNat < 0xF006 ∧
      ((s.phase = .rxHdr ∧ s.rxCnt.toNat + 1 ≠ 6 ∧ t = captureByte b s) ∨
       (s.phase = .rxHdr ∧ s.rxCnt.toNat + 1 = 6 ∧ checkHeader (captureByte b s) = .next t) ∨
       (s.phase ≠ .rxHdr ∧ checkBody b (captureByte b s) = .next t)) := by
  unfold receiveByte at h
  split at h
  · next hc =>
    have hc : s.rxCnt.toNat < 0xF006 := by simpa using hc
    have hk : (captureByte b s).rxCnt.toNat = s.rxCnt.toNat + 1 := by
      simp; omega
    refine ⟨hc, ?_⟩
    rw [hk] at h
    split at h
    · next hp =>
      split at h
      · next h6 => exact .inr (.inl ⟨hp, by simpa using h6, h⟩)
      · next h6 => exact .inl ⟨hp, by simpa using h6, by simpa using h.symm⟩
    · next hp => exact .inr (.inr ⟨hp, h⟩)
  · cases h

/-- What `RXB` can do: nothing outside the receiving phases; in them the byte leaves `RXQ` and is
taken. -/
theorem execRxb_cases {b : Byte} {s t : State} (h : execRxb b s = .next t) :
    (s.phase ≠ .rxHdr ∧ s.phase ≠ .rxBody ∧ t = s) ∨
    ((s.phase = .rxHdr ∨ s.phase = .rxBody) ∧ (s.rxQ = [] ∨ s.rxQ.head? = some b) ∧
      receiveByte b { s with rxQ := s.rxQ.tail } = .next t) := by
  unfold execRxb at h
  split at h
  · next hp =>
    refine .inr ⟨by simpa [rxReady] using hp, ?_⟩
    split at h
    · next hq =>
      refine ⟨.inl hq, ?_⟩
      have : { s with rxQ := s.rxQ.tail } = s := by rw [hq]; cases s; simp_all
      rwa [this]
    · next hd q hq =>
      split at h
      · next he =>
        refine ⟨.inr (by simp [hq, he]), ?_⟩
        simpa [hq] using h
      · cases h
  · next hp =>
    exact .inl ⟨by simp_all [rxReady], by simp_all [rxReady], by simpa using h.symm⟩

/-! ## Words, cycles, steps -/

/-- No word but a codec function's stands for a codec function. -/
theorem decode_port {w : PortWord} (hw : ∀ c, w ≠ .fn c) {i : Instr} (h : decode w = .ok i) :
    ∀ c, encode i ≠ .fn c := by
  cases w with
  | fn c => exact absurd rfl (hw c)
  | cw w =>
    simp only [decode, decodeCommandWord] at h
    repeat' split at h
    all_goals first | (cases h; done) | (cases h; simp [encode])
  | fh w =>
    simp only [decode, decodeHeaderWord, nameHeader] at h
    repeat' split at h
    all_goals first | (cases h; done) | (cases h; simp [encode])
  | rs l =>
    simp only [decode] at h
    split at h <;> cases h
    simp [encode]
  | _ => cases h; simp [encode]

/-- So `NEXTSEQ` stands on no port of the block: there it is part of `SEND` only (R100). -/
theorem decode_ne_nextSeq {w : PortWord} (hw : ∀ c, w ≠ .fn c) {i : Instr}
    (h : decode w = .ok i) : i ≠ .nextSeq := by
  rintro rfl
  exact decode_port hw h (.nextSeq 0) rfl

/-- What a codec function called on its own can do: its value goes to the caller, the state stays. -/
theorem callBeside_cases {i : Instr} {s t : State} (h : callBeside i s = .next t) :
    ∃ u, exec i s = .next u ∧ t = returning u.ret s := by
  obtain ⟨u, hu, ht⟩ := andThen_eq_next.mp h
  exact ⟨u, hu, (Host.Outcome.next.inj ht).symm⟩

/-- On every port but the codec's an operation takes effect itself. -/
theorem runOperation_port {w : PortWord} (hw : ∀ c, w ≠ .fn c) (i : Instr) (s : State) :
    runOperation w i s = exec i s := by
  cases w with
  | fn c => exact absurd rfl (hw c)
  | _ => rfl

/-- What an operation does on its port: its own effect, on the codec's port its value alone. -/
theorem runOperation_cases {w : PortWord} {i : Instr} {s t : State}
    (h : runOperation w i s = .next t) :
    ((∀ c, w ≠ .fn c) ∧ exec i s = .next t) ∨
    ((∃ c, w = .fn c) ∧ ∃ u, exec i s = .next u ∧ t = returning u.ret s) := by
  cases w with
  | fn c => exact .inr ⟨⟨c, rfl⟩, callBeside_cases h⟩
  | cw w => exact .inl ⟨by simp, h⟩
  | wr w => exact .inl ⟨by simp, h⟩
  | rd w => exact .inl ⟨by simp, h⟩
  | cs w => exact .inl ⟨by simp, h⟩
  | tx d => exact .inl ⟨by simp, h⟩
  | rx d => exact .inl ⟨by simp, h⟩
  | rs l => exact .inl ⟨by simp, h⟩
  | fh w => exact .inl ⟨by simp, h⟩

/-- A codec call is evaluated beside the block, whatever its operands. -/
theorem runWord_fn (c : CodecCall) (s : State) :
    runWord (.fn c) s = callBeside (decodeCodecCall c) s := rfl

/-- An operation on its port faults only where the operation itself does. -/
theorem runOperation_fault {w : PortWord} {i : Instr} {s : State} {f : Fault}
    (h : runOperation w i s = .fault f) : exec i s = .fault f := by
  cases w with
  | fn c =>
    simp only [runOperation, callBeside] at h
    cases hi : exec i s with
    | next t => rw [hi] at h; cases h
    | fault g => rw [hi] at h; exact h
    | refused r => rw [hi] at h; cases h
  | _ => exact h

/-- What a port word can do: an operation other than `NEXTSEQ` takes effect, or at most a value goes
to the caller. -/
theorem runWord_cases {w : PortWord} {s t : State} (h : runWord w s = .next t) :
    (∃ i, decode w = .ok i ∧ i ≠ .nextSeq ∧ exec i s = .next t) ∨
    ∃ r, t = { s with ret := r } := by
  unfold runWord at h
  split at h
  · next i hi =>
    rcases runOperation_cases h with ⟨hw, h⟩ | ⟨-, u, -, rfl⟩
    · exact .inl ⟨i, hi, decode_ne_nextSeq hw hi, h⟩
    · exact .inr ⟨u.ret, rfl⟩
  · exact .inr ⟨s.ret, by simpa using h.symm⟩
  · exact .inr ⟨s.ret, by simpa using h.symm⟩
  · cases h

/-- A property every operation but a `NEXTSEQ` outside `SEND` keeps, a clock cycle keeps. -/
theorem runCycle_keeps {P : State → Prop}
    (hP : ∀ i s t, i ≠ .nextSeq → P s → exec i s = .next t → P t)
    (hret : ∀ s r, P s → P { s with ret := r })
    {p : Pins} {s t : State} (hs : P s) (h : runCycle p s = .next t) : P t := by
  have hword : ∀ {w s t}, P s → runWord w s = .next t → P t := fun hs h => by
    rcases runWord_cases h with ⟨i, -, hi, h⟩ | ⟨r, rfl⟩
    · exact hP i _ _ hi hs h
    · exact hret _ _ hs
  unfold runCycle at h
  split at h
  · obtain ⟨u, hu, h⟩ := andThen_eq_next.mp h
    obtain ⟨v, hv, h⟩ := andThen_eq_next.mp h
    have hPu : P u := by
      unfold cycleCommand at hu
      split at hu
      · exact hword hs hu
      · cases hu; exact hs
    have hPv : P v := by
      unfold cycleLink at hv
      split at hv
      · split at hv
        · exact hP _ _ _ (by simp) hPu hv
        · cases hv; exact hPu
      · split at hv
        · split at hv
          · exact hP _ _ _ (by simp) hPu hv
          · cases hv; exact hPu
        · cases hv; exact hPu
    unfold cycleWrite at h
    split at h
    · exact hP _ _ _ (by simp) hPv h
    · cases h; exact hPv
  · exact hP _ _ _ (by simp) hs h

/-- A property that every operation but a `NEXTSEQ` outside `SEND` keeps, that does not look at the
schedule or the value last returned, and that an arriving byte keeps, every step keeps. -/
theorem step_keeps {P : State → Prop}
    (hP : ∀ i s t, i ≠ .nextSeq → P s → exec i s = .next t → P t)
    (hret : ∀ s r, P s → P { s with ret := r })
    (hsched : ∀ s r, P s → P { s with sched := r })
    (harrive : ∀ s b, P s → P (arriveByte b s))
    {s t : State} (hs : P s) (h : step s = .next t) : P t := by
  unfold step at h
  split at h
  · cases h; exact hs
  · next e rest _ =>
    have hs' := hsched s rest hs
    unfold runEvent at h
    split at h
    · rcases runWord_cases h with ⟨i, -, hi, h⟩ | ⟨r, rfl⟩
      · exact hP i _ _ hi hs' h
      · exact hret _ _ hs'
    · cases h; exact harrive _ _ hs'
    · exact runCycle_keeps hP hret hs' h

end Sys2Proof.Machine
end

