-- ==== Sys2Proof/Laws/PerInstr.lean ====
section
/-! SUPPORT. Statements about every operation as syntax, one lemma per constructor. -/

namespace Sys2Proof.Laws

open Sys2Proof Sys2Proof.Machine

/-! ## The fields of an encoded word -/

theorem commandWord_fields (op : Nat) (hop : op < 8) (t c : Byte) (n : Half) :
    field (commandWord op t c n) 34 32 = op ∧ field (commandWord op t c n) 31 24 = t.toNat ∧
    field (commandWord op t c n) 23 16 = c.toNat ∧ field (commandWord op t c n) 15 0 = n.toNat := by
  have := t.isLt; have := c.isLt; have := n.isLt
  simp only [field, commandWord, BitVec.toNat_ofNat]
  omega

theorem headerWord_fields (t c s : Byte) (n : Half) :
    field (headerWord t c s n) 47 40 = 0xFE ∧ field (headerWord t c s n) 39 32 = t.toNat ∧
    field (headerWord t c s n) 31 24 = c.toNat ∧ field (headerWord t c s n) 23 16 = s.toNat ∧
    field (headerWord t c s n) 15 0 = n.toNat := by
  have := t.isLt; have := c.isLt; have := s.isLt; have := n.isLt
  simp only [field, headerWord, BitVec.toNat_ofNat, Config.startMarker, BitVec.reduceToNat]
  omega

/-- Masking `a` bits from bit `b` up is that field in its place. -/
theorem and_mask (x a b : Nat) : x &&& ((2 ^ a - 1) <<< b) = (x / 2 ^ b % 2 ^ a) <<< b := by
  refine Nat.eq_of_testBit_eq fun i => ?_
  simp only [Nat.testBit_and, Nat.testBit_shiftLeft, Nat.testBit_two_pow_sub_one,
    Nat.testBit_mod_two_pow, Nat.testBit_div_two_pow]
  by_cases hb : b ≤ i
  · have : i - b + b = i := by omega
    simp [hb, this, Bool.and_comm]
  · simp [hb]

/-- A row whose mask is every bit from `b` up matches the words whose bits from `b` up are the
pattern's. -/
theorem rowMatches_iff (m : String) (pat b : Nat) (hb : b ≤ 48) (w : BitVec 48) :
    rowMatches ⟨m, pat <<< b, (2 ^ (48 - b) - 1) <<< b⟩ w = true ↔ w.toNat / 2 ^ b = pat := by
  have hw := w.isLt
  have : w.toNat / 2 ^ b < 2 ^ (48 - b) := by
    rw [Nat.div_lt_iff_lt_mul (by positivity), ← Nat.pow_add]
    simpa [show 48 - b + b = 48 by omega] using hw
  simp only [rowMatches, and_mask, Nat.mod_eq_of_lt this, decide_eq_true_eq]
  constructor
  · intro h
    simpa [Nat.shiftLeft_eq] using h
  · rintro rfl
    rfl

/-! The three kinds of row, by how many upper bits they fix. -/

theorem rowMatches_frameRow (m : String) (w : BitVec 48) :
    rowMatches (frameRow m) w = true ↔ w.toNat / 2 ^ 40 = Config.startMarker.toNat :=
  rowMatches_iff m _ 40 (by decide) w

theorem rowMatches_familyRow (m : String) (t : Byte) (w : BitVec 48) :
    rowMatches (familyRow m t) w = true ↔
      w.toNat / 2 ^ 32 = Config.startMarker.toNat * 2 ^ 8 + t.toNat :=
  rowMatches_iff m _ 32 (by decide) w

theorem rowMatches_commandRow (m : String) (t c : Byte) (w : BitVec 48) :
    rowMatches (commandRow m t c) w = true ↔
      w.toNat / 2 ^ 24 = Config.startMarker.toNat * 2 ^ 16 + t.toNat * 2 ^ 8 + c.toNat :=
  rowMatches_iff m _ 24 (by decide) w

/-- A header word decodes to the row that names its header. -/
theorem decode_headerWord (t c s : Byte) (n : Half) :
    Sys2Proof.decode (.fh (headerWord t c s n)) = .ok (nameHeader t c s n) := by
  obtain ⟨h1, h2, h3, h4, h5⟩ := headerWord_fields t c s n
  simp [Sys2Proof.decode, decodeHeaderWord, h1, h2, h3, h4, h5]

/-- A command word's operation code selects the operation. -/
theorem decode_commandWord (op : Nat) (hop : op < 8) (t c : Byte) (n : Half) :
    Sys2Proof.decode (.cw (commandWord op t c n)) =
      if op = opSend then .ok (.send t c n)
      else if op = opAck then .ok .ack
      else if op = opTmo then .ok .tmo
      else if op = opFlt then .ok .flt
      else .error (.reservedOp op) := by
  obtain ⟨h1, h2, h3, h4⟩ := commandWord_fields op hop t c n
  simp [Sys2Proof.decode, decodeCommandWord, h1, h2, h3, h4]

/-! ## `RoundTrip`: decoding an encoded well-formed operation gives it back -/

/-- No bit of the operation's operands is lost between encoder and decoder. -/
def RoundTrip.Statement (i : Instr) : Prop :=
  wellFormed i = true → Sys2Proof.decode (Sys2Proof.encode i) = .ok i

theorem RoundTrip.send (t c : Byte) (n : Half) : RoundTrip.Statement (.send t c n) := fun _ =>
  decode_commandWord opSend (by decide) t c n

theorem RoundTrip.ack : RoundTrip.Statement (.ack) := fun _ => by decide

theorem RoundTrip.tmo : RoundTrip.Statement (.tmo) := fun _ => by decide

theorem RoundTrip.flt : RoundTrip.Statement (.flt) := fun _ => by decide

theorem RoundTrip.wrtx (a : Half) (v : Byte) : RoundTrip.Statement (.wrtx a v) := fun _ => by
  have := a.isLt; have := v.isLt
  have h1 : field (BitVec.ofNat 24 (a.toNat * 2 ^ 8 + v.toNat)) 23 8 = a.toNat := by
    simp only [field, BitVec.toNat_ofNat]; omega
  have h2 : field (BitVec.ofNat 24 (a.toNat * 2 ^ 8 + v.toNat)) 7 0 = v.toNat := by
    simp only [field, BitVec.toNat_ofNat]; omega
  simp only [Sys2Proof.encode, Sys2Proof.decode, h1, h2, BitVec.ofNat_toNat, BitVec.setWidth_eq]

theorem RoundTrip.rdrx (a : Half) : RoundTrip.Statement (.rdrx a) := fun _ => rfl

theorem RoundTrip.rdcsr (n : BitVec 3) : RoundTrip.Statement (.rdcsr n) := fun _ => rfl

theorem RoundTrip.txb : RoundTrip.Statement (.txb) := fun _ => rfl

theorem RoundTrip.rxb (d : Byte) : RoundTrip.Statement (.rxb d) := fun _ => rfl

theorem RoundTrip.rst : RoundTrip.Statement (.rst) := fun _ => rfl

theorem RoundTrip.nextSeq : RoundTrip.Statement (.nextSeq) := fun _ => rfl

theorem RoundTrip.encode (t c q : Byte) (p : List Byte) : RoundTrip.Statement (.encode t c q p) := fun _ => by
  obtain ⟨-, h2, h3, h4, -⟩ := headerWord_fields t c q (BitVec.ofNat 16 p.length)
  simp [Sys2Proof.encode, Sys2Proof.decode, decodeCodecCall, h2, h3, h4]

theorem RoundTrip.pLen (b : List Byte) : RoundTrip.Statement (.pLen b) := fun _ => rfl

theorem RoundTrip.valid (b : List Byte) : RoundTrip.Statement (.valid b) := fun _ => rfl

theorem RoundTrip.decode (b : List Byte) : RoundTrip.Statement (.decode b) := fun _ => rfl

theorem RoundTrip.chkSeq (t c q : Byte) (n : Half) : RoundTrip.Statement (.chkSeq t c q n) := fun _ => by
  obtain ⟨-, h2, h3, h4, h5⟩ := headerWord_fields t c q n
  simp [Sys2Proof.encode, Sys2Proof.decode, decodeCodecCall, h2, h3, h4, h5]

theorem RoundTrip.frame (t c q : Byte) (n : Half) : RoundTrip.Statement (.frame t c q n) := fun h => by
  simp [wellFormed, listedType] at h
  simp [Sys2Proof.encode, decode_headerWord, nameHeader, h]

theorem RoundTrip.familyNotification (c q : Byte) (n : Half) : RoundTrip.Statement (.familyNotification c q n) := fun _ => by
  simp [Sys2Proof.encode, decode_headerWord, nameHeader]

theorem RoundTrip.familyGpio (c q : Byte) (n : Half) : RoundTrip.Statement (.familyGpio c q n) := fun _ => by
  simp [Sys2Proof.encode, decode_headerWord, nameHeader]

theorem RoundTrip.familySystem (c q : Byte) (n : Half) : RoundTrip.Statement (.familySystem c q n) := fun h => by
  simp [wellFormed, listedCommand] at h
  simp [Sys2Proof.encode, decode_headerWord, nameHeader, h]

theorem RoundTrip.familyStream (c q : Byte) (n : Half) : RoundTrip.Statement (.familyStream c q n) := fun h => by
  simp [wellFormed, listedCommand] at h
  simp [Sys2Proof.encode, decode_headerWord, nameHeader, h]

theorem RoundTrip.familyClock (c q : Byte) (n : Half) : RoundTrip.Statement (.familyClock c q n) := fun h => by
  simp [wellFormed, listedCommand] at h
  simp [Sys2Proof.encode, decode_headerWord, nameHeader, h]

theorem RoundTrip.familyMetadata (c q : Byte) (n : Half) : RoundTrip.Statement (.familyMetadata c q n) := fun h => by
  simp [wellFormed, listedCommand] at h
  simp [Sys2Proof.encode, decode_headerWord, nameHeader, h]

theorem RoundTrip.readinessCheck (q : Byte) (n : Half) : RoundTrip.Statement (.readinessCheck q n) := fun _ => by
  simp [Sys2Proof.encode, decode_headerWord, nameHeader]

theorem RoundTrip.play (q : Byte) (n : Half) : RoundTrip.Statement (.play q n) := fun _ => by
  simp [Sys2Proof.encode, decode_headerWord, nameHeader]

theorem RoundTrip.getPlayStatus (q : Byte) (n : Half) : RoundTrip.Statement (.getPlayStatus q n) := fun _ => by
  simp [Sys2Proof.encode, decode_headerWord, nameHeader]

theorem RoundTrip.setStereoMode (q : Byte) (n : Half) : RoundTrip.Statement (.setStereoMode q n) := fun _ => by
  simp [Sys2Proof.encode, decode_headerWord, nameHeader]

theorem RoundTrip.setVolume (q : Byte) (n : Half) : RoundTrip.Statement (.setVolume q n) := fun _ => by
  simp [Sys2Proof.encode, decode_headerWord, nameHeader]

theorem RoundTrip.getClock (q : Byte) (n : Half) : RoundTrip.Statement (.getClock q n) := fun _ => by
  simp [Sys2Proof.encode, decode_headerWord, nameHeader]

theorem RoundTrip.getAppData (q : Byte) (n : Half) : RoundTrip.Statement (.getAppData q n) := fun _ => by
  simp [Sys2Proof.encode, decode_headerWord, nameHeader]

/-! ## An operation as an event on its port -/

/-- The event of a well-formed operation on a port other than the codec's runs that operation. -/
theorem runEvent_opEvent {i : Instr} (h : RoundTrip.Statement i) (hw : wellFormed i = true)
    (hf : ∀ c, Sys2Proof.encode i ≠ .fn c) (s : State) :
    runEvent (opEvent i) s = exec i s := by
  simp only [runEvent, opEvent, runWord, h hw, runOperation_port hf]

@[simp] theorem runEvent_send (t c : Byte) (n : Half) (s : State) :
    runEvent (opEvent (.send t c n)) s = exec (.send t c n) s :=
  runEvent_opEvent (RoundTrip.send t c n) rfl (by simp [Sys2Proof.encode]) s

@[simp] theorem runEvent_wrtx (a : Half) (v : Byte) (s : State) :
    runEvent (opEvent (.wrtx a v)) s = exec (.wrtx a v) s :=
  runEvent_opEvent (RoundTrip.wrtx a v) rfl (by simp [Sys2Proof.encode]) s

@[simp] theorem runEvent_txb (s : State) : runEvent (opEvent .txb) s = exec .txb s :=
  runEvent_opEvent RoundTrip.txb rfl (by simp [Sys2Proof.encode]) s

end Sys2Proof.Laws
end

