-- ==== Sys2Proof/Tests/Slice0.lean ====
section
/-! SUPPORT. The model's own tests: ill-formed terms, words written out from `30_encoding.md`, one
operation at a time on small states with the results of `95_test_vectors.md` (V1 to V41, P1 to P7),
and, for every statement with hypotheses, a state and operands that meet them. -/

namespace Sys2Proof.Tests

open Sys2Proof Sys2Proof.Machine Sys2Proof.Statements

/-! ## Well-formedness: each check refuses an ill-formed term -/

theorem test_wf_frame_of_listed_family : wellFormed (.frame 0x08 0x33 0 0) = false := by decide
theorem test_wf_frame_of_unlisted_family : wellFormed (.frame 0x05 0x00 0 0) = true := by decide
theorem test_wf_family_of_listed_command :
    wellFormed (.familySystem 0x00 0 0) = false ∧ wellFormed (.familyStream 0x22 0 0) = false ∧
    wellFormed (.familyStream 0x20 0 0) = false ∧ wellFormed (.familyStream 0x10 0 0) = false ∧
    wellFormed (.familyStream 0x00 0 0) = false ∧ wellFormed (.familyClock 0x01 0 0) = false ∧
    wellFormed (.familyMetadata 0x00 0 0) = false := by decide
theorem test_wf_family_of_unlisted_command :
    wellFormed (.familySystem 0x01 0 0) = true ∧ wellFormed (.familyStream 0x23 0 0) = true ∧
    wellFormed (.familyClock 0x00 0 0) = true ∧ wellFormed (.familyMetadata 0x22 0 0) = true ∧
    wellFormed (.familyNotification 0x00 0 0) = true ∧
    wellFormed (.familyGpio 0x00 0 0) = true := by decide

/-! ## Decoding: words written out from the encodings (R71 to R75, R82, R83) -/

/-- `op` 001, type 0x01, command 0x22, length 1 (V.2). -/
theorem test_decode_send :
    decode (.cw 0b00100000001001000100000000000000001#35) = .ok (.send 0x01 0x22 1) ∧
    decode (.cw 0x1FFFFEFFF) = .ok (.send 0xFF 0xFF 0xEFFF) ∧
    decode (.cw 0x10300F000) = .ok (.send 0x03 0x00 0xF000) := by decide
/-- `op` 010, 011, 100; bits 31..0 are ignored (V.2). -/
theorem test_decode_ack_tmo_flt :
    decode (.cw 0x200000000) = .ok .ack ∧ decode (.cw 0x2DEADBEEF) = .ok .ack ∧
    decode (.cw 0x300000000) = .ok .tmo ∧ decode (.cw 0x400000000) = .ok .flt := by decide
theorem test_decode_reserved :
    decode (.cw 0x000000000) = .error (.reservedOp 0) ∧
    decode (.cw 0x500000000) = .error (.reservedOp 5) ∧
    decode (.cw 0x600000000) = .error (.reservedOp 6) ∧
    decode (.cw 0x7FFFFFFFF) = .error (.reservedOp 7) := by decide
theorem test_decode_buffers :
    decode (.wr 0xEFFE5A) = .ok (.wrtx 0xEFFE 0x5A) ∧ decode (.rd 0x1234) = .ok (.rdrx 0x1234) ∧
    decode (.cs 0b110) = .ok (.rdcsr 6) := by decide
theorem test_decode_link :
    decode (.tx 0x7F) = .ok .txb ∧ decode (.rx 0xFE) = .ok (.rxb 0xFE) ∧
    decode (.rs 0) = .ok .rst ∧ decode (.rs 1) = .error .resetNotAsserted := by decide
/-- The header fields stand where R82 puts them; produced bits are ignored. -/
theorem test_decode_codec :
    decode (.fn (.nextSeq 0x2A)) = .ok .nextSeq ∧
    decode (.fn (.encode
      0b111111100000000100100010000001110000000000000010#48 [0xAA, 0xBB])) =
      .ok (.encode 0x01 0x22 0x07 [0xAA, 0xBB]) ∧
    decode (.fn (.pLen [0xFE, 0x01, 0x22, 0x00, 0xEF, 0xFF])) =
      .ok (.pLen [0xFE, 0x01, 0x22, 0x00, 0xEF, 0xFF]) ∧
    decode (.fn (.valid [])) = .ok (.valid []) ∧ decode (.fn (.decode [0x00])) = .ok (.decode [0x00]) ∧
    decode (.fn (.chkSeq 0xFE0122041234)) = .ok (.chkSeq 0x01 0x22 0x04 0x1234) := by decide
/-- R101 gives `ENCODE` of any longer payload `E_TOOBIG` too, whatever its length field says. -/
theorem test_step_encode_payload_beyond_the_length_field (h : BitVec 48) (p : List Byte)
    (hp : 65536 ≤ p.length) :
    step { State.reset with sched := [.port (.fn (.encode h p))] } =
      .next { State.reset with ret := .failed .tooBig } := by
  have he : encodeFrame (BitVec.ofNat 8 (field h 39 32)) (BitVec.ofNat 8 (field h 31 24))
      (BitVec.ofNat 8 (field h 23 16)) p = .error .tooBig :=
    if_pos (Nat.le_trans (by decide) hp)
  change callBeside (.encode _ _ _ p) State.reset = _
  simp only [callBeside, exec, execEncode, he]
  rfl
/-- V37, V37a, V37b and one unlisted command per family (R161). -/
theorem test_decode_families :
    decode (.fh 0xFE0500AB0102) = .ok (.frame 0x05 0x00 0xAB 0x0102) ∧
    decode (.fh 0xFE0001050000) = .ok (.familySystem 0x01 0x05 0) ∧
    decode (.fh 0xFE0121050000) = .ok (.familyStream 0x21 0x05 0) ∧
    decode (.fh 0xFE0200050000) = .ok (.familyClock 0x00 0x05 0) ∧
    decode (.fh 0xFE0301050000) = .ok (.familyMetadata 0x01 0x05 0) ∧
    decode (.fh 0xFE0700050000) = .ok (.familyNotification 0x00 0x05 0) ∧
    decode (.fh 0xFE0833050000) = .ok (.familyGpio 0x33 0x05 0) ∧
    decode (.fh 0x000122050001) = .error .noStartMarker := by decide
/-- V33 to V39. -/
theorem test_decode_commands :
    decode (.fh 0xFE0000050000) = .ok (.readinessCheck 0x05 0) ∧
    decode (.fh 0xFE0100050005) = .ok (.play 0x05 5) ∧
    decode (.fh 0xFE0110050000) = .ok (.getPlayStatus 0x05 0) ∧
    decode (.fh 0xFE0120050001) = .ok (.setStereoMode 0x05 1) ∧
    decode (.fh 0xFE0122050001) = .ok (.setVolume 0x05 1) ∧
    decode (.fh 0xFE0201050000) = .ok (.getClock 0x05 0) ∧
    decode (.fh 0xFE0300050000) = .ok (.getAppData 0x05 0) := by decide
theorem test_decode_table_words :
    decodeTableWord 35 0x101220001 = some (.send 0x01 0x22 1) ∧
    decodeTableWord 40 0x200000000 = some .ack ∧ decodeTableWord 40 0x800000000 = none ∧
    decodeTableWord 24 0x000010 = some (.wrtx 0 0x10) ∧
    decodeTableWord 16 0x0007 = some (.rdrx 7) ∧ decodeTableWord 3 6 = some (.rdcsr 6) ∧
    decodeTableWord 8 0xFE = some (.rxb 0xFE) ∧ decodeTableWord 1 0 = some .rst ∧
    decodeTableWord 48 0xFE0122050001 = some (.setVolume 0x05 1) ∧
    decodeTableWord 48 0x000122050001 = none := by decide
/-- Every row's own pattern is named by that row or by one with more mask bits. -/
theorem test_header_rows :
    (headerRows.map fun r => match decode (.fh (BitVec.ofNat 48 r.pattern)) with
      | .ok i => headerMnemonic i | .error _ => none) =
    [some "READINESS_CHECK", some "READINESS_CHECK", some "PLAY", some "FAMILY_CLOCK",
     some "GET_APP_DATA", some "FAMILY_NOTIFICATION", some "FAMILY_GPIO", some "READINESS_CHECK",
     some "PLAY", some "GET_PLAY_STATUS", some "SET_STEREO_MODE", some "SET_VOLUME",
     some "GET_CLOCK", some "GET_APP_DATA"] := by decide

/-! ## Small states -/

/-- P1 after step 2. -/
def sending : State :=
  { State.reset with
    phase := .tx, seq := 1, txType := 0x01, txCmd := 0x22, txLen := 1, txBuf := [(0, 0x10)] }

/-- Bytes as cells from address 0. -/
def cells (b : List Byte) : Memory := b.zipIdx.map fun x => (x.2, x.1)

/-- After the request of V22 to V28, with the bytes `b` captured. -/
def receiving (p : Phase) (b : List Byte) : State :=
  { State.reset with
    phase := p, seq := 1, txType := 0x01, txCmd := 0x10, rxCnt := BitVec.ofNat 16 b.length,
    rxBuf := cells b }

/-- V25: the exchange has ended. -/
def finished : State := receiving .done [0xFE, 0x01, 0x10, 0x00, 0x00, 0x00, 0xFD]

/-- V27: a timeout after three bytes. -/
def timedOut : State := { receiving .err [0xFE, 0x01, 0x10] with err := some .timeout }

/-- The next state, if there is one. -/
def after (o : Result) : Option State :=
  match o with
  | .next t => some t
  | .fault _ => none
  | .refused _ => none

/-- `PHASE, ERR, SEQ, REQSEQ, TXIDX, RXCNT`, as the vectors write a state. -/
structure Regs where
  phase : Phase
  err : Option ErrKind
  seq : Byte
  reqSeq : Byte
  txIdx : Half
  rxCnt : Half
  deriving DecidableEq, Repr

/-- The registers the vectors write. -/
def regs (s : State) : Regs := ⟨s.phase, s.err, s.seq, s.reqSeq, s.txIdx, s.rxCnt⟩

/-- A cycle's pins with nothing on them. -/
def quietPins : Pins :=
  { rstN := true, cmdStrobe := false, cmdWord := 0, txbufWe := false, txbufAddr := 0,
    txbufWdata := 0, rxbufAddr := 0, csrAddr := 0, txReady := false, rxValid := false,
    rxData := 0 }

/-! ## Host operations -/

/-- V18: the counter wraps. -/
theorem test_send :
    (after (exec (.send 0x01 0x10 0) { State.reset with seq := 0xFF })).map
      (fun t => (regs t, csrValue t 0, csrValue t 2, csrValue t 4)) =
    some (⟨.tx, none, 0x00, 0xFF, 0, 0⟩, .ok 0x0041, .ok 0x00FF, .ok 0x0110) := by decide
/-- V17: too big; no sequence number is used. -/
theorem test_send_too_big :
    (after (exec (.send 0x03 0x00 0xF000) { State.reset with seq := 9, reqSeq := 8 })).map
      (fun t => (regs t, csrValue t 0, csrValue t 5, txValid t)) =
    some (⟨.err, some .tooBig, 9, 8, 0, 0⟩, .ok 0x010D, .ok 0xF000, false) := by decide
/-- V21. -/
theorem test_ack :
    (after (exec .ack finished)).map
      (fun t => (regs t, rdrxValue t 0, csrValue t 6, csrValue t 7)) =
    some (⟨.idle, none, 1, 0, 0, 0⟩, .ok 0, .ok 0, .ok 0) := by decide
/-- V21a, V21b, V21c. -/
theorem test_dropped_commands :
    after (exec .ack State.reset) = some State.reset ∧
    after (exec .tmo State.reset) = some State.reset ∧
    after (exec .flt State.reset) = some State.reset ∧
    after (exec .tmo sending) = some sending ∧ after (exec .tmo finished) = some finished ∧
    after (exec .flt timedOut) = some timedOut := by decide
/-- V27. -/
theorem test_tmo :
    (after (exec .tmo (receiving .rxHdr [0xFE, 0x01, 0x10]))).map
      (fun t => (regs t, csrValue t 0, rdrxValue t 2, rdrxValue t 3)) =
    some (⟨.err, some .timeout, 1, 0, 0, 3⟩, .ok 0x011D, .ok 0x10, .ok 0) := by decide
/-- V30: after four bytes. -/
theorem test_flt :
    (after (exec .flt { sending with txIdx := 4 })).map
      (fun t => (regs t, csrValue t 0, csrValue t 3, txValid t)) =
    some (⟨.err, some .io, 1, 0, 4, 0⟩, .ok 0x0115, .ok 4, false) := by decide
/-- V21d. -/
theorem test_wrtx :
    (after (exec (.wrtx 0xEFFE 0x5A) State.reset)).map (·.txBuf) = some [(0xEFFE, 0x5A)] ∧
    after (exec (.wrtx 0xEFFF 0x5A) State.reset) = some State.reset := by decide
/-- V21e: a write in `TX` is dropped. -/
theorem test_wrtx_in_tx : after (exec (.wrtx 0 0x55) sending) = some sending := by decide
/-- V25. -/
theorem test_rdrx :
    (after (exec (.rdrx 6) finished)).map (·.ret) = some (.byte 0xFD) ∧
    (after (exec (.rdrx 7) finished)).map (·.ret) = some (.byte 0x00) := by decide
/-- V25a. -/
theorem test_rdcsr :
    (after (exec (.rdcsr 6)
      (receiving .done [0xFE, 0x77, 0x88, 0x00, 0x00, 0x00, 0xFD]))).map (·.ret) =
      some (.word 0x7788) ∧
    (after (exec (.rdcsr 0) finished)).map (·.ret) = some (.word 0x0084) := by decide

/-! ## Link operations and reset -/

/-- The byte of R140 at `TXIDX` 3, and the end marker (V32a). -/
theorem test_txb :
    (after (exec .txb { sending with txIdx := 6 })).map (fun t => (regs t, t.txQ)) =
      some (⟨.tx, none, 1, 0, 7, 0⟩, [0x10]) ∧
    (after (exec .txb { sending with txIdx := 6, txLen := 0 })).map (fun t => (regs t, t.txQ)) =
      some (⟨.rxHdr, none, 1, 0, 0, 0⟩, [0xFD]) := by decide
/-- V24b: the start marker is checked before the length. -/
theorem test_rxb_header :
    (after (exec (.rxb 0x00) (receiving .rxHdr [0xFF, 0x01, 0x10, 0x00, 0xF0]))).map regs =
      some ⟨.err, some .malformed, 1, 0, 0, 6⟩ ∧
    (after (exec (.rxb 0xFF) (receiving .rxHdr [0xFE, 0x01, 0x10, 0x00, 0xEF]))).map regs =
      some ⟨.rxBody, none, 1, 0, 0, 6⟩ := by decide
/-- V24a, V25: the end marker is checked before the sequence number. -/
theorem test_rxb_body :
    (after (exec (.rxb 0xFC) (receiving .rxBody [0xFE, 0x01, 0x10, 0x07, 0x00, 0x00]))).map regs =
      some ⟨.err, some .invalid, 1, 0, 0, 7⟩ ∧
    after (exec (.rxb 0xFD) (receiving .rxBody [0xFE, 0x01, 0x10, 0x00, 0x00, 0x00])) =
      some finished := by decide
/-- R220, R222, R223: the buffers and the link's queues stay. -/
theorem test_rst :
    after (exec .rst { sending with txIdx := 3, rxQ := [0xAA], txQ := [0xFE, 0x01, 0x22] }) =
      some { State.reset with
        txBuf := [(0, 0x10)], rxQ := [0xAA], txQ := [0xFE, 0x01, 0x22] } := by decide

/-! ## Codec functions -/

/-- V16f. -/
theorem test_nextSeq :
    (after (exec .nextSeq { State.reset with seq := 0xFF })).map (fun t => (t.ret, t.seq)) =
      some (.byte 0xFF, 0x00) := by decide
/-- V3, V4. -/
theorem test_encode :
    (after (exec (.encode 0x01 0x00 0x2A [0x01, 0x00, 0x01, 0x5F, 0x90]) State.reset)).map (·.ret) =
      some (.encoded [0xFE, 0x01, 0x00, 0x2A, 0x00, 0x05, 0x01, 0x00, 0x01, 0x5F, 0x90, 0xFD]) ∧
    (after (exec (.encode 0x03 0x00 0xFF [0xFD, 0xFE, 0xFD]) State.reset)).map (·.ret) =
      some (.encoded [0xFE, 0x03, 0x00, 0xFF, 0x00, 0x03, 0xFD, 0xFE, 0xFD, 0xFD]) := by decide
/-- V16g. -/
theorem test_pLen :
    (after (exec (.pLen [0xFE, 0x01, 0x22, 0x00, 0xEF, 0xFF]) State.reset)).map (·.ret) =
      some (.length 0xEFFF) := by decide
/-- V7 to V12, V14 to V16. -/
theorem test_valid :
    validFrame [0xFE, 0x01, 0x22, 0x00, 0x00, 0x01, 0x10, 0xFD] = true ∧
    validFrame [0xFF, 0x01, 0x22, 0x00, 0x00, 0x01, 0x10, 0xFD] = false ∧
    validFrame [0xFE, 0x01, 0x22, 0x00, 0x00, 0x01, 0x10, 0xFC] = false ∧
    validFrame [0xFE, 0x01, 0x22, 0x00, 0x00, 0x01, 0x10] = false ∧
    validFrame [0xFE, 0x01, 0x22, 0x00, 0x00, 0x01, 0x10, 0xFD, 0x00] = false ∧
    validFrame [0xFE, 0x01, 0x22, 0x00, 0x00, 0x02, 0x10, 0xFD] = false ∧
    validFrame [] = false ∧ validFrame [0xFE, 0x00, 0x00, 0x00, 0x00] = false ∧
    validFrame [0xFE, 0x00, 0x00, 0x00, 0x00, 0x00] = false ∧
    validFrame [0xFE, 0x03, 0x00, 0xFF, 0x00, 0x03, 0xFD, 0xFE, 0xFD, 0xFD] = true := by decide
/-- V16a to V16d. -/
theorem test_decode :
    (after (exec (.decode [0xFE, 0x01, 0x22, 0x07, 0x00, 0x02, 0xAA, 0xBB, 0xFD])
      State.reset)).map (·.ret) = some (.decoded ⟨0x01, 0x22, 0x07, 2, [0xAA, 0xBB]⟩) ∧
    decodeFrame [0x00, 0x01, 0x22, 0x07, 0x00, 0x00, 0xFD] = .error .malformed ∧
    decodeFrame [0xFE, 0x01, 0x22, 0x07, 0x00, 0x00, 0xFC] = .error .invalid ∧
    decodeFrame [] = .error .invalid := by decide
/-- V16e. -/
theorem test_chkSeq :
    (after (exec (.chkSeq 0x01 0x22 0x04 0) { State.reset with reqSeq := 5 })).map (·.ret) =
      some (.truth false) ∧
    (after (exec (.chkSeq 0x01 0x22 0x05 0) { State.reset with reqSeq := 5 })).map (·.ret) =
      some (.truth true) := by decide

/-! ## Rows of the wire: the bytes of V33 to V39 and the families of R161 -/

/-- The wire's bytes after one row of the wire, from `IDLE` with `SEQ = 5`. -/
def wireBytes (i : Instr) (payload : List Byte) : Option (List Byte) :=
  (after (exec i { State.reset with seq := 5, txBuf := cells payload })).map (·.txQ)

theorem test_wire_commands :
    wireBytes (.readinessCheck 0x05 0) [] = some [0xFE, 0x00, 0x00, 0x05, 0x00, 0x00, 0xFD] ∧
    wireBytes (.setVolume 0x05 1) [0x10] =
      some [0xFE, 0x01, 0x22, 0x05, 0x00, 0x01, 0x10, 0xFD] ∧
    wireBytes (.setStereoMode 0x05 1) [0x01] =
      some [0xFE, 0x01, 0x20, 0x05, 0x00, 0x01, 0x01, 0xFD] ∧
    wireBytes (.play 0x05 5) [0x01, 0x00, 0x01, 0x5F, 0x90] =
      some [0xFE, 0x01, 0x00, 0x05, 0x00, 0x05, 0x01, 0x00, 0x01, 0x5F, 0x90, 0xFD] ∧
    wireBytes (.getPlayStatus 0x05 0) [] = some [0xFE, 0x01, 0x10, 0x05, 0x00, 0x00, 0xFD] ∧
    wireBytes (.getClock 0x05 0) [] = some [0xFE, 0x02, 0x01, 0x05, 0x00, 0x00, 0xFD] ∧
    wireBytes (.getAppData 0x05 0) [] = some [0xFE, 0x03, 0x00, 0x05, 0x00, 0x00, 0xFD] := by
  decide
theorem test_wire_families :
    wireBytes (.frame 0x05 0x00 0x05 0) [] = some [0xFE, 0x05, 0x00, 0x05, 0x00, 0x00, 0xFD] ∧
    wireBytes (.familySystem 0x01 0x05 0) [] = some [0xFE, 0x00, 0x01, 0x05, 0x00, 0x00, 0xFD] ∧
    wireBytes (.familyStream 0x21 0x05 0) [] = some [0xFE, 0x01, 0x21, 0x05, 0x00, 0x00, 0xFD] ∧
    wireBytes (.familyClock 0x00 0x05 0) [] = some [0xFE, 0x02, 0x00, 0x05, 0x00, 0x00, 0xFD] ∧
    wireBytes (.familyMetadata 0x01 0x05 0) [] = some [0xFE, 0x03, 0x01, 0x05, 0x00, 0x00, 0xFD] ∧
    wireBytes (.familyNotification 0x00 0x05 0) [] =
      some [0xFE, 0x07, 0x00, 0x05, 0x00, 0x00, 0xFD] ∧
    wireBytes (.familyGpio 0x33 0x05 0) [] = some [0xFE, 0x08, 0x33, 0x05, 0x00, 0x00, 0xFD] := by
  decide
/-- The frame's last byte leaves the block waiting for the response, with the counter advanced. -/
theorem test_wire_registers :
    (after (exec (.setVolume 0x99 1)
      { State.reset with seq := 5, txBuf := [(0, 0x10)] })).map regs =
      some ⟨.rxHdr, none, 6, 5, 0, 0⟩ := by decide

/-! ## Cycles, steps, the host -/

/-- V28: `TMO` and a byte in one cycle. -/
theorem test_cycle_tmo_before_byte :
    (after (runCycle { quietPins with
        cmdStrobe := true, cmdWord := 0x300000000, rxValid := true, rxData := 0xFE }
      { receiving .rxHdr [] with rxQ := [0xFE] })).map (fun t => (regs t, t.rxQ)) =
      some (⟨.err, some .timeout, 1, 0, 0, 0⟩, [0xFE]) := by decide
/-- A `SEND`, the first byte and a write in one cycle: the write is dropped, as the phase is `TX`. -/
theorem test_cycle_send_then_byte :
    (after (runCycle { quietPins with
        cmdStrobe := true, cmdWord := 0x101220001, txReady := true, txbufWe := true,
        txbufWdata := 0x55 } { State.reset with txBuf := [(0, 0x10)] })).map
      (fun t => (regs t, t.txQ, t.txBuf)) =
      some (⟨.tx, none, 1, 0, 1, 0⟩, [0xFE], [(0, 0x10)]) := by decide
/-- A table word runs as the very next operation after reset. -/
theorem test_step_fetch_word :
    after (step (State.reset.withFetchWord 24 0x000010)) =
      some { State.reset with txBuf := [(0, 0x10)] } := by decide
/-- V40, P2, V41. -/
theorem test_handshake :
    handshake 5 (List.replicate 5 (.failed .timeout)) = .noResponse ∧
    handshake 5 [.failed .timeout, .failed .timeout, .response ⟨0, 0, 2, 0, []⟩] = .ready ∧
    handshake 5 [.failed .invalid] = .failed .invalid := by decide

/-- R21, R100, log entry 8: a `NEXTSEQ` on the codec's port gives its caller `SEQ` and steps nothing. -/
theorem test_step_nextSeq_beside :
    after (step { State.reset with seq := 0x2A, sched := [.port (.fn (.nextSeq 0))] }) =
      some { State.reset with seq := 0x2A, ret := .byte 0x2A } := by decide
/-- Log entry 25: a number that does not fit its 16-bit port. -/
theorem test_halfOf : halfOf 0xEFFF = 0xEFFF ∧ halfOf 65536 = 0xFFFF := by decide

/-- How a run of exchanges ended. -/
def outcome {α : Type} (o : Host.Outcome α Fault Refusal) : Option α :=
  match o with
  | .next x => some x
  | .fault _ => none
  | .refused _ => none

/-- P1: the answered exchange, its result and the registers after `ACK`. -/
theorem test_exchange_answered :
    (outcome (exchange (setVolumeRequest 0x10)
      (takesRequest 1 ++ answeredBy [0xFE, 0x01, 0x22, 0x00, 0x00, 0x00, 0xFD]) State.reset)).map
      (fun x => (x.result, regs x.state)) =
      some (some (.response ⟨0x01, 0x22, 0x00, 0, []⟩), ⟨.idle, none, 1, 0, 0, 0⟩) := by decide
/-- P3: the answer to an earlier request. -/
theorem test_exchange_desync :
    (outcome (exchange (setStereoModeRequest 0x02)
      (takesRequest 1 ++ answeredBy [0xFE, 0x01, 0x20, 0x04, 0x00, 0x01, 0x00, 0xFD])
      { State.reset with seq := 5, reqSeq := 4 })).map (fun x => (x.result, regs x.state)) =
      some (some (.failed .desync), ⟨.idle, none, 6, 5, 0, 0⟩) := by decide
/-- P2: two silent attempts and an answered one. -/
theorem test_handshake_run :
    (outcome (handshakeRun 5
      [takesRequest 0 ++ [.timeout], takesRequest 0 ++ [.timeout],
        takesRequest 0 ++ answeredBy [0xFE, 0x00, 0x00, 0x02, 0x00, 0x00, 0xFD]]
      (handshakeStart 5) State.reset)).map (fun x => (x.1, regs x.2)) =
      some (.ready, ⟨.idle, none, 3, 2, 0, 0⟩) := by decide

/-! ## The invariant holds in a state of every phase -/

theorem inv_sending : StateInv sending :=
  ⟨by decide, by decide, by decide, by decide, fun h => absurd h (by decide),
    fun h => absurd h (by decide), by decide, by decide, ⟨by decide, by unfold cellsHeld; decide⟩,
    ⟨by decide, by decide⟩, ⟨by decide, by decide⟩⟩
theorem inv_idle : StateInv { sending with phase := .idle } :=
  ⟨by decide, by decide, by decide, by decide, fun h => absurd h (by decide),
    fun h => absurd h (by decide), by decide, by decide, ⟨by decide, by unfold cellsHeld; decide⟩,
    ⟨by decide, by decide⟩, ⟨by decide, by decide⟩⟩

/-- A response to request 0 of an unassigned type, with markers in it, and one byte more. -/
def answered : State :=
  { receiving .rxHdr [] with
    rxQ := [0xFE, 0x77, 0x88, 0x00, 0x00, 0x02, 0xFD, 0xFE, 0xFD, 0x55] }

theorem inv_answered : StateInv answered :=
  ⟨by decide, by decide, by decide, by decide, fun h => absurd h (by decide),
    fun h => absurd h (by decide), by decide, by decide, ⟨by decide, by unfold cellsHeld; decide⟩,
    ⟨by decide, by decide⟩, ⟨by decide, by decide⟩⟩

/-- Four header bytes in: the next one is not yet the sixth. -/
def header4 : State := receiving .rxHdr [0xFE, 0x01, 0x10, 0x00]
/-- One and two header bytes in: `command_type` and `command` are next. -/
def header1 : State := receiving .rxHdr [0xFE]
def header2 : State := receiving .rxHdr [0xFE, 0x01]
/-- Five header bytes in, the first not the start marker. -/
def noStart : State := receiving .rxHdr [0xFF, 0x01, 0x10, 0x00, 0x00]
/-- Five header bytes in, of a declared length of 0xF000 or more. -/
def tooLong : State := receiving .rxHdr [0xFE, 0x01, 0x10, 0x00, 0xF0]
/-- Five header bytes in: the next one is the sixth. -/
def header5 : State := receiving .rxHdr [0xFE, 0x01, 0x10, 0x00, 0x00]
/-- The body begins: one payload byte and the end marker are due. -/
def body6 : State := receiving .rxBody [0xFE, 0x01, 0x10, 0x00, 0x00, 0x01]
/-- The end marker is due. -/
def body7 : State := receiving .rxBody [0xFE, 0x01, 0x10, 0x00, 0x00, 0x01, 0x7F]
/-- V24 with the payload byte 0x7F: the exchange has ended. -/
def finishedOne : State :=
  receiving .done [0xFE, 0x01, 0x10, 0x00, 0x00, 0x01, 0x7F, 0xFD]

theorem inv_header4 : StateInv header4 :=
  ⟨by decide, by decide, by decide, by decide, fun h => absurd h (by decide),
    fun h => absurd h (by decide), by decide, by decide, ⟨by decide, by unfold cellsHeld; decide⟩,
    ⟨by decide, by decide⟩, ⟨by decide, by decide⟩⟩

theorem inv_header1 : StateInv header1 :=
  ⟨by decide, by decide, by decide, by decide, fun h => absurd h (by decide),
    fun h => absurd h (by decide), by decide, by decide, ⟨by decide, by unfold cellsHeld; decide⟩,
    ⟨by decide, by decide⟩, ⟨by decide, by decide⟩⟩

theorem inv_header2 : StateInv header2 :=
  ⟨by decide, by decide, by decide, by decide, fun h => absurd h (by decide),
    fun h => absurd h (by decide), by decide, by decide, ⟨by decide, by unfold cellsHeld; decide⟩,
    ⟨by decide, by decide⟩, ⟨by decide, by decide⟩⟩

theorem inv_noStart : StateInv noStart :=
  ⟨by decide, by decide, by decide, by decide, fun h => absurd h (by decide),
    fun h => absurd h (by decide), by decide, by decide, ⟨by decide, by unfold cellsHeld; decide⟩,
    ⟨by decide, by decide⟩, ⟨by decide, by decide⟩⟩

theorem inv_tooLong : StateInv tooLong :=
  ⟨by decide, by decide, by decide, by decide, fun h => absurd h (by decide),
    fun h => absurd h (by decide), by decide, by decide, ⟨by decide, by unfold cellsHeld; decide⟩,
    ⟨by decide, by decide⟩, ⟨by decide, by decide⟩⟩

theorem inv_header5 : StateInv header5 :=
  ⟨by decide, by decide, by decide, by decide, fun h => absurd h (by decide),
    fun h => absurd h (by decide), by decide, by decide, ⟨by decide, by unfold cellsHeld; decide⟩,
    ⟨by decide, by decide⟩, ⟨by decide, by decide⟩⟩

theorem inv_body6 : StateInv body6 :=
  ⟨by decide, by decide, by decide, by decide,
    fun _ => ⟨by decide, 1, by decide, by decide, by decide, by decide⟩,
    fun h => absurd h (by decide), by decide, by decide, ⟨by decide, by unfold cellsHeld; decide⟩,
    ⟨by decide, by decide⟩, ⟨by decide, by decide⟩⟩

theorem inv_body7 : StateInv body7 :=
  ⟨by decide, by decide, by decide, by decide,
    fun _ => ⟨by decide, 1, by decide, by decide, by decide, by decide⟩,
    fun h => absurd h (by decide), by decide, by decide, ⟨by decide, by unfold cellsHeld; decide⟩,
    ⟨by decide, by decide⟩, ⟨by decide, by decide⟩⟩

/-- The end marker is due, and the response's sequence number is not the request's. -/
def stale : State := { body7 with reqSeq := 5, seq := 6 }

theorem inv_stale : StateInv stale :=
  ⟨by decide, by decide, by decide, by decide,
    fun _ => ⟨by decide, 1, by decide, by decide, by decide, by decide⟩,
    fun h => absurd h (by decide), by decide, by decide, ⟨by decide, by unfold cellsHeld; decide⟩,
    ⟨by decide, by decide⟩, ⟨by decide, by decide⟩⟩

theorem inv_finishedOne : StateInv finishedOne :=
  ⟨by decide, by decide, by decide, by decide, fun h => absurd h (by decide),
    fun _ => ⟨[0xFE, 0x01, 0x10, 0x00, 0x00, 0x01, 0x7F, 0xFD], 1, by decide, by decide,
      by decide, by decide, by decide⟩,
    by decide, by decide, ⟨by decide, by unfold cellsHeld; decide⟩,
    ⟨by decide, by decide⟩, ⟨by decide, by decide⟩⟩

theorem inv_timedOut : StateInv timedOut :=
  ⟨by decide, by decide, by decide, by decide, fun h => absurd h (by decide),
    fun h => absurd h (by decide), by decide, by decide, ⟨by decide, by unfold cellsHeld; decide⟩,
    ⟨by decide, by decide⟩, ⟨by decide, by decide⟩⟩

/-! ## A state and operands that meet the hypotheses of each statement -/

theorem witness_RstResetsRegistersInEveryPhase :
    (⟨false, true, 0x101220001, true, 0, 0, 0, 0, true, true, 0⟩ : Pins).rstN = false := rfl

theorem witness_OutputsAfterReset :
    exec .rst sending = .next { State.reset with txBuf := [(0, 0x10)] } := rfl

/-- The longest accepted length, the shortest refused one, and a busy block. -/
theorem witness_SendByPhaseAndLength :
    (State.reset.phase = .idle ∧ (0xEFFF : Half).toNat < 0xF000) ∧
    (State.reset.phase = .idle ∧ 0xF000 ≤ (0xF000 : Half).toNat) ∧ sending.phase ≠ .idle := by
  decide

theorem witness_AckReturnsToIdle :
    finished.phase = .done ∧ timedOut.phase = .err ∧
    (sending.phase ≠ .done ∧ sending.phase ≠ .err) ∧
    exec .txb timedOut = .next timedOut := ⟨rfl, rfl, by decide, rfl⟩

/-- The last byte of the diagnostic window: offset 5 of seven captured bytes. -/
theorem witness_TmoRaisesTimeout :
    header4.phase = .rxHdr ∧
    (body7.phase = .rxBody ∧ (5 : Half).toNat < min body7.rxCnt.toNat 6 ∧
      memRead body7.rxBuf 5 = some 0x01) ∧
    (sending.phase ≠ .rxHdr ∧ sending.phase ≠ .rxBody) := by decide

theorem witness_FltRaisesIoError :
    sending.phase = .tx ∧ header4.phase = .rxHdr ∧ body6.phase = .rxBody ∧
    State.reset.phase = .idle ∧ finished.phase = .done ∧ timedOut.phase = .err := by decide

theorem witness_CommandAcceptanceTable :
    cmdAccept State.reset 0x101220001 = true ∧ cmdAccept finished 0x200000000 = true ∧
    cmdAccept timedOut 0x200000000 = true ∧ cmdAccept header4 0x300000000 = true ∧
    cmdAccept body6 0x400000000 = true ∧ cmdAccept sending 0x101220001 = false ∧
    cmdAccept State.reset 0x000000000 = false := by decide

/-- The last cell, the first address beyond it, and a write during `TX`. -/
theorem witness_WrtxWritesOneCell :
    ((0xEFFE : Half).toNat ≤ 0xEFFE ∧ State.reset.phase ≠ .tx) ∧
    0xEFFE < (0xEFFF : Half).toNat ∧ sending.phase = .tx ∧
    Returns (.rdrx 0) State.reset (.byte 0) ∧ Returns (.rdcsr 1) sending (.word 1) :=
  ⟨by decide, by decide, rfl, rfl, rfl⟩

/-- The last readable offset and the first unreadable one of both windows, and a closed one. -/
theorem witness_RdrxWindows :
    (StateInv finishedOne ∧ finishedOne.phase = .done ∧ (7 : Half).toNat < finishedOne.rxCnt.toNat) ∧
    ¬(8 : Half).toNat < finishedOne.rxCnt.toNat ∧
    (StateInv timedOut ∧ timedOut.phase = .err ∧ (2 : Half).toNat < min timedOut.rxCnt.toNat 6) ∧
    ¬(3 : Half).toNat < min timedOut.rxCnt.toNat 6 ∧
    (StateInv body7 ∧ body7.phase ≠ .done ∧ body7.phase ≠ .err) :=
  ⟨⟨inv_finishedOne, by decide⟩, by decide, ⟨inv_timedOut, by decide⟩, by decide, inv_body7,
    by decide⟩

theorem witness_RequestStatusRegisters : (5 : BitVec 3).toNat ≤ 5 := by decide

theorem witness_ResponseStatusRegisters :
    (StateInv finishedOne ∧ finishedOne.phase = .done) ∧ StateInv timedOut ∧ timedOut.phase ≠ .done :=
  ⟨⟨inv_finishedOne, rfl⟩, inv_timedOut, by decide⟩

theorem witness_OutputsByPhase : header4.phase ≠ .tx ∧ sending.phase = .tx := by decide

/-- Each offset of an eight-byte frame, the payload byte at 6 and the end marker at 7. -/
theorem witness_TxbHandsOverTxByte :
    (∀ i < 8, { sending with txIdx := BitVec.ofNat 16 i }.phase = .tx ∧
      (6 ≤ i → i < 6 + sending.txLen.toNat → memRead sending.txBuf (i - 6) ≠ none)) ∧
    finished.phase ≠ .tx := by decide

theorem witness_TxbFaultsOnUnwrittenPayload :
    let s := { sending with txIdx := 6, txBuf := [] }
    s.phase = .tx ∧ s.txIdx.toNat = 0 + 6 ∧ 0 < s.txLen.toNat ∧ memRead s.txBuf 0 = none := by
  decide

theorem witness_TransmitRunIsEncode :
    sending.phase = .tx ∧ sending.txIdx = 0 ∧ sending.txLen.toNat < 0xF000 ∧
    memSlice sending.txBuf 0 sending.txLen.toNat = some [0x10] := by decide

theorem witness_ExchangePutsItsFrameOnTheWire :
    State.reset.phase = .idle ∧ (setVolumeRequest 0x10).payload.length < 0xF000 := by decide

theorem witness_SetVolumeBytes :
    { sending with phase := .idle }.phase = .idle ∧
    memRead { sending with phase := .idle }.txBuf 0 = some 0x10 := by decide

theorem witness_FacadeRequestFrames : State.reset.phase = .idle := rfl

theorem witness_TransientBusyChangesNothing :
    sending.phase = .tx ∧ quietPins.rstN = true ∧ quietPins.cmdStrobe = false ∧
    quietPins.txReady = false ∧ quietPins.txbufWe = false := by decide

/-- The bytes before, at and after the two points where the checks are made, through an empty `RXQ`
and from its head. -/
theorem witness_RxbByPhaseAndCount :
    (StateInv header4 ∧ header4.rxQ = [] ∧ header4.phase = .rxHdr ∧
      header4.rxCnt.toNat + 1 < 6) ∧
    (StateInv header5 ∧ header5.rxQ = [] ∧ header5.phase = .rxHdr ∧
      header5.rxCnt.toNat + 1 = 6) ∧
    (StateInv body6 ∧ body6.rxQ = [] ∧ body6.phase = .rxBody) ∧
    (StateInv body7 ∧ body7.rxQ = [] ∧ body7.phase = .rxBody) ∧
    (StateInv sending ∧ sending.rxQ = [] ∧ sending.phase ≠ .rxHdr ∧ sending.phase ≠ .rxBody) ∧
    (StateInv { header4 with rxQ := [0x00, 0x01] } ∧
      { header4 with rxQ := [0x00, 0x01] }.rxQ.head? = some 0x00) ∧
    (StateInv { header5 with rxQ := [0x01] } ∧ { header5 with rxQ := [0x01] }.rxQ.head? = some 0x01) ∧
    StateInv { body7 with rxQ := [0xFD] } ∧ { body7 with rxQ := [0xFD] }.rxQ.head? = some 0xFD :=
  ⟨⟨inv_header4, by decide⟩, ⟨inv_header5, by decide⟩, ⟨inv_body6, by decide⟩,
    ⟨inv_body7, by decide⟩, ⟨inv_sending, by decide⟩, ⟨stateInv_rxQ inv_header4 _, rfl⟩,
    ⟨stateInv_rxQ inv_header5 _, rfl⟩, stateInv_rxQ inv_body7 _, rfl⟩

theorem witness_RxbOutsideItsPhases :
    (sending.phase ≠ .rxHdr ∧ sending.phase ≠ .rxBody) ∧
    { header4 with rxQ := [0x01] }.phase = .rxHdr ∧
    { header4 with rxQ := [0x01] }.rxQ = 0x01 :: [] ∧ (0x01 : Byte) ≠ 0x02 := by decide

theorem witness_OnlyRxbWritesRxbuf :
    StateInv header4 ∧ exec (.rxb 0x00) header4 = .next header5 := ⟨inv_header4, rfl⟩

/-- Each outcome: done, malformed, invalid by the length, invalid by the end marker, desynchronized,
and waiting for more. -/
theorem witness_StreamingReceiverAgreesWithValid :
    (StateInv body7 ∧ body7.phase = .rxBody ∧ exec (.rxb 0xFD) body7 = .next finishedOne) ∧
    (StateInv noStart ∧ noStart.phase = .rxHdr ∧
      (after (exec (.rxb 0x00) noStart)).map (·.err) = some (some .malformed)) ∧
    (StateInv tooLong ∧ tooLong.phase = .rxHdr ∧
      (after (exec (.rxb 0x00) tooLong)).map (·.err) = some (some .invalid)) ∧
    (after (exec (.rxb 0xFC) body7)).map (·.err) = some (some .invalid) ∧
    (StateInv stale ∧ stale.phase = .rxBody ∧
      (after (exec (.rxb 0xFD) stale)).map (·.err) = some (some .desync)) ∧
    (after (exec (.rxb 0x01) header4)).map (fun t => (t.phase, t.err)) = some (.rxHdr, none) :=
  ⟨⟨inv_body7, rfl, rfl⟩, ⟨inv_noStart, by decide⟩, ⟨inv_tooLong, by decide⟩, by decide,
    ⟨inv_stale, by decide⟩, by decide⟩

theorem witness_WholeFrameEndsTheExchange :
    StateInv answered ∧ answered.phase = .rxHdr ∧ answered.rxCnt = 0 ∧
    [0xFD, 0xFE].length < 0xF000 ∧
    answered.rxQ = frameOf 0x77 0x88 0x00 [0xFD, 0xFE] ++ [0x55] :=
  ⟨inv_answered, by decide⟩

theorem witness_ErrPhaseDropsEverythingElse :
    timedOut.phase = .err ∧ isWireRow (.setVolume 0 1) = true ∧
    (decode (.cw 0x101220001) = .ok (.send 0x01 0x22 1) ∧
      step { timedOut with sched := [.port (.cw 0x101220001)] } = .next timedOut) ∧
    decode (.fn (.nextSeq 0)) = .ok .nextSeq ∧
    step { timedOut with sched := [.port (.fn (.nextSeq 0))] } =
      .next { timedOut with ret := .byte 1 } :=
  ⟨rfl, rfl, ⟨by decide, rfl⟩, by decide, rfl⟩

/-- One transition of each row of the table. -/
theorem witness_PhaseTransitionsAreTheTable :
    (exec .rst sending = .next { State.reset with txBuf := [(0, 0x10)] }) ∧
    (exec (.rxb 0x01) header5 = .next body6 ∧ body6.phase ≠ header5.phase) ∧
    (exec (.rxb 0xFD) body7 = .next finishedOne ∧ finishedOne.phase ≠ body7.phase) ∧
    (exec .tmo (receiving .rxHdr [0xFE, 0x01, 0x10]) = .next timedOut ∧
      timedOut.phase ≠ (receiving .rxHdr [0xFE, 0x01, 0x10]).phase) :=
  ⟨rfl, ⟨rfl, by decide⟩, ⟨rfl, by decide⟩, rfl, by decide⟩

theorem witness_EveryStepKeepsTheInvariant :
    StateInv header4 ∧ step header4 = .next header4 := ⟨inv_header4, rfl⟩

theorem witness_SeqIsOneAheadOfReqSeq :
    exec .txb header4 = .next header4 ∧ Instr.txb ≠ .rst ∧ Instr.txb ≠ .nextSeq ∧
    header4.seq = header4.reqSeq + 1 ∧
    startsRequest (.send 0x01 0x22 1) State.reset = true ∧
    startsRequest (.setVolume 0 0xEFFF) State.reset = true ∧
    startsRequest (.setVolume 0 0xF000) State.reset = false := ⟨rfl, by decide⟩

/-- Two requests, the second after a timeout and its `ACK`. -/
theorem witness_SeqCountsTheRequests :
    let is : List Instr := [.readinessCheck 0 0, .tmo, .ack, .readinessCheck 0 0]
    (after (runOps is State.reset)).map (fun t => (t.phase, t.seq)) = some (.rxHdr, 2) ∧
    requestsStarted is State.reset = 2 ∧ ∀ i ∈ is, i ≠ .rst ∧ i ≠ .nextSeq := by decide

theorem inv_unwritten :
    StateInv { sending with txIdx := 6, txBuf := [], sched := [.port (.tx 0)] } :=
  ⟨by decide, by decide, by decide, by decide, fun h => absurd h (by decide),
    fun h => absurd h (by decide), by decide, by decide, ⟨by decide, by unfold cellsHeld; decide⟩,
    ⟨by decide, by decide⟩, ⟨by decide, by decide⟩⟩

theorem witness_OnlyUnwrittenPayloadFaults :
    StateInv { sending with txIdx := 6, txBuf := [], sched := [.port (.tx 0)] } ∧
    step { sending with txIdx := 6, txBuf := [], sched := [.port (.tx 0)] } =
      .fault (.txBufUnwritten 0) := ⟨inv_unwritten, rfl⟩

theorem witness_NoInvalidFrameIsReadable :
    StateInv finishedOne ∧ Returns (.rdrx 6) finishedOne (.byte 0x7F) ∧ 6 ≤ (6 : Half).toNat ∧
    (0x7F : Byte) ≠ 0 ∧ Returns (.rdcsr 7) finishedOne (.word 1) ∧ (1 : Half) ≠ 0 :=
  ⟨inv_finishedOne, rfl, by decide, by decide, rfl, by decide⟩

/-- Pairs of operations that both complete in two states differing in type, command and payload; and
the offsets 1, 2 and 6 of a response, from an empty `RXQ` and, by `stateInv_rxQ`, from any. -/
theorem witness_TypeCommandAndPayloadAreTransparent :
    (SameButTypeCommandPayload (.send 0x01 0x22 1) (.send 0x08 0x33 1) ∧
      exec (.send 0x01 0x22 1) State.reset = .next { sending with txBuf := [] } ∧
      exec (.send 0x08 0x33 1) { State.reset with txType := 5, txBuf := [(0, 0x10)] } =
        .next { sending with txType := 0x08, txCmd := 0x33 }) ∧
    (SameButTypeCommandPayload .txb .txb ∧
      exec .txb { sending with txIdx := 6 } =
        .next { sending with txIdx := 7, txQ := [0x10] } ∧
      exec .txb { sending with txIdx := 6, txType := 5, txBuf := [(0, 0xFD)] } =
        .next { sending with txIdx := 7, txType := 5, txBuf := [(0, 0xFD)], txQ := [0xFD] }) ∧
    (exec (.rxb 0x01) header5 = .next body6 ∧
      exec (.rxb 0x01) { header5 with txType := 5 } = .next { body6 with txType := 5 }) ∧
    (SameButTypeCommandPayload (.wrtx 0 0x10) (.wrtx 0 0xFE) ∧
      exec (.wrtx 0 0xFE) State.reset = .next { State.reset with txBuf := [(0, 0xFE)] }) ∧
    (SameButTypeCommandPayload (.setVolume 0 1) (.familyGpio 0x33 9 1) ∧
      (after (exec (.setVolume 0 1) { sending with phase := .idle })).isSome = true ∧
      (after (exec (.familyGpio 0x33 9 1)
        { sending with phase := .idle, txBuf := [(0, 0xFD)] })).isSome = true) ∧
    (StateInv header1 ∧ header1.rxQ = [] ∧ header1.phase = .rxHdr ∧ header1.rxCnt = 1) ∧
    (StateInv header2 ∧ header2.rxQ = [] ∧ header2.phase = .rxHdr ∧ header2.rxCnt = 2) ∧
    (StateInv body6 ∧ body6.rxQ = [] ∧ body6.phase = .rxBody ∧ rxLen body6 = .ok 1 ∧
      body6.rxCnt.toNat < (1 : Half).toNat + 6) :=
  ⟨⟨.inr (.inl ⟨_, _, _, _, _, rfl, rfl⟩), rfl, rfl⟩, ⟨.inl rfl, rfl, rfl⟩, ⟨rfl, rfl⟩,
    ⟨.inr (.inr (.inl ⟨_, _, _, rfl, rfl⟩)), rfl⟩,
    ⟨.inr (.inr (.inr ⟨rfl, rfl, rfl⟩)), by decide, by decide⟩, ⟨inv_header1, by decide⟩,
    ⟨inv_header2, by decide⟩, inv_body6, by decide⟩

/-- The longest payload and the first one too long. -/
theorem witness_EncodeBuildsTheFrame :
    (List.replicate 0xEFFF (0 : Byte)).length < 0xF000 ∧
    0xF000 ≤ (List.replicate 0xF000 (0 : Byte)).length := by
  rw [List.length_replicate, List.length_replicate]; decide

theorem witness_PlenReadsBytesFourAndFive :
    6 ≤ [0xFE, 0x01, 0x22, 0x00, 0xFF, 0xFF].length := by decide

theorem four_example : FourConditions [0xFE, 0x01, 0x22, 0x07, 0x00, 0x02, 0xAA, 0xBB, 0xFD] :=
  ⟨by decide, by decide, by decide, by decide, by decide⟩

theorem witness_DecodeValidatesThenExtracts :
    (1 ≤ [0x00].length ∧ ([0x00] : List Byte)[0]? ≠ some 0xFE) ∧
    (¬(1 ≤ ([] : List Byte).length ∧ ([] : List Byte)[0]? ≠ some 0xFE) ∧ ¬FourConditions []) ∧
    FourConditions [0xFE, 0x01, 0x22, 0x07, 0x00, 0x02, 0xAA, 0xBB, 0xFD] :=
  ⟨by decide, ⟨by decide, fun h => absurd h.1 (by decide)⟩, four_example⟩

theorem witness_CodecRoundTrip : [0xFD, 0xFE, 0xFD].length < 0xF000 := by decide

theorem witness_AlteredFramesAreRejected :
    let b : List Byte := [0xFE, 0x01, 0x22, 0x00, 0x00, 0x01, 0x10, 0xFD]
    validFrame b = true ∧ (0xFF : Byte) ≠ 0xFE ∧ (0xFC : Byte) ≠ 0xFD ∧
    ¬(b[4]? = some 0x00 ∧ b[5]? = some 0x02) ∧ 7 < b.length ∧ ([0x00] : List Byte) ≠ [] := by
  decide

theorem witness_FramingIsPrefixDetermined :
    let b : List Byte := [0xFE, 0x01, 0x10, 0x00, 0x00, 0x00, 0xFD, 0xFE]
    7 ≤ b.length ∧ validFrame (b.take 7) = true := by decide

theorem witness_DecodeOfEncodeIsTheOperation :
    wellFormed (.encode 0xAB 0xCD 0x80 [0xFD]) = true ∧ wellFormed (.familyGpio 0x33 5 0) = true ∧
    wellFormed (.frame 0x05 0x00 5 0) = true := by decide

theorem witness_HeaderNamedByTheLongestMask :
    (∀ r ∈ headerRows, rowMatches r (0x000122050001 : BitVec 48) = false) ∧
    (∃ r ∈ headerRows, rowMatches r (0xFE0122050001 : BitVec 48) = true) := by decide

theorem witness_ReservedCommandWordsAreDropped :
    (0x0FFFFFFFF : BitVec 35).toNat / 2 ^ 32 = 0 ∧ 5 ≤ (0x500000000 : BitVec 35).toNat / 2 ^ 32 ∧
    (0x101220001 : BitVec 35).toNat / 2 ^ 32 = 1 ∧ (0x2DEADBEEF : BitVec 35).toNat / 2 ^ 32 = 2 ∧
    (0x300000000 : BitVec 35).toNat / 2 ^ 32 = 3 ∧
    (0x400000000 : BitVec 35).toNat / 2 ^ 32 = 4 := by decide

theorem witness_WireRowsCarryTheirRequest :
    { sending with phase := .idle }.phase = .idle ∧ (1 : Half).toNat < 0xF000 ∧
    memSlice sending.txBuf 0 (1 : Half).toNat = some [0x10] := by decide

/-- Too long; busy; the first cell held and the second not. -/
theorem witness_WireRowsFailLikeSend :
    (State.reset.phase = .idle ∧ 0xF000 ≤ (0xF000 : Half).toNat) ∧ sending.phase ≠ .idle ∧
    (State.reset.phase = .idle ∧ (2 : Half).toNat < 0xF000 ∧ 1 < (2 : Half).toNat ∧
      memRead sending.txBuf 1 = none ∧ ∀ b < 1, memRead sending.txBuf b ≠ none) := by decide

theorem witness_StepRunsTheDecodedOperation :
    { State.reset with sched := [.port (.cw 0x101220001)] }.sched =
      .port (.cw 0x101220001) :: [] ∧
    decode (.cw 0x101220001) = .ok (.send 0x01 0x22 1) ∧
    { State.reset with sched := [.port (.fn (.nextSeq 0))] }.sched =
      .port (.fn (.nextSeq 0)) :: [] ∧
    decode (.fn (.nextSeq 0)) = .ok .nextSeq ∧
    { State.reset with sched := [.arrive 0xFE] }.sched = .arrive 0xFE :: [] ∧
    { State.reset with sched := [.cycle quietPins] }.sched = .cycle quietPins :: [] ∧
    State.reset.sched = [] := by decide

theorem witness_FetchWordRunsNext :
    decodeTableWord 48 0xFE0122050001 = some (.setVolume 0x05 1) := by decide

/-- A cycle with a command, a byte taken and a write. -/
theorem witness_CycleOrder :
    let p := { quietPins with
      cmdStrobe := true, cmdWord := 0x101220001, txReady := true, txbufWe := true }
    { quietPins with rstN := false }.rstN = false ∧ p.rstN = true ∧ runWord (.cw p.cmdWord) State.reset = .next { sending with txBuf := [] } ∧
    exec .txb { sending with txBuf := [] } =
      .next { sending with txBuf := [], txIdx := 1, txQ := [0xFE] } ∧
    (outputPins p State.reset).rxbufRdata = .ok 0 ∧ (outputPins p State.reset).csrRdata = .ok 0 :=
  ⟨rfl, rfl, rfl, rfl, rfl, rfl⟩

/-- `TMO` with an offered byte outside `RXQ` and no write of the cycle's own; `FLT` with the head of
`RXQ` offered, and a write inside the buffer and one beyond it. -/
theorem witness_CommandBeatsTheByteOfItsCycle :
    let p := { quietPins with cmdStrobe := true, cmdWord := 0x300000000, rxValid := true }
    let q := { quietPins with
      cmdStrobe := true, cmdWord := 0x400000000, rxValid := true, rxData := 0x7A, txbufWe := true,
      txbufAddr := 0xEFFE, txbufWdata := 0x55 }
    let s := { body6 with rxQ := [0x7A] }
    (p.rstN = true ∧ p.cmdStrobe = true ∧ header4.phase = .rxHdr ∧ p.rxValid = true ∧
      decode (.cw p.cmdWord) = .ok .tmo ∧ p.txbufWe = false) ∧
    (q.rstN = true ∧ q.cmdStrobe = true ∧ s.phase = .rxBody ∧ q.rxValid = true ∧
      s.rxQ.head? = some q.rxData ∧ decode (.cw q.cmdWord) = .ok .flt ∧ q.txbufWe = true ∧ q.txbufAddr.toNat < 0xEFFF) ∧
    ¬{ q with txbufAddr := 0xEFFF }.txbufAddr.toNat < 0xEFFF := by decide

/-- An event of each kind that is refused, and one that is not. -/
theorem witness_GuardedStepRefusesDroppedCommands :
    guardedStep header4 = .next header4 ∧
    cmdAccept { sending with sched := [.port (.cw 0x101220001)] } 0x101220001 = false ∧
    breach sending (.port (.cw 0x101220001)) = some .commandDropped ∧
    breach sending (.port (.cw 0x000000000)) = some .reservedCommandWord ∧
    breach sending (.port (.fh 0xFE0122050001)) = some .commandDropped ∧
    breach { header4 with rxQ := [0x01] } (.port (.rx 0x02)) = some .rxDataNotQueueHead ∧
    breach sending (.cycle { quietPins with cmdStrobe := true, cmdWord := 0x101220001 }) =
      some .commandDropped ∧
    breach header4 (.port (.cw 0x300000000)) = none ∧
    breach header4 (.port (.rx 0x02)) = none := by
  exact ⟨rfl, by decide⟩

/-- The last attempt of five. -/
theorem witness_HandshakeForgivesOnlyTimeouts :
    1 ≤ 5 ∧ 4 < 5 ∧ ErrKind.invalid ≠ .timeout := by decide

theorem witness_HandshakeIssuesReadinessChecks :
    State.reset.phase = .idle ∧ finished.phase = .done ∧ timedOut.phase = .err ∧
    sending.phase = .tx ∧ header4.phase = .rxHdr ∧ body6.phase = .rxBody := by decide

/-- A request by `SEND`, by a row of the wire and by a cycle, resets by the pin and by a cycle, and
an event that is neither. -/
theorem witness_SeqIsWrittenOnlyByRequestsAndReset :
    eventStarts (.port (.cw 0x101220001)) State.reset = true ∧
    eventStarts (.port (.fh 0xFE0000050000)) State.reset = true ∧
    eventStarts (.cycle { quietPins with cmdStrobe := true, cmdWord := 0x101220001 })
      State.reset = true ∧
    eventResets (.port (.rs 0)) = true ∧
    eventResets (.cycle { quietPins with rstN := false }) = true ∧
    eventStarts (.port (.fn (.nextSeq 0))) State.reset = false ∧
    eventResets (.port (.fn (.nextSeq 0))) = false ∧
    SeqFollowsReqSeq State.reset ∧ SeqFollowsReqSeq header4 ∧
    after (step { State.reset with sched := [.port (.cw 0x101220001)] }) =
      some { sending with txBuf := [] } := by decide

/-- `set_volume`, a payload of the first length too long, and an answer. -/
theorem witness_ExchangeEndsInItsResult :
    (StateInv { sending with phase := .idle } ∧ { sending with phase := .idle }.phase = .idle ∧
      { sending with phase := .idle }.rxQ = []) ∧
    (setVolumeRequest 0x10).payload.length < 0xF000 ∧ [0x7F].length < 0xF000 ∧ 7 < [0x7F].length + 7 ∧
    7 < (setVolumeRequest 0x10).payload.length + 7 ∧
    0xF000 ≤ (List.replicate 0xF000 (0 : Byte)).length := by
  rw [List.length_replicate]
  exact ⟨⟨inv_idle, by decide⟩, by decide⟩

theorem witness_DeadlineIsOneBudgetPerPhase :
    (⟨none, 0⟩ : Timer).phase ≠ some .rxHdr ∧ Phase.rxBody ≠ .rxHdr := by decide

end Sys2Proof.Tests
end

section
/-! PROOFS. The reads of the block, its outputs, and the order of a cycle (`10_state.md`). -/

namespace Sys2Proof.Proofs

open Sys2Proof Sys2Proof.Machine Sys2Proof.Statements

/-! ## Reads through the ports (R127, R128) -/

theorem exec_rdcsr (n : BitVec 3) (s : State) : exec (.rdcsr n) s = execRdcsr n s := rfl

theorem exec_rdrx (a : Half) (s : State) : exec (.rdrx a) s = execRdrx a s := rfl

/-- `RDCSR` returns a word exactly when that is the value of the status register. -/
theorem returns_rdcsr_iff {n : BitVec 3} {s : State} {w : Half} :
    Returns (.rdcsr n) s (.word w) ↔ csrValue s n = .ok w := by
  rw [Returns, exec_rdcsr, execRdcsr]
  cases csrValue s n <;> simp [returning]

/-- `RDRX` returns a byte exactly when that is what the window shows. -/
theorem returns_rdrx_iff {a : Half} {s : State} {v : Byte} :
    Returns (.rdrx a) s (.byte v) ↔ rdrxValue s a = .ok v := by
  rw [Returns, exec_rdrx, execRdrx]
  cases rdrxValue s a <;> simp [returning]

/-! ## The status registers (R37 to R45) -/

theorem csrValue_zero (s : State) : csrValue s 0 = .ok (statusWord s) := rfl
theorem csrValue_one (s : State) : csrValue s 1 = .ok (BitVec.ofNat 16 s.seq.toNat) := rfl
theorem csrValue_two (s : State) :
    csrValue s 2 = .ok (BitVec.ofNat 16 s.reqSeq.toNat) := rfl
theorem csrValue_three (s : State) : csrValue s 3 = .ok (countWord s) := rfl
theorem csrValue_four (s : State) : csrValue s 4 = .ok (be16 s.txType s.txCmd) := rfl
theorem csrValue_five (s : State) : csrValue s 5 = .ok s.txLen := rfl
theorem csrValue_six (s : State) : csrValue s 6 = respHdrWord s := rfl
theorem csrValue_seven (s : State) : csrValue s 7 = respLenWord s := rfl

/-- Only `CSR6` and `CSR7` read `RXBUF`, so the others have a value in every state. -/
theorem csrValue_isOk_of_le_five (s : State) {n : BitVec 3} (h : n.toNat ≤ 5) :
    ∃ w, csrValue s n = .ok w := by
  have hn : n = 0 ∨ n = 1 ∨ n = 2 ∨ n = 3 ∨ n = 4 ∨ n = 5 := by bv_omega
  rcases hn with rfl | rfl | rfl | rfl | rfl | rfl <;> exact ⟨_, rfl⟩

/-- The bytes of a `be16` word (R13). -/
theorem field_be16_high (h l : Byte) : field (be16 h l) 15 8 = h.toNat := by
  have := h.isLt; have := l.isLt
  simp only [field, be16_toNat]; omega

theorem field_be16_low (h l : Byte) : field (be16 h l) 7 0 = l.toNat := by
  have := l.isLt
  simp only [field, be16_toNat]; omega

/-! ## The level outputs (R36) -/

@[simp] theorem busy_iff {s : State} :
    busy s = true ↔ s.phase = .tx ∨ s.phase = .rxHdr ∨ s.phase = .rxBody := by
  simp [busy, or_assoc]

@[simp] theorem doneOut_iff {s : State} : doneOut s = true ↔ s.phase = .done := by simp [doneOut]

@[simp] theorem errOut_iff {s : State} : errOut s = true ↔ s.phase = .err := by simp [errOut]

@[simp] theorem irq_iff {s : State} : irq s = true ↔ s.phase = .done ∨ s.phase = .err := by
  simp [irq]

@[simp] theorem txValid_iff {s : State} : txValid s = true ↔ s.phase = .tx := by simp [txValid]

@[simp] theorem rxReady_iff {s : State} :
    rxReady s = true ↔ s.phase = .rxHdr ∨ s.phase = .rxBody := by
  simp [rxReady]

theorem txData_of_tx {s : State} (h : s.phase = .tx) : txData s = txByte s :=
  if_pos (txValid_iff.mpr h)

theorem txData_of_ne_tx {s : State} (h : s.phase ≠ .tx) : txData s = .ok 0 :=
  if_neg (mt txValid_iff.mp h)

/-! ## The fields of `CSR0` (R38) -/

/-- The fields do not overlap: the sum of R38 fits into 9 bits. -/
theorem statusWord_toNat (s : State) :
    (statusWord s).toNat = (phaseCode s.phase).toNat + 8 * (errCode s.err).toNat +
      64 * (busy s).toNat + 128 * (doneOut s).toNat + 256 * (errOut s).toNat := by
  have := (phaseCode s.phase).isLt; have := (errCode s.err).isLt
  have := (busy s).toNat_le; have := (doneOut s).toNat_le; have := (errOut s).toNat_le
  simp only [statusWord, BitVec.toNat_ofNat]; omega

/-- Each field of `CSR0` is what R38 puts there. -/
theorem statusWord_fields (s : State) :
    field (statusWord s) 2 0 = (phaseCode s.phase).toNat ∧
    field (statusWord s) 5 3 = (errCode s.err).toNat ∧
    field (statusWord s) 6 6 = (busy s).toNat ∧
    field (statusWord s) 7 7 = (doneOut s).toNat ∧
    field (statusWord s) 8 8 = (errOut s).toNat ∧
    field (statusWord s) 15 9 = 0 := by
  have := (phaseCode s.phase).isLt; have := (errCode s.err).isLt
  have := (busy s).toNat_le; have := (doneOut s).toNat_le; have := (errOut s).toNat_le
  simp only [field, statusWord_toNat]; omega

/-- Settles O10: `CSR0` is `statusWord`, whose fields do not overlap. -/
theorem statusWordFields : Obligations.StatusWordFields := by
  intro s
  obtain ⟨hphase, herr, hbusy, hdone, herrf, hrest⟩ := statusWord_fields s
  refine ⟨statusWord s, returns_rdcsr_iff.mpr (csrValue_zero s), hphase.trans ?_, herr.trans ?_,
    ?_, ?_, ?_, hrest⟩
  · cases s.phase <;> rfl
  · rcases s.err with _ | e
    · rfl
    · cases e <;> rfl
  · rw [hbusy, Bool.toNat_eq_one, busy_iff]
  · rw [hdone, Bool.toNat_eq_one, doneOut_iff]
  · rw [herrf, Bool.toNat_eq_one, errOut_iff]

/-- Settles O11: `CSR0` to `CSR5` are functions of the registers alone. -/
theorem requestStatusRegisters : Obligations.RequestStatusRegisters := by
  intro s
  refine ⟨fun n hn => ?_, returns_rdcsr_iff.mpr (csrValue_one s),
    returns_rdcsr_iff.mpr (csrValue_two s), returns_rdcsr_iff.mpr (csrValue_three s),
    ⟨be16 s.txType s.txCmd, returns_rdcsr_iff.mpr (csrValue_four s),
      field_be16_high _ _, field_be16_low _ _⟩, returns_rdcsr_iff.mpr (csrValue_five s)⟩
  obtain ⟨w, hw⟩ := csrValue_isOk_of_le_five s hn
  exact ⟨w, returns_rdcsr_iff.mpr hw⟩

/-! ## The response's registers (R44, R45) -/

theorem respHdrWord_of_ne_done {s : State} (h : s.phase ≠ .done) : respHdrWord s = .ok 0 :=
  if_neg h

theorem respLenWord_of_ne_done {s : State} (h : s.phase ≠ .done) : respLenWord s = .ok 0 :=
  if_neg h

theorem respHdrWord_of_done {s : State} (h : s.phase = .done) {t c : Byte}
    (ht : memRead s.rxBuf 1 = some t) (hc : memRead s.rxBuf 2 = some c) :
    respHdrWord s = .ok (be16 t c) := by
  simp [respHdrWord, h, readRx_eq_ok.mpr ht, readRx_eq_ok.mpr hc]

theorem respLenWord_of_done {s : State} (h : s.phase = .done) : respLenWord s = rxLen s :=
  if_pos h

/-- A captured byte is the cell's. -/
theorem captured_byte_eq {s : State} {b : List Byte} (h : captured s = some b) {i : Nat}
    (hi : i < s.rxCnt.toNat) : b[i]? = memRead s.rxBuf i := by
  simpa using (memSlice_spec h).2 i hi

/-- A valid frame declares fewer than 0xF000 payload bytes (R103). -/
theorem plenOf_lt_of_validFrame {b : List Byte} (h : validFrame b = true) {n : Half}
    (hn : plenOf b = some n) : n.toNat < 0xF000 := by
  simp only [validFrame, hn, Bool.and_eq_true, decide_eq_true_eq] at h
  obtain ⟨⟨⟨-, hlt⟩, -⟩, -⟩ := h
  exact hlt

/-- What the invariant says of the response's header in `DONE` (R34 (g)): its five bytes after the
start marker are held, the third is `REQSEQ`, and the declared length is legal. -/
theorem stateInv_done_header {s : State} (hs : StateInv s) (h : s.phase = .done) :
    ∃ t c hi lo, memRead s.rxBuf 1 = some t ∧ memRead s.rxBuf 2 = some c ∧
      memRead s.rxBuf 3 = some s.reqSeq ∧ memRead s.rxBuf 4 = some hi ∧
      memRead s.rxBuf 5 = some lo ∧ (be16 hi lo).toNat < 0xF000 := by
  obtain ⟨b, n, hb, hvalid, hseq, hlen, hcnt⟩ := hs.done h
  have hcnt : 7 ≤ s.rxCnt.toNat := hcnt ▸ Nat.le_add_left 7 n.toNat
  have hcell : ∀ i < 7, b[i]? = memRead s.rxBuf i := fun i hi =>
    captured_byte_eq hb (by omega)
  obtain ⟨t, ht⟩ := Option.isSome_iff_exists.mp (hs.capturedHeld.2 1 (by omega))
  obtain ⟨c, hc⟩ := Option.isSome_iff_exists.mp (hs.capturedHeld.2 2 (by omega))
  obtain ⟨hi, lo, hhi, hlo, -⟩ := rxLen_eq_ok.mp hlen
  refine ⟨t, c, hi, lo, ht, hc, hcell 3 (by omega) ▸ hseq, hhi, hlo, ?_⟩
  exact plenOf_lt_of_validFrame hvalid (by
    simp [plenOf, hcell 4 (by omega), hcell 5 (by omega), hhi, hlo])

/-- Settles O12, from clause (g) of the invariant. -/
theorem responseStatusRegisters : Obligations.ResponseStatusRegisters := by
  intro s hs
  refine ⟨fun h =>
    ⟨returns_rdcsr_iff.mpr ((csrValue_six s).trans (respHdrWord_of_ne_done h)),
      returns_rdcsr_iff.mpr ((csrValue_seven s).trans (respLenWord_of_ne_done h))⟩, fun h => ?_⟩
  obtain ⟨t, c, hi, lo, ht, hc, hseq, hhi, hlo, hlt⟩ := stateInv_done_header hs h
  have hhdr : csrValue s 6 = .ok (be16 t c) := by rw [csrValue_six, respHdrWord_of_done h ht hc]
  have hlen : csrValue s 7 = .ok (be16 hi lo) := by
    rw [csrValue_seven, respLenWord_of_done h]
    exact rxLen_eq_ok.mpr ⟨hi, lo, hhi, hlo, rfl⟩
  exact ⟨hseq,
    ⟨be16 t c, t, c, returns_rdcsr_iff.mpr hhdr, ht, hc,
      field_be16_high t c, field_be16_low t c⟩,
    be16 hi lo, hi, lo, returns_rdcsr_iff.mpr hlen, hhi, hlo, be16_toNat hi lo, hlt⟩

/-! ## A command word takes effect exactly when it is accepted (R36, R125) -/

/-- The outcome is a state in another phase than `p`. -/
def LeavesPhase (o : Result) (p : Phase) : Prop := ∃ t, o = .next t ∧ t.phase ≠ p

@[simp] theorem leavesPhase_next {t : State} {p : Phase} :
    LeavesPhase (.next t) p ↔ t.phase ≠ p := by
  simp [LeavesPhase]

theorem execSend_leaves_iff (t c : Byte) (n : Half) (s : State) :
    LeavesPhase (execSend t c n s) s.phase ↔ s.phase = .idle := by
  by_cases h : s.phase = .idle
  · by_cases hn : n.toNat < 0xF000
    · simp [execSend, sendRequest_accepted h t c hn, h]
    · simp [execSend, sendRequest_tooBig h t c (Nat.le_of_not_lt hn), h]
  · simp [execSend, sendRequest_dropped h, h]

theorem execAck_leaves_iff (s : State) :
    LeavesPhase (execAck s) s.phase ↔ s.phase = .done ∨ s.phase = .err := by
  unfold execAck
  cases h : s.phase <;> simp [h]

theorem execTmo_leaves_iff (s : State) :
    LeavesPhase (execTmo s) s.phase ↔ s.phase = .rxHdr ∨ s.phase = .rxBody := by
  unfold execTmo
  cases h : s.phase <;> simp [h]

theorem execFlt_leaves_iff (s : State) :
    LeavesPhase (execFlt s) s.phase ↔
      s.phase = .tx ∨ s.phase = .rxHdr ∨ s.phase = .rxBody := by
  unfold execFlt
  cases h : s.phase <;> simp [h]

/-- What a command word does, by its operation code (R72). -/
theorem runWord_cw (w : BitVec 35) (s : State) :
    runWord (.cw w) s =
      if field w 34 32 = opSend then
        execSend (BitVec.ofNat 8 (field w 31 24)) (BitVec.ofNat 8 (field w 23 16))
          (BitVec.ofNat 16 (field w 15 0)) s
      else if field w 34 32 = opAck then execAck s
      else if field w 34 32 = opTmo then execTmo s
      else if field w 34 32 = opFlt then execFlt s
      else .next s := by
  simp only [runWord, Sys2Proof.decode, decodeCommandWord]
  split_ifs <;> rfl

/-- `cmd_accept` foretells whether the word leaves the phase. -/
theorem cmdAccept_iff_leavesPhase (s : State) (w : BitVec 35) :
    cmdAccept s w = true ↔ LeavesPhase (runWord (.cw w) s) s.phase := by
  rw [runWord_cw, cmdAccept]
  split_ifs with hsend hack htmo hflt
  · simp [hsend, execSend_leaves_iff]
  · simp [hack, execAck_leaves_iff]
  · simp [htmo, execTmo_leaves_iff]
  · simp [hflt, execFlt_leaves_iff]
  · simp [accepts, hsend, hack, htmo, hflt]

/-- Settles O13, output by output. -/
theorem outputsByPhase : Obligations.OutputsByPhase := fun s p =>
  ⟨busy_iff, doneOut_iff, errOut_iff, irq_iff, txValid_iff, txData_of_ne_tx, txData_of_tx,
    rxReady_iff, cmdAccept_iff_leavesPhase s p.cmdWord⟩

/-! ## One clock cycle (R48) -/

theorem runCycle_of_reset {p : Pins} (h : p.rstN = false) (s : State) :
    runCycle p s = exec .rst s := by
  simp [runCycle, h]

theorem runCycle_of_no_reset {p : Pins} (h : p.rstN = true) (s : State) :
    runCycle p s =
      andThen (cycleCommand p s) fun s1 => andThen (cycleLink p s1) (cycleWrite p) := by
  simp [runCycle, h]

/-- The link's turn by phase: `TX` and the receiving phases exclude each other, so the order in
which they are asked does not matter. -/
theorem cycleLink_eq (p : Pins) (s : State) :
    cycleLink p s =
      if s.phase = .tx ∧ p.txReady = true then exec .txb s
      else if (s.phase = .rxHdr ∨ s.phase = .rxBody) ∧ p.rxValid = true then
        exec (.rxb p.rxData) s
      else .next s := by
  unfold cycleLink
  cases h : s.phase <;> simp [h]

/-- Settles O52: the three turns of a cycle in R48's order; the read ports look at its start. -/
theorem cycleOrder : Obligations.CycleOrder := by
  intro s p
  refine ⟨fun h => runCycle_of_reset h s, fun s1 s2 h hcommand hlink => ?_,
    fun v hv => returns_rdrx_iff.mpr hv, fun w hw => returns_rdcsr_iff.mpr hw⟩
  have hcommand : cycleCommand p s = .next s1 := hcommand
  have hlink : cycleLink p s1 = .next s2 := (cycleLink_eq p s1).trans hlink
  rw [runCycle_of_no_reset h, hcommand, andThen_next, hlink, andThen_next, cycleWrite]

end Sys2Proof.Proofs
end

section
/-! PROOFS. The two buffers seen from the host: what `WRTX` writes, what `RDRX` shows
(`20_memory.md`). -/

namespace Sys2Proof.Proofs

open Sys2Proof Sys2Proof.Machine Sys2Proof.Statements

/-! ## Writes of `TXBUF` (R51) -/

theorem exec_wrtx (a : Half) (v : Byte) (s : State) : exec (.wrtx a v) s = execWrtx a v s := rfl

theorem execWrtx_taken {a : Half} {s : State} (ha : a.toNat ≤ 0xEFFE) (h : s.phase ≠ .tx)
    (v : Byte) : execWrtx a v s = .next (writeTx a.toNat v s) :=
  if_pos ⟨Nat.lt_succ_of_le ha, h⟩

theorem execWrtx_dropped {a : Half} {s : State} (h : 0xEFFE < a.toNat ∨ s.phase = .tx)
    (v : Byte) : execWrtx a v s = .next s :=
  if_neg fun ⟨hlt, hne⟩ => h.elim (Nat.not_lt_of_le (Nat.le_of_lt_succ hlt)) hne

/-! ## The reads' operands are in `RXBUF` and the registers -/

/-- `RDRX` returns bytes only. -/
theorem returns_rdrx_iff_exists {a : Half} {s : State} {r : Ret} :
    Returns (.rdrx a) s r ↔ ∃ v, rdrxValue s a = .ok v ∧ r = .byte v := by
  rw [Returns, exec_rdrx, execRdrx]
  cases rdrxValue s a <;> simp [returning, eq_comm]

/-- `RDCSR` returns words only. -/
theorem returns_rdcsr_iff_exists {n : BitVec 3} {s : State} {r : Ret} :
    Returns (.rdcsr n) s r ↔ ∃ w, csrValue s n = .ok w ∧ r = .word w := by
  rw [Returns, exec_rdcsr, execRdcsr]
  cases csrValue s n <;> simp [returning, eq_comm]

theorem rdrxValue_txBuf (s : State) (m : Memory) (a : Half) :
    rdrxValue { s with txBuf := m } a = rdrxValue s a := rfl

theorem csrValue_txBuf (s : State) (m : Memory) (n : BitVec 3) :
    csrValue { s with txBuf := m } n = csrValue s n := rfl

/-- Settles O8: the write is `memWrite`, of which the memory laws give every cell; the values the
reads return are functions of `RXBUF` and the registers. -/
theorem wrtxWritesOneCell : Obligations.WrtxWritesOneCell := by
  intro s a v
  refine ⟨fun ha h => ⟨memWrite s.txBuf a.toNat v,
      (exec_wrtx a v s).trans (execWrtx_taken ha h v),
      memRead_memWrite_same _ _ _, fun b hb => memRead_memWrite_other _ _ hb⟩,
    fun h => (exec_wrtx a v s).trans (execWrtx_dropped h v),
    fun m r => ⟨fun b h => ?_, fun n h => ?_⟩⟩
  · rw [returns_rdrx_iff_exists] at h ⊢
    rwa [rdrxValue_txBuf]
  · rw [returns_rdcsr_iff_exists] at h ⊢
    rwa [csrValue_txBuf]

/-! ## The windows of `RDRX` (R54) -/

/-- The addresses `RDRX` shows: the response window in `DONE`, the diagnostic window in `ERR`. -/
theorem lt_windowSize_iff {s : State} {a : Nat} :
    a < windowSize s ↔
      (s.phase = .done ∧ a < s.rxCnt.toNat) ∨ (s.phase = .err ∧ a < min s.rxCnt.toNat 6) := by
  unfold windowSize
  cases s.phase <;> simp

/-- No window reaches beyond the captured bytes. -/
theorem lt_rxCnt_of_lt_windowSize {s : State} {a : Nat} (h : a < windowSize s) :
    a < s.rxCnt.toNat := by
  rcases lt_windowSize_iff.mp h with ⟨-, hlt⟩ | ⟨-, hlt⟩
  · exact hlt
  · exact hlt.trans_le (Nat.min_le_left _ _)

theorem rdrxValue_inside {s : State} {a : Half} (h : a.toNat < windowSize s) :
    rdrxValue s a = readRx s a.toNat := if_pos h

theorem rdrxValue_outside {s : State} {a : Half} (h : ¬a.toNat < windowSize s) :
    rdrxValue s a = .ok 0 := if_neg h

/-- `RDRX` returns a held cell of the window. -/
theorem returns_rdrx_inside {s : State} {a : Half} {v : Byte} (h : a.toNat < windowSize s)
    (hv : memRead s.rxBuf a.toNat = some v) : Returns (.rdrx a) s (.byte v) :=
  returns_rdrx_iff.mpr ((rdrxValue_inside h).trans (readRx_eq_ok.mpr hv))

theorem returns_rdrx_outside {s : State} {a : Half} (h : ¬a.toNat < windowSize s) :
    Returns (.rdrx a) s (.byte 0) :=
  returns_rdrx_iff.mpr (rdrxValue_outside h)

/-- The cells of a window are held in every state of the invariant (R26). -/
theorem stateInv_window_held {s : State} (hs : StateInv s) {a : Nat} (h : a < windowSize s) :
    ∃ v, memRead s.rxBuf a = some v :=
  Option.isSome_iff_exists.mp (hs.capturedHeld.2 a (lt_rxCnt_of_lt_windowSize h))

/-! ## The response in `DONE` (R34 (g), R127) -/

/-- A valid frame has its markers at offset 0 and behind its payload (R103). -/
theorem markers_of_validFrame {b : List Byte} (h : validFrame b = true) {n : Half}
    (hn : plenOf b = some n) : b[0]? = some 0xFE ∧ b[6 + n.toNat]? = some 0xFD := by
  simp only [validFrame, hn, Bool.and_eq_true, decide_eq_true_eq] at h
  obtain ⟨⟨⟨hstart, -⟩, -⟩, hend⟩ := h
  exact ⟨hstart, hend⟩

/-- The length field of the captured header is `RXLEN` (R33, R102). -/
theorem plenOf_captured {s : State} {b : List Byte} (hb : captured s = some b)
    (hcnt : 6 ≤ s.rxCnt.toNat) {n : Half} (hn : rxLen s = .ok n) : plenOf b = some n := by
  obtain ⟨hi, lo, hhi, hlo, rfl⟩ := rxLen_eq_ok.mp hn
  simp [plenOf, captured_byte_eq hb (i := 4) (by omega), captured_byte_eq hb (i := 5) (by omega),
    hhi, hlo]

/-- What `RXBUF` holds in `DONE`: `RXLEN + 7` captured bytes, the markers at their two ends, and
`REQSEQ` at offset 3. -/
theorem stateInv_done_frame {s : State} (hs : StateInv s) (h : s.phase = .done) :
    ∃ n, rxLen s = .ok n ∧ s.rxCnt.toNat = n.toNat + 7 ∧ memRead s.rxBuf 0 = some 0xFE ∧
      memRead s.rxBuf 3 = some s.reqSeq ∧ memRead s.rxBuf (6 + n.toNat) = some 0xFD := by
  obtain ⟨b, n, hb, hvalid, hseq, hlen, hcnt⟩ := hs.done h
  have hcnt : s.rxCnt.toNat = n.toNat + 7 := hcnt
  have hcell : ∀ i < n.toNat + 7, memRead s.rxBuf i = b[i]? := fun i hi =>
    (captured_byte_eq hb (by omega)).symm
  obtain ⟨hstart, hend⟩ := markers_of_validFrame hvalid (plenOf_captured hb (by omega) hlen)
  exact ⟨n, hlen, hcnt, (hcell 0 (by omega)).trans hstart, (hcell 3 (by omega)).trans hseq,
    (hcell _ (by omega)).trans hend⟩

/-- Settles O9: inside a window the captured cell is held and returned, outside it 0 is; the
corner cases are clause (g) of the invariant. -/
theorem rdrxWindows : Obligations.RdrxWindows := by
  intro s hs
  refine ⟨fun a => ?_, fun hdone => ?_⟩
  · by_cases hw : a.toNat < windowSize s
    · obtain ⟨v, hv⟩ := stateInv_window_held hs hw
      exact ⟨v, returns_rdrx_inside hw hv, fun _ _ => hv, fun _ _ => hv,
        fun hnotDone hnotErr => ((lt_windowSize_iff.mp hw).elim hnotDone hnotErr).elim⟩
    · have hout := mt lt_windowSize_iff.mpr hw
      exact ⟨0, returns_rdrx_outside hw, fun hp ha => absurd (.inl ⟨hp, ha⟩) hout,
        fun hp ha => absurd (.inr ⟨hp, ha⟩) hout, fun _ _ => rfl⟩
  · obtain ⟨n, hlen, hcnt, hstart, hseq, hend⟩ := stateInv_done_frame hs hdone
    have hshown : ∀ {a : Half} {v : Byte}, a.toNat < n.toNat + 7 →
        memRead s.rxBuf a.toNat = some v → Returns (.rdrx a) s (.byte v) := fun ha =>
      returns_rdrx_inside (lt_windowSize_iff.mpr (.inl ⟨hdone, hcnt ▸ ha⟩))
    have hlast : (BitVec.ofNat 16 (6 + n.toNat)).toNat = 6 + n.toNat := by
      have := s.rxCnt.isLt
      rw [BitVec.toNat_ofNat]; omega
    exact ⟨n, hlen, hcnt, hshown (Nat.succ_pos _) hstart,
      hshown (Nat.lt_add_left n.toNat (by decide : 3 < 7)) hseq,
      hshown (by omega) (hlast.symm ▸ hend)⟩

end Sys2Proof.Proofs
end

section
/-! PROOFS. The codec functions: what each answers, and which buffers `VALID` accepts
(`40_codec.md`). -/

namespace Sys2Proof.Proofs

open Sys2Proof Sys2Proof.Machine Sys2Proof.Statements

/-! ## The declared length of a buffer (R102) -/

/-- Only the two length bytes matter. -/
theorem declared_congr {b b' : List Byte} (h4 : b[4]? = b'[4]?) (h5 : b[5]? = b'[5]?) :
    declared b = declared b' := by
  simp only [declared, List.getD_eq_getElem?_getD, h4, h5]

/-- `PLEN` is the declared length of a buffer with a header. -/
theorem plenOf_of_header {b : List Byte} (h : 6 ≤ b.length) :
    ∃ n, plenOf b = some n ∧ n.toNat = declared b := by
  have h4 : b[4]? = some b[4] := List.getElem?_eq_getElem (by omega)
  have h5 : b[5]? = some b[5] := List.getElem?_eq_getElem (by omega)
  exact ⟨be16 b[4] b[5], by simp [plenOf, h4, h5],
    by simp [be16_toNat, declared, List.getD_eq_getElem?_getD, h4, h5]⟩

theorem plenOf_of_short {b : List Byte} (h : b.length < 6) : plenOf b = none := by
  have h5 : b[5]? = none := List.getElem?_eq_none (by omega)
  unfold plenOf
  cases b[4]? <;> simp [h5]

/-! ## `VALID` (R103, R107) -/

/-- `VALID` is the conditions of R103. -/
theorem validFrame_iff {b : List Byte} : validFrame b = true ↔ FourConditions b := by
  by_cases h : 6 ≤ b.length
  · obtain ⟨n, hn, hdeclared⟩ := plenOf_of_header h
    simp [validFrame, FourConditions, hn, hdeclared, h, and_assoc]
  · simp [validFrame, FourConditions, plenOf_of_short (Nat.lt_of_not_le h), h]

theorem validFrame_eq_false_iff {b : List Byte} : validFrame b = false ↔ ¬FourConditions b := by
  rw [← validFrame_iff, Bool.not_eq_true]

/-- A valid buffer with which another valid one begins is all of it: they share the header, so they
declare the same length. -/
theorem eq_of_prefix_of_fourConditions {b b' : List Byte} (hp : b' <+: b) (hb' : FourConditions b')
    (hb : FourConditions b) : b' = b := by
  obtain ⟨hheader', -, -, hlen', -⟩ := hb'
  obtain ⟨-, -, -, hlen, -⟩ := hb
  have hcell : ∀ i < 6, b'[i]? = b[i]? := fun i hi => by
    obtain ⟨x, rfl⟩ := hp
    exact (List.getElem?_append_left (by omega)).symm
  have hdeclared : declared b' = declared b :=
    declared_congr (hcell 4 (by omega)) (hcell 5 (by omega))
  exact hp.eq_of_length (by rw [hlen', hlen, hdeclared])

theorem not_fourConditions_set_start {b : List Byte} (hb : FourConditions b) {v : Byte}
    (hv : v ≠ 0xFE) : ¬FourConditions (b.set 0 v) := by
  rintro ⟨-, hstart, -⟩
  obtain ⟨hheader, -⟩ := hb
  rw [List.getElem?_set_self (by omega), Option.some_inj] at hstart
  exact hv hstart

/-- The end marker stands behind the header, so another byte there leaves the declared length. -/
theorem not_fourConditions_set_end {b : List Byte} (hb : FourConditions b) {v : Byte}
    (hv : v ≠ 0xFD) : ¬FourConditions (b.set (6 + declared b) v) := by
  rintro ⟨-, -, -, -, hend⟩
  obtain ⟨-, -, -, hlen, -⟩ := hb
  have hdeclared : declared (b.set (6 + declared b) v) = declared b :=
    declared_congr (List.getElem?_set_ne (by omega)) (List.getElem?_set_ne (by omega))
  rw [hdeclared, List.getElem?_set_self (by omega), Option.some_inj] at hend
  exact hv hend

theorem declared_set_length {b : List Byte} (h : 6 ≤ b.length) (hi lo : Byte) :
    declared ((b.set 4 hi).set 5 lo) = hi.toNat * 256 + lo.toNat := by
  have h4 : 4 < b.length := by omega
  have h5 : 5 < b.length := by omega
  simp [declared, List.getD_eq_getElem?_getD, h4, h5]

/-- The buffer's length fixes the declared one, and that its two bytes. -/
theorem not_fourConditions_set_length {b : List Byte} (hb : FourConditions b) {hi lo : Byte}
    (hne : ¬(b[4]? = some hi ∧ b[5]? = some lo)) :
    ¬FourConditions ((b.set 4 hi).set 5 lo) := by
  rintro ⟨-, -, -, hlen', -⟩
  obtain ⟨hheader, -, -, hlen, -⟩ := hb
  rw [declared_set_length hheader, List.length_set, List.length_set] at hlen'
  have h4 : b[4]? = some b[4] := List.getElem?_eq_getElem (by omega)
  have h5 : b[5]? = some b[5] := List.getElem?_eq_getElem (by omega)
  have hsame : b[4].toNat * 256 + b[5].toNat = hi.toNat * 256 + lo.toNat := by
    simp only [declared, List.getD_eq_getElem?_getD, h4, h5, Option.getD_some] at hlen
    omega
  have hhi : b[4] = hi := by bv_omega
  have hlo : b[5] = lo := by bv_omega
  exact hne ⟨hhi ▸ h4, hlo ▸ h5⟩

/-- Settles O42: each alteration breaks one of the conditions. -/
theorem alteredFramesAreRejected : Obligations.AlteredFramesAreRejected := by
  intro b
  refine ⟨validFrame_iff, fun hvalid => ?_⟩
  simp only [validFrame_eq_false_iff]
  have hb : FourConditions b := validFrame_iff.mp hvalid
  refine ⟨fun v => not_fourConditions_set_start hb, fun v => not_fourConditions_set_end hb,
    fun hi lo => not_fourConditions_set_length hb, fun k hk h => ?_, fun x hx h => ?_⟩
  · have heq := eq_of_prefix_of_fourConditions (List.take_prefix k b) h hb
    exact absurd (List.take_eq_self_iff b |>.mp heq) (Nat.not_le_of_lt hk)
  · have heq := eq_of_prefix_of_fourConditions (List.prefix_append b x) hb h
    exact hx (List.self_eq_append_right.mp heq)

/-! ## `ENCODE` and the frame it builds (R101) -/

theorem encodeFrame_eq_frameOf (t c q : Byte) {p : List Byte} (h : p.length < 0xF000) :
    encodeFrame t c q p = .ok (frameOf t c q p) := by
  have hn : (BitVec.ofNat 16 p.length).toNat = p.length := by
    rw [BitVec.toNat_ofNat]; omega
  rw [encodeFrame, if_neg (Nat.not_le_of_lt h), headerBytes, hi8, lo8, hn, frameOf]

theorem encodeFrame_tooBig (t c q : Byte) {p : List Byte} (h : 0xF000 ≤ p.length) :
    encodeFrame t c q p = .error .tooBig := if_pos h

theorem length_frameOf (t c q : Byte) (p : List Byte) :
    (frameOf t c q p).length = p.length + 7 := by
  simp [frameOf]

theorem declared_frameOf (t c q : Byte) {p : List Byte} (h : p.length < 0xF000) :
    declared (frameOf t c q p) = p.length := by
  simp [declared, frameOf]; omega

/-- What `ENCODE` builds is a valid frame. -/
theorem fourConditions_frameOf (t c q : Byte) {p : List Byte} (h : p.length < 0xF000) :
    FourConditions (frameOf t c q p) := by
  rw [FourConditions, declared_frameOf t c q h, length_frameOf]
  exact ⟨by omega, rfl, h, rfl, by simp [frameOf, Nat.add_comm 6]⟩

/-! ## `DECODE` (R104, R106) -/

theorem decodeFrame_malformed {b : List Byte} (hlen : 1 ≤ b.length) (h : b[0]? ≠ some 0xFE) :
    decodeFrame b = .error .malformed := if_pos ⟨hlen, h⟩

theorem decodeFrame_invalid {b : List Byte} (hstart : ¬(1 ≤ b.length ∧ b[0]? ≠ some 0xFE))
    (h : ¬FourConditions b) : decodeFrame b = .error .invalid := by
  rw [decodeFrame, if_neg hstart, if_neg (mt validFrame_iff.mp h)]

theorem decodeFrame_valid {b : List Byte} (h : FourConditions b) :
    decodeFrame b = .ok (frameFields b) := by
  obtain ⟨-, hstart, -⟩ := id h
  rw [decodeFrame, if_neg fun ⟨_, hwrong⟩ => hwrong hstart, if_pos (validFrame_iff.mpr h)]

theorem frameFields_of_plenOf {b : List Byte} {n : Half} (h : plenOf b = some n) :
    frameFields b =
      ⟨b.getD 1 0, b.getD 2 0, b.getD 3 0, n, (b.drop 6).take n.toNat⟩ := by
  rw [frameFields, h]; rfl

/-- The fields of the frame `ENCODE` builds are its operands. -/
theorem frameFields_frameOf (t c q : Byte) {p : List Byte} (h : p.length < 0xF000) :
    ∃ n, frameFields (frameOf t c q p) = ⟨t, c, q, n, p⟩ ∧ n.toNat = p.length := by
  have hheader : 6 ≤ (frameOf t c q p).length := by rw [length_frameOf]; omega
  obtain ⟨n, hn, hdeclared⟩ := plenOf_of_header hheader
  rw [declared_frameOf t c q h] at hdeclared
  refine ⟨n, ?_, hdeclared⟩
  rw [frameFields_of_plenOf hn, hdeclared]
  simp [frameOf]

/-- Settles O41: `ENCODE` builds a valid frame, and `DECODE` of one gives its fields. -/
theorem codecRoundTrip : Obligations.CodecRoundTrip := by
  intro t c q p h
  have hfour := fourConditions_frameOf t c q h
  obtain ⟨n, hfields, hn⟩ := frameFields_frameOf t c q h
  exact ⟨frameOf t c q p, n, encodeFrame_eq_frameOf t c q h, validFrame_iff.mpr hfour,
    (decodeFrame_valid hfour).trans (congrArg _ hfields), hn⟩

/-! ## The codec functions as operations -/

theorem exec_encode (t c q : Byte) (p : List Byte) (s : State) :
    exec (.encode t c q p) s = execEncode t c q p s := rfl

theorem exec_valid (b : List Byte) (s : State) : exec (.valid b) s = execValid b s := rfl

theorem exec_decode (b : List Byte) (s : State) : exec (.decode b) s = execDecode b s := rfl

/-- `ENCODE` returns the frame or the failure. -/
theorem returns_encode_of_ok {t c q : Byte} {p b : List Byte} (h : encodeFrame t c q p = .ok b)
    (s : State) : Returns (.encode t c q p) s (.encoded b) := by
  rw [Returns, exec_encode, execEncode, h]; rfl

theorem returns_encode_of_error {t c q : Byte} {p : List Byte} {e : ErrKind}
    (h : encodeFrame t c q p = .error e) (s : State) :
    Returns (.encode t c q p) s (.failed e) := by
  rw [Returns, exec_encode, execEncode, h]; rfl

theorem returns_valid (b : List Byte) (s : State) :
    Returns (.valid b) s (.truth (validFrame b)) := exec_valid b s

/-- `DECODE` returns the frame's fields or the failure, and then no field. -/
theorem returns_decode_of_ok {b : List Byte} {f : Frame} (h : decodeFrame b = .ok f) (s : State) :
    Returns (.decode b) s (.decoded f) := by
  rw [Returns, exec_decode, execDecode, h]; rfl

theorem returns_decode_of_error {b : List Byte} {e : ErrKind} (h : decodeFrame b = .error e)
    (s : State) : Returns (.decode b) s (.failed e) := by
  rw [Returns, exec_decode, execDecode, h]; rfl

/-- Settles O36: the bound of R101 is exclusive. -/
theorem encodeBuildsTheFrame : Obligations.EncodeBuildsTheFrame := fun s t c q _ =>
  ⟨fun h => returns_encode_of_ok (encodeFrame_eq_frameOf t c q h) s,
    fun h => returns_encode_of_error (encodeFrame_tooBig t c q h) s⟩

/-- Settles O38: `VALID` completes with `validFrame`, which is the conditions. -/
theorem validIsTheFourConditions : Obligations.ValidIsTheFourConditions := fun s b =>
  ⟨validFrame b, returns_valid b s, validFrame_iff⟩

/-- The bytes behind the header of a valid frame, up to the end marker, are its payload. -/
theorem length_payload_of_fourConditions {b : List Byte} (h : FourConditions b) :
    ((b.drop 6).take (declared b)).length = declared b := by
  obtain ⟨-, -, -, hlen, -⟩ := h
  rw [List.length_take, List.length_drop]; omega

/-- Settles O39: the start marker is tested first, then `VALID`, then the fields are taken. -/
theorem decodeValidatesThenExtracts : Obligations.DecodeValidatesThenExtracts := by
  intro s b
  refine ⟨fun hlen h => returns_decode_of_error (decodeFrame_malformed hlen h) s,
    fun hstart h => returns_decode_of_error (decodeFrame_invalid hstart h) s, fun h => ?_⟩
  obtain ⟨hheader, -⟩ := id h
  obtain ⟨n, hn, hdeclared⟩ := plenOf_of_header hheader
  have hcell : ∀ i < 6, b[i]? = some (b.getD i 0) := fun i hi => by
    rw [List.getD_eq_getElem _ _ (by omega), List.getElem?_eq_getElem]
  have hp := length_payload_of_fourConditions h
  rw [← hdeclared] at hp
  refine ⟨_, _, _, n, _, returns_decode_of_ok
      ((decodeFrame_valid h).trans (congrArg _ (frameFields_of_plenOf hn))) s,
    hcell 1 (by omega), hcell 2 (by omega), hcell 3 (by omega), hdeclared, hp.trans hdeclared,
    fun k hk => ?_⟩
  rw [List.getElem?_take_of_lt (hp ▸ hk), List.getElem?_drop]

end Sys2Proof.Proofs
end

section
/-! PROOFS. The host's commands: what each does by phase, which words are accepted, and what leads
out of `ERR` (`41_host_ops.md`). -/

namespace Sys2Proof.Proofs

open Sys2Proof Sys2Proof.Machine Sys2Proof.Statements

/-! ## Each command by phase (R121 to R124) -/

theorem dropped_send {s : State} (h : s.phase ≠ .idle) (t c : Byte) (n : Half) :
    Dropped (.send t c n) s :=
  congrArg _ (sendRequest_dropped h t c n)

theorem exec_ack_accepted {s : State} (h : s.phase = .done ∨ s.phase = .err) :
    exec .ack s = .next (returnToIdle s) := by
  simp [exec, execAck, h]

theorem dropped_ack {s : State} (h : ¬(s.phase = .done ∨ s.phase = .err)) : Dropped .ack s := by
  simp [Dropped, exec, execAck, h]

theorem exec_tmo_accepted {s : State} (h : s.phase = .rxHdr ∨ s.phase = .rxBody) :
    exec .tmo s = .next (raiseErr .timeout s) := by
  simp [exec, execTmo, h]

theorem dropped_tmo {s : State} (h : ¬(s.phase = .rxHdr ∨ s.phase = .rxBody)) :
    Dropped .tmo s := by
  simp [Dropped, exec, execTmo, h]

theorem exec_flt_accepted {s : State}
    (h : s.phase = .tx ∨ s.phase = .rxHdr ∨ s.phase = .rxBody) :
    exec .flt s = .next (raiseErr .io s) := by
  simp [exec, execFlt, h]

theorem dropped_flt {s : State} (h : ¬(s.phase = .tx ∨ s.phase = .rxHdr ∨ s.phase = .rxBody)) :
    Dropped .flt s := by
  simp [Dropped, exec, execFlt, h]

/-! ## The acceptance table (R125) -/

/-- Nothing stands above the operation code of a command word (R71). -/
theorem field_op_eq_div (w : BitVec 35) : field w 34 32 = w.toNat / 2 ^ 32 := by
  have := w.isLt
  simp only [field]; omega

/-- The table, row by row. -/
theorem accepts_iff {op : Nat} {p : Phase} :
    accepts op p = true ↔
      (op = 1 ∧ p = .idle) ∨ (op = 2 ∧ (p = .done ∨ p = .err)) ∨
      (op = 3 ∧ (p = .rxHdr ∨ p = .rxBody)) ∨
      (op = 4 ∧ (p = .tx ∨ p = .rxHdr ∨ p = .rxBody)) := by
  unfold accepts
  split_ifs with hsend hack htmo hflt
  · simp [show op = 1 from hsend]
  · simp [show op = 2 from hack]
  · simp [show op = 3 from htmo]
  · simp [show op = 4 from hflt, or_assoc]
  · simp [show op ≠ 1 from hsend, show op ≠ 2 from hack, show op ≠ 3 from htmo,
      show op ≠ 4 from hflt]

/-- A word that `cmd_accept` does not accept is dropped, by its operation code (R120, R72). -/
theorem runWord_cw_dropped {s : State} {w : BitVec 35} (h : cmdAccept s w = false) :
    runWord (.cw w) s = .next s := by
  rw [runWord_cw]
  rw [cmdAccept] at h
  split_ifs with hsend hack htmo hflt
  · exact dropped_send (by simpa [hsend] using h) _ _ _
  · exact dropped_ack (by simpa [hack] using h)
  · exact dropped_tmo (by simpa [htmo] using h)
  · exact dropped_flt (by simpa [hflt] using h)
  · rfl

/-- Settles O7: an accepted word leaves the phase (`cmdAccept_iff_leavesPhase`), and any other is
dropped. -/
theorem commandAcceptanceTable : Obligations.CommandAcceptanceTable := fun s w =>
  ⟨by rw [cmdAccept, field_op_eq_div, accepts_iff], (cmdAccept_iff_leavesPhase s w).mp,
    runWord_cw_dropped⟩

/-! ## `SEND`, `TMO` and `FLT` -/

/-- Settles O3, by the three cases of `sendRequest`. -/
theorem sendByPhaseAndLength : Obligations.SendByPhaseAndLength := fun _ t c n =>
  ⟨fun h hn => congrArg _ (sendRequest_accepted h t c hn),
    fun h hn => congrArg _ (sendRequest_tooBig h t c hn),
    fun h => dropped_send h t c n⟩

/-- Settles O5: in `ERR` the captured bytes stand in the diagnostic window. -/
theorem tmoRaisesTimeout : Obligations.TmoRaisesTimeout := fun _ =>
  ⟨fun h => ⟨exec_tmo_accepted h, fun _ _ ha hv =>
      returns_rdrx_inside (lt_windowSize_iff.mpr (.inr ⟨rfl, ha⟩)) hv⟩,
    fun hhdr hbody => dropped_tmo (not_or.mpr ⟨hhdr, hbody⟩)⟩

/-- Settles O6: the phases in which `FLT` is dropped are the other three. -/
theorem fltRaisesIoError : Obligations.FltRaisesIoError := fun _ =>
  ⟨exec_flt_accepted, fun h => dropped_flt (by rcases h with h | h | h <;> simp [h])⟩

/-! ## What leads out of `ERR` (R122) -/

theorem dropped_txb {s : State} (h : s.phase ≠ .tx) : Dropped .txb s :=
  if_neg (mt txValid_iff.mp h)

theorem dropped_rxb {s : State} (h : ¬(s.phase = .rxHdr ∨ s.phase = .rxBody)) (b : Byte) :
    Dropped (.rxb b) s :=
  if_neg (mt rxReady_iff.mp h)

/-- A row of the wire carries a request of its type, command and length (log entry 6). -/
theorem exec_of_isWireRow {i : Instr} (h : isWireRow i = true) :
    ∃ t c n, ∀ s, exec i s = carryRequest t c n s := by
  cases i with
  | frame t c q n => exact ⟨t, c, n, fun _ => rfl⟩
  | familySystem c q n => exact ⟨_, c, n, fun _ => rfl⟩
  | familyStream c q n => exact ⟨_, c, n, fun _ => rfl⟩
  | familyClock c q n => exact ⟨_, c, n, fun _ => rfl⟩
  | familyMetadata c q n => exact ⟨_, c, n, fun _ => rfl⟩
  | familyNotification c q n => exact ⟨_, c, n, fun _ => rfl⟩
  | familyGpio c q n => exact ⟨_, c, n, fun _ => rfl⟩
  | readinessCheck q n => exact ⟨_, _, n, fun _ => rfl⟩
  | play q n => exact ⟨_, _, n, fun _ => rfl⟩
  | getPlayStatus q n => exact ⟨_, _, n, fun _ => rfl⟩
  | setStereoMode q n => exact ⟨_, _, n, fun _ => rfl⟩
  | setVolume q n => exact ⟨_, _, n, fun _ => rfl⟩
  | getClock q n => exact ⟨_, _, n, fun _ => rfl⟩
  | getAppData q n => exact ⟨_, _, n, fun _ => rfl⟩
  | _ => cases h

theorem dropped_wireRow {i : Instr} (hi : isWireRow i = true) {s : State} (h : s.phase ≠ .idle) :
    Dropped i s := by
  obtain ⟨t, c, n, hrow⟩ := exec_of_isWireRow hi
  simp [Dropped, hrow, carryRequest, h]

/-- Every codec function but `NEXTSEQ` completes with its value and changes no register. -/
theorem codec_returns {i : Instr} {c : CodecCall} (hi : encode i = .fn c) (hn : i ≠ .nextSeq)
    (s : State) : ∃ r, Returns i s r := by
  cases i with
  | nextSeq => exact absurd rfl hn
  | encode t c q p =>
    cases hb : encodeFrame t c q p with
    | ok b => exact ⟨_, returns_encode_of_ok hb s⟩
    | error e => exact ⟨_, returns_encode_of_error hb s⟩
  | pLen b =>
    cases hb : plenOf b with
    | some n => exact ⟨.length n, by simp [Returns, exec, execPLen, hb, returning]⟩
    | none => exact ⟨.length (Config.plenOfShortBuffer b), by
        simp [Returns, exec, execPLen, hb, returning]⟩
  | valid b => exact ⟨_, returns_valid b s⟩
  | decode b =>
    cases hb : decodeFrame b with
    | ok f => exact ⟨_, returns_decode_of_ok hb s⟩
    | error e => exact ⟨_, returns_decode_of_error hb s⟩
  | chkSeq t c q n => exact ⟨_, rfl⟩
  | _ => cases hi

theorem phase_of_returns {i : Instr} {s t : State} {r : Ret} (hr : Returns i s r)
    (h : exec i s = .next t) : t.phase = s.phase := by
  cases hr.symm.trans h; rfl

theorem phase_of_dropped {i : Instr} {s t : State} (hd : Dropped i s) (h : exec i s = .next t) :
    t.phase = s.phase :=
  phase_of_returns (r := s.ret) hd h

theorem phase_of_exec_codec {i : Instr} {c : CodecCall} (hi : encode i = .fn c) {s t : State}
    (h : exec i s = .next t) : t.phase = s.phase := by
  by_cases hn : i = .nextSeq
  · subst hn; cases h; rfl
  · obtain ⟨r, hr⟩ := codec_returns hi hn s
    exact phase_of_returns hr h

theorem phase_of_exec_rdrx {a : Half} {s t : State} (h : exec (.rdrx a) s = .next t) :
    t.phase = s.phase := by
  obtain ⟨v, -, ht⟩ := withValue_eq_next.mp h
  cases ht; rfl

theorem phase_of_exec_rdcsr {n : BitVec 3} {s t : State} (h : exec (.rdcsr n) s = .next t) :
    t.phase = s.phase := by
  obtain ⟨w, -, ht⟩ := withValue_eq_next.mp h
  cases ht; rfl

theorem phase_of_exec_wrtx {a : Half} {v : Byte} {s t : State}
    (h : exec (.wrtx a v) s = .next t) : t.phase = s.phase := by
  rw [exec_wrtx, execWrtx] at h
  split at h <;> cases h <;> rfl

/-- In `ERR` only `ACK` and `RST` change the phase: the other commands, the link's operations and
the rows of the wire are dropped there, and reads, writes and codec functions change it nowhere. -/
theorem phase_of_exec_of_err {i : Instr} {s t : State} (hp : s.phase = .err) (hack : i ≠ .ack)
    (hrst : i ≠ .rst) (h : exec i s = .next t) : t.phase = s.phase := by
  by_cases hrow : isWireRow i = true
  · exact phase_of_dropped (dropped_wireRow hrow (by simp [hp])) h
  · cases i with
    | ack => exact absurd rfl hack
    | rst => exact absurd rfl hrst
    | send y c n => exact phase_of_dropped (dropped_send (by simp [hp]) y c n) h
    | tmo => exact phase_of_dropped (dropped_tmo (by simp [hp])) h
    | flt => exact phase_of_dropped (dropped_flt (by simp [hp])) h
    | txb => exact phase_of_dropped (dropped_txb (by simp [hp])) h
    | rxb b => exact phase_of_dropped (dropped_rxb (by simp [hp]) b) h
    | wrtx a v => exact phase_of_exec_wrtx h
    | rdrx a => exact phase_of_exec_rdrx h
    | rdcsr n => exact phase_of_exec_rdcsr h
    | nextSeq => exact phase_of_exec_codec rfl h
    | encode y c q p => exact phase_of_exec_codec rfl h
    | pLen b => exact phase_of_exec_codec rfl h
    | valid b => exact phase_of_exec_codec rfl h
    | decode b => exact phase_of_exec_codec rfl h
    | chkSeq y c q n => exact phase_of_exec_codec rfl h
    | _ => exact absurd rfl hrow

/-- Outside `DONE` and `ERR` both windows are closed (R54). -/
theorem returns_rdrx_zero_of_idle {s : State} (h : s.phase = .idle) (a : Half) :
    Returns (.rdrx a) s (.byte 0) :=
  returns_rdrx_outside (by simp [lt_windowSize_iff, h])

/-- Settles O4: the windows are closed in `IDLE`, and only `ACK` and `RST` lead out of `ERR`. -/
theorem ackReturnsToIdle : Obligations.AckReturnsToIdle := fun _ =>
  ⟨fun h => ⟨exec_ack_accepted h, returns_rdrx_zero_of_idle rfl⟩,
    fun hdone herr => dropped_ack (not_or.mpr ⟨hdone, herr⟩),
    fun hp i t hack hrst h => by
      rw [phase_of_exec_of_err hp hack hrst h, hp]
      simp⟩

end Sys2Proof.Proofs
end

section
/-! PROOFS. The link's operations: what `TXB` hands over, and where it leads (`42_link_ops.md`). -/

namespace Sys2Proof.Proofs

open Sys2Proof Sys2Proof.Machine Sys2Proof.Statements

/-! ## `TxByte` (R140) -/

/-- `TxByte` with 0 for a payload cell that was never written: R140's byte without the fault. -/
def byteDue (s : State) : Byte :=
  let i := s.txIdx.toNat
  if i = 0 then Config.startMarker
  else if i = 1 then s.txType
  else if i = 2 then s.txCmd
  else if i = 3 then s.reqSeq
  else if i = 4 then hi8 s.txLen
  else if i = 5 then lo8 s.txLen
  else if i < Config.headerLen + s.txLen.toNat then
    (memRead s.txBuf (i - Config.headerLen)).getD 0
  else Config.endMarker

theorem readTx_of_written {s : State} {a : Nat} (h : memRead s.txBuf a ≠ none) :
    readTx s a = .ok ((memRead s.txBuf a).getD 0) := by
  obtain ⟨v, hv⟩ := Option.ne_none_iff_exists'.mp h
  rw [readTx_eq_ok, hv, Option.getD_some]

/-- Only a payload byte is read from `TXBUF`, so `TxByte` has a value unless that cell is
unwritten. -/
theorem txByte_eq_ok_byteDue {s : State}
    (hwritten : 6 ≤ s.txIdx.toNat → s.txIdx.toNat < 6 + s.txLen.toNat →
      memRead s.txBuf (s.txIdx.toNat - 6) ≠ none) :
    txByte s = .ok (byteDue s) := by
  dsimp only [txByte, byteDue]
  split_ifs with h0 h1 h2 h3 h4 h5 hpayload
  iterate 6 rfl
  · exact readTx_of_written (hwritten (by omega) hpayload)
  · rfl

/-! ## One `TXB` (R141) -/

theorem exec_txb (s : State) : exec .txb s = handOver s := rfl

theorem handOver_of_txByte {s : State} (h : s.phase = .tx) {b : Byte} (hb : txByte s = .ok b) :
    handOver s = .next (advanceTx { s with txQ := s.txQ ++ [b] }) := by
  rw [handOver, if_pos (txValid_iff.mpr h), hb, withValue_ok]

/-- After the end marker the response is due, otherwise the next request byte. -/
theorem advanceTx_of_tx {s : State} (h : s.phase = .tx) :
    advanceTx s = { s with
      txIdx := if s.txIdx.toNat = 6 + s.txLen.toNat then 0 else s.txIdx + 1,
      phase := if s.txIdx.toNat = 6 + s.txLen.toNat then .rxHdr else .tx } := by
  unfold advanceTx
  split_ifs
  · rfl
  · rw [← h]

/-- Settles O14: `TxByte` has the value `byteDue`, and `advanceTx` makes the step. -/
theorem txbHandsOverTxByte : Obligations.TxbHandsOverTxByte := by
  refine fun s => ⟨fun h hwritten => ?_, dropped_txb⟩
  rw [exec_txb, handOver_of_txByte h (txByte_eq_ok_byteDue hwritten), advanceTx_of_tx (by exact h)]
  rfl

end Sys2Proof.Proofs
end

section
/-! PROOFS. A command and a link byte in one cycle (`60_exceptions.md` §4). -/

namespace Sys2Proof.Proofs

open Sys2Proof Sys2Proof.Machine Sys2Proof.Statements

/-! ## The turns of a cycle (R48) -/

theorem cycleCommand_of_decode {p : Pins} (h : p.cmdStrobe = true) {i : Instr}
    (hd : decode (.cw p.cmdWord) = .ok i) (s : State) : cycleCommand p s = exec i s := by
  rw [cycleCommand, if_pos h, runWord, hd]
  exact runOperation_port (by simp) i s

/-- In `ERR` neither `TXB` nor `RXB` is enabled, whatever the link offers. -/
theorem cycleLink_of_err {s : State} (h : s.phase = .err) (p : Pins) :
    cycleLink p s = .next s := by
  simp [cycleLink_eq, h]

/-- Outside `TX` the payload write changes its one cell, if that lies inside the buffer (R51). -/
theorem cycleWrite_of_ne_tx {s : State} (h : s.phase ≠ .tx) (p : Pins) :
    cycleWrite p s = .next { s with
      txBuf :=
        if p.txbufWe = true ∧ p.txbufAddr.toNat < 0xEFFF then
          memWrite s.txBuf p.txbufAddr.toNat p.txbufWdata
        else s.txBuf } := by
  rw [cycleWrite, exec_wrtx]
  by_cases hwe : p.txbufWe = true
  · by_cases ha : p.txbufAddr.toNat < 0xEFFF
    · rw [if_pos hwe, execWrtx_taken (Nat.le_of_lt_succ ha) h, if_pos ⟨hwe, ha⟩, writeTx]
    · rw [if_pos hwe, execWrtx_dropped (.inl (by omega)), if_neg (mt And.right ha)]
  · rw [if_neg hwe, if_neg (mt And.left hwe)]

/-! ## The command wins (R191) -/

/-- A command that raises an error in its cycle leaves the link without a turn, so of the rest of the
cycle only the payload write counts. -/
theorem runCycle_of_command_raises {p : Pins} {s : State} {e : ErrKind} (hrst : p.rstN = true)
    (h : cycleCommand p s = .next (raiseErr e s)) :
    runCycle p s = cycleWrite p (raiseErr e s) := by
  rw [runCycle_of_no_reset hrst, h, andThen_next, cycleLink_of_err (raiseErr_phase e s),
    andThen_next]

/-- Settles O53: `TMO` and `FLT` are accepted in the receiving phases, and in `ERR` the byte is not
taken. -/
theorem commandBeatsTheByteOfItsCycle : Obligations.CommandBeatsTheByteOfItsCycle := by
  intro s p e hrst hstrobe hphase _ hcommand
  have hraises : cycleCommand p s = .next (raiseErr e s) := by
    rcases hcommand with ⟨hd, rfl⟩ | ⟨hd, rfl⟩
    · rw [cycleCommand_of_decode hstrobe hd, exec_tmo_accepted hphase]
    · rw [cycleCommand_of_decode hstrobe hd, exec_flt_accepted (.inr hphase)]
  rw [runCycle_of_command_raises hrst hraises, cycleWrite_of_ne_tx (by simp)]
  rfl

end Sys2Proof.Proofs
end

section
/-! PROOFS. Reset (`70_reset_and_hazards.md` §1). -/

namespace Sys2Proof.Proofs

open Sys2Proof Sys2Proof.Machine Sys2Proof.Statements

/-- `RST` reads nothing of the state it resets, so no phase drops it (R220). -/
theorem exec_rst (s : State) :
    exec .rst s = .next { s with
      phase := .idle, err := none, seq := 0, reqSeq := 0, txType := 0, txCmd := 0, txLen := 0,
      txIdx := 0, rxCnt := 0 } := rfl

/-- Settles O1: `RST` completes in every state, and with `rst_n = 0` a cycle has no other turn. -/
theorem rstResetsRegistersInEveryPhase : Obligations.RstResetsRegistersInEveryPhase :=
  fun s _ => ⟨exec_rst s, fun hreset => runCycle_of_reset hreset s⟩

end Sys2Proof.Proofs
end

section
/-! PROOFS. Runs of `TXB`, and the rows of the wire: which bytes reach the link, and where a run
stops (`42_link_ops.md` §1, `30_encoding.md` §7). -/

namespace Sys2Proof.Proofs

open Sys2Proof Sys2Proof.Machine Sys2Proof.Statements

/-! ## Where `TxByte` has no value (R52, U5) -/

theorem readTx_eq_error {s : State} {a : Nat} {f : Fault} :
    readTx s a = .error f ↔ memRead s.txBuf a = none ∧ f = .txBufUnwritten a := by
  unfold readTx
  cases memRead s.txBuf a <;> simp [eq_comm]

/-- `TxByte` is missing exactly at a payload offset whose cell holds no value. -/
theorem txByte_eq_error {s : State} {f : Fault} :
    txByte s = .error f ↔ ∃ a, f = .txBufUnwritten a ∧ s.txIdx.toNat = a + 6 ∧
      a < s.txLen.toNat ∧ memRead s.txBuf a = none := by
  by_cases hpayload : 6 ≤ s.txIdx.toNat ∧ s.txIdx.toNat < 6 + s.txLen.toNat
  · obtain ⟨a, ha⟩ := Nat.exists_eq_add_of_le' hpayload.1
    have hread : txByte s = readTx s a := by
      dsimp only [txByte, Config.headerLen]
      rw [if_neg (by omega), if_neg (by omega), if_neg (by omega), if_neg (by omega),
        if_neg (by omega), if_neg (by omega), if_pos hpayload.2, ha, Nat.add_sub_cancel]
    rw [hread, readTx_eq_error]
    constructor
    · rintro ⟨hnone, rfl⟩
      exact ⟨a, rfl, ha, by omega, hnone⟩
    · rintro ⟨a', rfl, ha', -, hnone⟩
      obtain rfl : a' = a := by omega
      exact ⟨hnone, rfl⟩
  · rw [txByte_eq_ok_byteDue fun h6 hlt => absurd ⟨h6, hlt⟩ hpayload]
    simp only [reduceCtorEq, false_iff, not_exists, not_and]
    intro a _ ha hlt
    exact absurd ⟨by omega, by omega⟩ hpayload

theorem handOver_eq_fault {s : State} {f : Fault} :
    handOver s = .fault f ↔ s.phase = .tx ∧ txByte s = .error f := by
  rw [handOver]
  split_ifs with hp
  · cases txByte s <;> simp [txValid_iff.mp hp]
  · simp [mt txValid_iff.mpr hp]

/-- Settles O15: `TXB` stops where `TxByte` has no value. -/
theorem txbFaultsOnUnwrittenPayload : Obligations.TxbFaultsOnUnwrittenPayload := by
  intro s a
  rw [exec_txb, handOver_eq_fault, txByte_eq_error]
  simp

/-! ## The request bytes in order (R140) -/

/-- The bytes of the request up to the payload bytes `p`; the declared length is `TXLEN`. -/
def requestBytes (s : State) (p : List Byte) : List Byte :=
  headerBytes s.txType s.txCmd s.reqSeq s.txLen ++ p

@[simp] theorem length_requestBytes (s : State) (p : List Byte) :
    (requestBytes s p).length = 6 + p.length := by
  simp [requestBytes, headerBytes]; omega

/-- With the whole payload only the end marker is missing. -/
theorem frameOf_eq_requestBytes {s : State} {p : List Byte} (h : p.length = s.txLen.toNat) :
    frameOf s.txType s.txCmd s.reqSeq p = requestBytes s p ++ [0xFD] := by
  rw [frameOf, h]; rfl

/-- While the payload is held up to the byte due, `TxByte` is the request's byte at `TXIDX`. -/
theorem txByte_eq_requestByte {s : State} {p : List Byte}
    (hp : memSlice s.txBuf 0 p.length = some p) (hlen : p.length ≤ s.txLen.toNat)
    (hidx : s.txIdx.toNat < 6 + p.length) :
    ∃ b, (requestBytes s p)[s.txIdx.toNat]? = some b ∧ txByte s = .ok b := by
  dsimp only [txByte]
  split_ifs with h0 h1 h2 h3 h4 h5 hpayload
  iterate 6 exact ⟨_, by simp [requestBytes, headerBytes, *], rfl⟩
  · have hcell := (memSlice_spec hp).2 (s.txIdx.toNat - 6) (by omega)
    rw [Nat.zero_add, List.getElem?_eq_getElem (by omega)] at hcell
    refine ⟨_, ?_, readTx_eq_ok.mpr hcell.symm⟩
    rw [requestBytes, List.getElem?_append_right (by simp [headerBytes]; omega)]
    exact List.getElem?_eq_getElem _
  · exact absurd (show s.txIdx.toNat < 6 + s.txLen.toNat by omega) hpayload

/-- Behind the payload stands the end marker. -/
theorem txByte_endMarker {s : State} (h : s.txIdx.toNat = 6 + s.txLen.toNat) :
    txByte s = .ok 0xFD := by
  have hpast : ¬s.txIdx.toNat < 6 + s.txLen.toNat := by omega
  dsimp only [txByte, Config.headerLen]
  rw [if_neg (by omega), if_neg (by omega), if_neg (by omega), if_neg (by omega),
    if_neg (by omega), if_neg (by omega), if_neg hpast]

/-- After the end marker the response is due. -/
theorem handOver_last {s : State} (h : s.phase = .tx) {b : Byte} (hb : txByte s = .ok b)
    (hlast : s.txIdx.toNat = 6 + s.txLen.toNat) :
    handOver s = .next { s with txQ := s.txQ ++ [b], txIdx := 0, phase := .rxHdr } :=
  (handOver_of_txByte h hb).trans (congrArg _ (if_pos hlast))

/-- Before it the next request byte is due. -/
theorem handOver_more {s : State} (h : s.phase = .tx) {b : Byte} (hb : txByte s = .ok b)
    (hmore : s.txIdx.toNat ≠ 6 + s.txLen.toNat) :
    handOver s = .next { s with txQ := s.txQ ++ [b], txIdx := s.txIdx + 1 } :=
  (handOver_of_txByte h hb).trans (congrArg _ (if_neg hmore))

/-! ## Runs of `TXB` (R141, R142) -/

/-- `s` after `j` of its request bytes have gone to the link. -/
def sentUpTo (s : State) (p : List Byte) (j : Nat) : State :=
  { s with txIdx := BitVec.ofNat 16 j, txQ := s.txQ ++ (requestBytes s p).take j }

theorem sentUpTo_zero {s : State} (h : s.txIdx = 0) (p : List Byte) : sentUpTo s p 0 = s := by
  cases s
  obtain rfl := h
  simp [sentUpTo]

theorem sentUpTo_txIdx (s : State) (p : List Byte) {j : Nat} (hj : j < 65536) :
    (sentUpTo s p j).txIdx.toNat = j := by
  rw [sentUpTo, BitVec.toNat_ofNat, Nat.mod_eq_of_lt hj]

section
variable {s : State} {p : List Byte} (hphase : s.phase = .tx) (hlegal : s.txLen.toNat < 0xF000)
  (hp : memSlice s.txBuf 0 p.length = some p) (hlen : p.length ≤ s.txLen.toNat)
include hphase hlegal hp hlen

theorem handOver_sentUpTo {j : Nat} (hj : j < 6 + p.length) :
    handOver (sentUpTo s p j) = .next (sentUpTo s p (j + 1)) := by
  have hidx := sentUpTo_txIdx s p (show j < 65536 by omega)
  obtain ⟨b, hb, hbyte⟩ := txByte_eq_requestByte (s := sentUpTo s p j) hp hlen (by omega)
  rw [hidx] at hb
  have hmore : (sentUpTo s p j).txIdx.toNat ≠ 6 + s.txLen.toNat := by omega
  have hb : (requestBytes s p)[j]? = some b := hb
  rw [handOver_more (s := sentUpTo s p j) hphase hbyte hmore]
  simp [sentUpTo, List.take_add_one, hb, BitVec.ofNat_add]

theorem handOverRun_sentUpTo (m : Nat) {j : Nat} (hj : j + m ≤ 6 + p.length) :
    handOverRun m (sentUpTo s p j) = .next (sentUpTo s p (j + m)) := by
  induction m generalizing j with
  | zero => rfl
  | succ m ih =>
    rw [handOverRun, handOver_sentUpTo hphase hlegal hp hlen (by omega), andThen_next,
      ih (by omega), Nat.add_right_comm, Nat.add_assoc]

/-- `k` request bytes in a row, as far as the payload is held. -/
theorem handOverRun_part (h0 : s.txIdx = 0) {k : Nat} (hk : k ≤ 6 + p.length) :
    handOverRun k s = .next (sentUpTo s p k) := by
  have h := handOverRun_sentUpTo hphase hlegal hp hlen k (j := 0) (by omega)
  rwa [sentUpTo_zero h0, Nat.zero_add] at h

end

theorem handOverRun_add (j k : Nat) (s : State) :
    handOverRun (j + k) s = andThen (handOverRun j s) (handOverRun k) := by
  induction j generalizing s with
  | zero => rw [Nat.zero_add]; rfl
  | succ j ih =>
    rw [Nat.succ_add, handOverRun, handOverRun]
    cases handOver s with
    | next t => exact ih t
    | fault f => rfl
    | refused r => rfl

/-- A whole request: `TXLEN + 7` operations hand over the frame and the response is due. -/
theorem handOverRun_whole {s : State} {p : List Byte} (hphase : s.phase = .tx)
    (h0 : s.txIdx = 0) (hlegal : s.txLen.toNat < 0xF000)
    (hp : memSlice s.txBuf 0 s.txLen.toNat = some p) :
    handOverRun (s.txLen.toNat + 7) s = .next { s with
      txIdx := 0, phase := .rxHdr,
      txQ := s.txQ ++ frameOf s.txType s.txCmd s.reqSeq p } := by
  have hlen : p.length = s.txLen.toNat := (memSlice_spec hp).1
  have hidx := sentUpTo_txIdx s p (show 6 + p.length < 65536 by omega)
  have hlast := hidx.trans (congrArg (6 + ·) hlen)
  rw [← hlen, show p.length + 7 = 6 + p.length + 1 by omega, handOverRun_add,
    handOverRun_part hphase hlegal (hlen ▸ hp) hlen.le h0 le_rfl, andThen_next, handOverRun,
    handOver_last (s := sentUpTo s p (6 + p.length)) hphase (txByte_endMarker hlast) hlast,
    frameOf_eq_requestBytes hlen]
  simp [sentUpTo, handOverRun, List.take_of_length_le]

/-- A run of `TXB` stops at the first payload cell that holds no value. -/
theorem handOverRun_fault {s : State} {a k : Nat} (hphase : s.phase = .tx) (h0 : s.txIdx = 0)
    (hlegal : s.txLen.toNat < 0xF000) (ha : a < s.txLen.toNat)
    (hnone : memRead s.txBuf a = none) (hheld : ∀ b < a, memRead s.txBuf b ≠ none)
    (hk : a + 7 ≤ k) : handOverRun k s = .fault (.txBufUnwritten a) := by
  obtain ⟨p, hp⟩ : ∃ p, memSlice s.txBuf 0 a = some p :=
    Option.isSome_iff_exists.mp (memSlice_isSome.mpr fun i hi => by
      simpa [Option.isSome_iff_ne_none] using hheld i hi)
  obtain rfl : p.length = a := (memSlice_spec hp).1
  have hstop : handOver (sentUpTo s p (6 + p.length)) = .fault (.txBufUnwritten p.length) :=
    handOver_eq_fault.mpr ⟨hphase, txByte_eq_error.mpr ⟨_, rfl,
      (sentUpTo_txIdx s p (by omega)).trans (Nat.add_comm _ _), ha, hnone⟩⟩
  obtain ⟨m, rfl⟩ := Nat.exists_eq_add_of_le hk
  rw [show p.length + 7 + m = 6 + p.length + (m + 1) by omega, handOverRun_add,
    handOverRun_part hphase hlegal hp ha.le h0 le_rfl, andThen_next, handOverRun, hstop,
    andThen_fault]

theorem runOps_replicate_txb (k : Nat) (s : State) :
    runOps (List.replicate k .txb) s = handOverRun k s := by
  induction k generalizing s with
  | zero => rfl
  | succ k ih => exact congrArg (andThen (handOver s)) (funext ih)

/-- Settles O16: the run hands over R74's frame, which is what `ENCODE` builds. -/
theorem transmitRunIsEncode : Obligations.TransmitRunIsEncode := by
  intro s p hphase h0 hlegal hp
  have hlen : p.length = s.txLen.toNat := (memSlice_spec hp).1
  exact ⟨_, encodeFrame_eq_frameOf _ _ _ (hlen ▸ hlegal),
    (runOps_replicate_txb _ s).trans (handOverRun_whole hphase h0 hlegal hp)⟩

/-! ## Rows of the wire (log entry 6) -/

/-- `s` after the request `t`, `c` with payload `p` has been carried onto the wire. -/
def carried (t c : Byte) (n : Half) (p : List Byte) (s : State) : State :=
  { s with
    txType := t, txCmd := c, txLen := n, txIdx := 0, rxCnt := 0, reqSeq := s.seq,
    seq := s.seq + 1, err := none, phase := .rxHdr, txQ := s.txQ ++ frameOf t c s.seq p }

/-- `s` after a request whose length is too large (R121). -/
def refusedTooBig (t c : Byte) (n : Half) (s : State) : State :=
  { s with
    txType := t, txCmd := c, txLen := n, txIdx := 0, rxCnt := 0,
    phase := .err, err := some .tooBig }

/-- `s` after an accepted `SEND` (R121). -/
def requestLatched (t c : Byte) (n : Half) (s : State) : State :=
  { s with
    txType := t, txCmd := c, txLen := n, txIdx := 0, rxCnt := 0, reqSeq := s.seq,
    seq := s.seq + 1, err := none, phase := .tx }

theorem carryRequest_legal {s : State} (h : s.phase = .idle) (t c : Byte) {n : Half}
    (hn : n.toNat < 0xF000) :
    carryRequest t c n s = handOverRun (n.toNat + 7) (requestLatched t c n s) := by
  have haccepted : accepts opSend s.phase = true := by simp [h]
  have hsent : sendRequest t c n s = requestLatched t c n s := sendRequest_accepted h t c hn
  rw [carryRequest, if_pos haccepted, hsent, if_pos (txValid_iff.mpr rfl)]

theorem carryRequest_carried {s : State} (h : s.phase = .idle) (t c : Byte) {n : Half}
    (hn : n.toNat < 0xF000) {p : List Byte} (hp : memSlice s.txBuf 0 n.toNat = some p) :
    carryRequest t c n s = .next (carried t c n p s) := by
  rw [carryRequest_legal h t c hn]
  exact handOverRun_whole (s := requestLatched t c n s) rfl rfl hn hp

theorem carryRequest_fault {s : State} (h : s.phase = .idle) (t c : Byte) {n : Half}
    (hn : n.toNat < 0xF000) {a : Nat} (ha : a < n.toNat) (hnone : memRead s.txBuf a = none)
    (hheld : ∀ b < a, memRead s.txBuf b ≠ none) :
    carryRequest t c n s = .fault (.txBufUnwritten a) := by
  rw [carryRequest_legal h t c hn]
  exact handOverRun_fault (s := requestLatched t c n s) rfl rfl hn ha hnone hheld (by omega)

theorem carryRequest_tooBig {s : State} (h : s.phase = .idle) (t c : Byte) {n : Half}
    (hn : 0xF000 ≤ n.toNat) : carryRequest t c n s = .next (refusedTooBig t c n s) := by
  rw [carryRequest, sendRequest_tooBig h t c hn]
  simp [h, txValid, refusedTooBig]

theorem carryRequest_dropped {s : State} (h : s.phase ≠ .idle) (t c : Byte) (n : Half) :
    carryRequest t c n s = .next s := by
  simp [carryRequest, h]

/-- The first `n` cells hold a payload, or there is a first one among them without a value. -/
theorem payload_held_or_not (m : Memory) (n : Nat) :
    (∃ p, memSlice m 0 n = some p) ∨
    ∃ a < n, memRead m a = none ∧ ∀ b < a, memRead m b ≠ none := by
  by_cases h : ∃ a, a < n ∧ memRead m a = none
  · classical
    obtain ⟨hlt, hnone⟩ := Nat.find_spec h
    exact .inr ⟨Nat.find h, hlt, hnone, fun b hb hbnone =>
      Nat.find_min h hb ⟨hb.trans hlt, hbnone⟩⟩
  · refine .inl (Option.isSome_iff_exists.mp (memSlice_isSome.mpr fun i hi => ?_))
    rw [Nat.zero_add, Option.isSome_iff_ne_none]
    exact fun hnone => h ⟨i, hi, hnone⟩

/-- What a carried request can do (log entry 6). -/
theorem carryRequest_cases (t c : Byte) (n : Half) (s : State) :
    (s.phase ≠ .idle ∧ carryRequest t c n s = .next s) ∨
    (s.phase = .idle ∧ 0xF000 ≤ n.toNat ∧
      carryRequest t c n s = .next (refusedTooBig t c n s)) ∨
    (s.phase = .idle ∧ n.toNat < 0xF000 ∧ ∃ p, memSlice s.txBuf 0 n.toNat = some p ∧
      carryRequest t c n s = .next (carried t c n p s)) ∨
    (s.phase = .idle ∧ n.toNat < 0xF000 ∧ ∃ a < n.toNat, memRead s.txBuf a = none ∧
      carryRequest t c n s = .fault (.txBufUnwritten a)) := by
  by_cases h : s.phase = .idle
  · by_cases hn : n.toNat < 0xF000
    · rcases payload_held_or_not s.txBuf n.toNat with ⟨p, hp⟩ | ⟨a, ha, hnone, hheld⟩
      · exact .inr (.inr (.inl ⟨h, hn, p, hp, carryRequest_carried h t c hn hp⟩))
      · exact .inr (.inr (.inr ⟨h, hn, a, ha, hnone,
          carryRequest_fault h t c hn ha hnone hheld⟩))
    · have hn := Nat.le_of_not_lt hn
      exact .inr (.inl ⟨h, hn, carryRequest_tooBig h t c hn⟩)
  · exact .inl ⟨h, carryRequest_dropped h t c n⟩

/-- A property of every operation that carries a request of its type, command and length is one of
the 14 rows. -/
theorem everyWireRow_of_carryRequest {P : Instr → Byte → Byte → Half → Prop}
    (h : ∀ i t c n, (∀ s, exec i s = carryRequest t c n s) → P i t c n) : EveryWireRow P := by
  intro t c q n
  refine ⟨?_, ?_, ?_, ?_, ?_, ?_, ?_, ?_, ?_, ?_, ?_, ?_, ?_, ?_⟩ <;> exact h _ _ _ _ fun _ => rfl

/-- Settles O48: a row whose payload is held carries its request. -/
theorem wireRowsCarryTheirRequest : Obligations.WireRowsCarryTheirRequest :=
  everyWireRow_of_carryRequest fun _ t c _ hrow s _ h hn hp =>
    (hrow s).trans (carryRequest_carried h t c hn hp)

/-- Settles O49: the other three cases of a carried request. -/
theorem wireRowsFailLikeSend : Obligations.WireRowsFailLikeSend :=
  everyWireRow_of_carryRequest fun _ t c n hrow s =>
    ⟨fun h hn => (hrow s).trans (carryRequest_tooBig h t c hn),
      fun h => (hrow s).trans (carryRequest_dropped h t c n),
      fun h hn _ ha hnone hheld =>
        (hrow s).trans (carryRequest_fault h t c hn ha hnone hheld)⟩

end Sys2Proof.Proofs
end

section
/-! PROOFS. What an operation can do, said once, and what follows for the phase, the buffers and the
sequence counter (`10_state.md` §3, §5; `40_codec.md` §5). -/

namespace Sys2Proof.Proofs

open Sys2Proof Sys2Proof.Machine Sys2Proof.Statements

/-! ## Which operations stand for a request -/

/-- A row of the wire carries a request of its length. -/
theorem exec_wireRow {i : Instr} (h : isWireRow i = true) :
    ∃ t c n, requestLen i = some n ∧ ∀ s, exec i s = carryRequest t c n s := by
  cases i
  case frame | familySystem | familyStream | familyClock | familyMetadata | familyNotification
      | familyGpio | readinessCheck | play | getPlayStatus | setStereoMode | setVolume | getClock
      | getAppData =>
    exact ⟨_, _, _, rfl, fun _ => rfl⟩
  all_goals cases h

theorem startsRequest_iff {i : Instr} {n : Half} (h : requestLen i = some n) {s : State} :
    startsRequest i s = true ↔ s.phase = .idle ∧ n.toNat < 0xF000 := by
  simp [startsRequest, h]

theorem startsRequest_of_none {i : Instr} (h : requestLen i = none) (s : State) :
    startsRequest i s = false := by
  simp [startsRequest, h]

theorem startsRequest_of_not_idle {i : Instr} {s : State} (h : s.phase ≠ .idle) :
    startsRequest i s = false := by
  unfold startsRequest
  split <;> simp [h]

/-- Codec functions stand for no request. -/
theorem requestLen_codec {i : Instr} {c : CodecCall} (h : encode i = .fn c) :
    requestLen i = none := by
  cases i
  case nextSeq | encode | pLen | valid | decode | chkSeq => rfl
  all_goals cases h

/-! ## The effect of an operation -/

/-- What each operation can do when it completes. An operation that is dropped, a read and a codec
function change at most the value returned. -/
inductive Effect (s : State) : Instr → State → Prop
  | reset : Effect s .rst { s with
      phase := .idle, err := none, seq := 0, reqSeq := 0, txType := 0, txCmd := 0, txLen := 0,
      txIdx := 0, rxCnt := 0 }
  | sent (t c : Byte) (n : Half) (hidle : s.phase = .idle) (hn : n.toNat < 0xF000) :
      Effect s (.send t c n) (requestLatched t c n s)
  | carried {i : Instr} {t c : Byte} {n : Half} {p : List Byte} (hrow : isWireRow i = true)
      (hlen : requestLen i = some n) (hidle : s.phase = .idle) (hn : n.toNat < 0xF000) :
      Effect s i (carried t c n p s)
  | tooBig {i : Instr} {t c : Byte} {n : Half} (hi : i = .send t c n ∨ isWireRow i = true)
      (hlen : requestLen i = some n) (hidle : s.phase = .idle) (hn : 0xF000 ≤ n.toNat) :
      Effect s i (refusedTooBig t c n s)
  | ack (h : s.phase = .done ∨ s.phase = .err) : Effect s .ack (returnToIdle s)
  | tmo (h : s.phase = .rxHdr ∨ s.phase = .rxBody) : Effect s .tmo (raiseErr .timeout s)
  | flt (h : s.phase = .tx ∨ s.phase = .rxHdr ∨ s.phase = .rxBody) :
      Effect s .flt (raiseErr .io s)
  | written {a : Half} {v : Byte} (ha : a.toNat ≤ 0xEFFE) (h : s.phase ≠ .tx) :
      Effect s (.wrtx a v) (writeTx a.toNat v s)
  | byteSent {b : Byte} (h : s.phase = .tx) (hmore : s.txIdx.toNat ≠ 6 + s.txLen.toNat) :
      Effect s .txb { s with txQ := s.txQ ++ [b], txIdx := s.txIdx + 1 }
  | lastByteSent {b : Byte} (h : s.phase = .tx) (hlast : s.txIdx.toNat = 6 + s.txLen.toNat) :
      Effect s .txb { s with txQ := s.txQ ++ [b], txIdx := 0, phase := .rxHdr }
  | byteTaken {b : Byte} {t : State} (h : s.phase = .rxHdr ∨ s.phase = .rxBody)
      (hq : s.rxQ = [] ∨ s.rxQ.head? = some b)
      (ht : receiveByte b { s with rxQ := s.rxQ.tail } = .next t) : Effect s (.rxb b) t
  | seqStepped : Effect s .nextSeq { s with seq := s.seq + 1, ret := .byte s.seq }
  | kept {i : Instr} (r : Ret) (hrst : i ≠ .rst) (hstart : startsRequest i s = false) :
      Effect s i { s with ret := r }

theorem effect_of_dropped {i : Instr} {s t : State} (hd : Dropped i s) (hrst : i ≠ .rst)
    (hstart : startsRequest i s = false) (h : exec i s = .next t) : Effect s i t := by
  cases hd.symm.trans h
  exact .kept s.ret hrst hstart

theorem effect_of_returns {i : Instr} {s t : State} {r : Ret} (hr : Returns i s r)
    (hrst : i ≠ .rst) (hlen : requestLen i = none) (h : exec i s = .next t) : Effect s i t := by
  cases hr.symm.trans h
  exact .kept r hrst (startsRequest_of_none hlen s)

theorem effect_of_wireRow {i : Instr} {s t : State} (hrow : isWireRow i = true)
    (h : exec i s = .next t) : Effect s i t := by
  obtain ⟨y, c, n, hlen, hexec⟩ := exec_wireRow hrow
  rw [hexec] at h
  rcases carryRequest_cases y c n s with ⟨hidle, hc⟩ | ⟨hidle, hn, hc⟩ | ⟨hidle, hn, p, -, hc⟩ |
      ⟨-, -, a, -, -, hc⟩
  · cases hc.symm.trans h
    exact .kept s.ret (by rintro rfl; cases hrow) (startsRequest_of_not_idle hidle)
  · cases hc.symm.trans h
    exact .tooBig (.inr hrow) hlen hidle hn
  · cases hc.symm.trans h
    exact .carried hrow hlen hidle hn
  · cases hc.symm.trans h

theorem effect_of_send {t c : Byte} {n : Half} {s u : State}
    (h : exec (.send t c n) s = .next u) : Effect s (.send t c n) u := by
  by_cases hidle : s.phase = .idle
  · by_cases hn : n.toNat < 0xF000
    · have hsent : sendRequest t c n s = requestLatched t c n s := sendRequest_accepted hidle t c hn
      cases (congrArg Host.Outcome.next hsent).symm.trans h
      exact .sent t c n hidle hn
    · have hn := Nat.le_of_not_lt hn
      have hsent : sendRequest t c n s = refusedTooBig t c n s := sendRequest_tooBig hidle t c hn
      cases (congrArg Host.Outcome.next hsent).symm.trans h
      exact .tooBig (.inl rfl) rfl hidle hn
  · exact effect_of_dropped (dropped_send hidle t c n) (by simp) (startsRequest_of_not_idle hidle) h

theorem effect_of_txb {s t : State} (h : exec .txb s = .next t) : Effect s .txb t := by
  rcases handOver_cases h with ⟨-, rfl⟩ | ⟨hp, b, -, ⟨hlast, rfl⟩ | ⟨hmore, rfl⟩⟩
  · exact .kept t.ret (by simp) rfl
  · exact .lastByteSent hp hlast
  · exact .byteSent hp hmore

theorem effect_of_rxb {b : Byte} {s t : State} (h : exec (.rxb b) s = .next t) :
    Effect s (.rxb b) t := by
  rcases execRxb_cases h with ⟨-, -, rfl⟩ | ⟨hp, hq, ht⟩
  · exact .kept t.ret (by simp) rfl
  · exact .byteTaken hp hq ht

theorem effect_of_wrtx {a : Half} {v : Byte} {s t : State} (h : exec (.wrtx a v) s = .next t) :
    Effect s (.wrtx a v) t := by
  by_cases hd : 0xEFFE < a.toNat ∨ s.phase = .tx
  · exact effect_of_dropped (execWrtx_dropped hd v) (by simp) rfl h
  · obtain ⟨ha, hp⟩ := not_or.mp hd
    cases (execWrtx_taken (Nat.le_of_not_lt ha) hp v).symm.trans h
    exact .written (Nat.le_of_not_lt ha) hp

theorem effect_of_codec {i : Instr} {c : CodecCall} (hi : encode i = .fn c) {s t : State}
    (h : exec i s = .next t) : Effect s i t := by
  by_cases hseq : i = .nextSeq
  · subst hseq
    have ht : returning (.byte s.seq) (advanceSeq s) = t := Host.Outcome.next.inj h
    rw [← ht, returning, advanceSeq, nextSeqNumber_eq]
    exact .seqStepped
  · obtain ⟨r, hr⟩ := codec_returns hi hseq s
    exact effect_of_returns hr (by rintro rfl; cases hi) (requestLen_codec hi) h

/-- Every operation that completes has one of the effects. -/
theorem effect_of_exec {i : Instr} {s t : State} (h : exec i s = .next t) : Effect s i t := by
  by_cases hrow : isWireRow i = true
  · exact effect_of_wireRow hrow h
  · cases i with
    | send y c n => exact effect_of_send h
    | ack =>
      by_cases hp : s.phase = .done ∨ s.phase = .err
      · cases (exec_ack_accepted hp).symm.trans h
        exact .ack hp
      · exact effect_of_dropped (dropped_ack hp) (by simp) rfl h
    | tmo =>
      by_cases hp : s.phase = .rxHdr ∨ s.phase = .rxBody
      · cases (exec_tmo_accepted hp).symm.trans h
        exact .tmo hp
      · exact effect_of_dropped (dropped_tmo hp) (by simp) rfl h
    | flt =>
      by_cases hp : s.phase = .tx ∨ s.phase = .rxHdr ∨ s.phase = .rxBody
      · cases (exec_flt_accepted hp).symm.trans h
        exact .flt hp
      · exact effect_of_dropped (dropped_flt hp) (by simp) rfl h
    | wrtx a v => exact effect_of_wrtx h
    | rdrx a =>
      obtain ⟨v, hv, -⟩ := withValue_eq_next.mp h
      exact effect_of_returns (returns_rdrx_iff.mpr hv) (by simp) rfl h
    | rdcsr n =>
      obtain ⟨w, hw, -⟩ := withValue_eq_next.mp h
      exact effect_of_returns (returns_rdcsr_iff.mpr hw) (by simp) rfl h
    | txb => exact effect_of_txb h
    | rxb b => exact effect_of_rxb h
    | rst => cases h; exact .reset
    | nextSeq => exact effect_of_codec rfl h
    | encode y c q p => exact effect_of_codec rfl h
    | pLen b => exact effect_of_codec rfl h
    | valid b => exact effect_of_codec rfl h
    | decode b => exact effect_of_codec rfl h
    | chkSeq y c q n => exact effect_of_codec rfl h
    | _ => exact absurd rfl hrow

/-! ## What taking a response byte leaves unchanged (R143) -/

/-- The checks write `PHASE` and `ERR` only, and lead where the table of R30 says. -/
theorem receiveByte_phase {b : Byte} {s t : State} (h : receiveByte b s = .next t) :
    ∃ p e, t = { captureByte b s with phase := p, err := e } ∧
      ((p = s.phase ∧ e = s.err) ∨
       (s.phase = .rxHdr ∧ ((p = .rxBody ∧ e = s.err) ∨
         (p = .err ∧ (e = some .malformed ∨ e = some .invalid)))) ∨
       (s.phase ≠ .rxHdr ∧ ((p = .done ∧ e = s.err) ∨
         (p = .err ∧ (e = some .invalid ∨ e = some .desync))))) := by
  obtain ⟨-, ⟨-, -, rfl⟩ | ⟨hp, -, h⟩ | ⟨hp, h⟩⟩ := receiveByte_cases h
  · exact ⟨s.phase, s.err, rfl, .inl ⟨rfl, rfl⟩⟩
  · obtain ⟨m, -, ⟨-, rfl⟩ | ⟨-, n, -, ⟨-, rfl⟩ | ⟨-, rfl⟩⟩⟩ := checkHeader_cases h
    · exact ⟨_, _, rfl, .inr (.inl ⟨hp, .inr ⟨rfl, .inl rfl⟩⟩)⟩
    · exact ⟨_, _, rfl, .inr (.inl ⟨hp, .inr ⟨rfl, .inr rfl⟩⟩)⟩
    · exact ⟨_, s.err, rfl, .inr (.inl ⟨hp, .inl ⟨rfl, rfl⟩⟩)⟩
  · obtain ⟨n, -, ⟨-, rfl⟩ | ⟨-, -, rfl⟩ | ⟨-, -, q, -, ⟨-, rfl⟩ | ⟨-, rfl⟩⟩⟩ := checkBody_cases h
    · exact ⟨s.phase, s.err, rfl, .inl ⟨rfl, rfl⟩⟩
    · exact ⟨_, _, rfl, .inr (.inr ⟨hp, .inr ⟨rfl, .inl rfl⟩⟩)⟩
    · exact ⟨_, _, rfl, .inr (.inr ⟨hp, .inr ⟨rfl, .inr rfl⟩⟩)⟩
    · exact ⟨_, s.err, rfl, .inr (.inr ⟨hp, .inl ⟨rfl, rfl⟩⟩)⟩

/-- Settles O27: each effect that leaves the phase is a row of the table. -/
theorem phaseTransitionsAreTheTable : Obligations.PhaseTransitionsAreTheTable := by
  intro i s t h hne
  cases effect_of_exec h with
  | reset => exact .inl ⟨rfl, rfl, rfl⟩
  | sent _ _ _ hidle => exact .inr (.inl ⟨⟨_, _, _, rfl⟩, hidle, .inl ⟨rfl, rfl⟩⟩)
  | carried hrow _ hidle => exact .inr (.inr (.inl ⟨hrow, hidle, .inl ⟨rfl, rfl⟩⟩))
  | tooBig hi _ hidle =>
    rcases hi with rfl | hrow
    · exact .inr (.inl ⟨⟨_, _, _, rfl⟩, hidle, .inr ⟨rfl, rfl⟩⟩)
    · exact .inr (.inr (.inl ⟨hrow, hidle, .inr ⟨rfl, rfl⟩⟩))
  | ack hp =>
    iterate 8 right
    exact ⟨rfl, hp, rfl, rfl⟩
  | tmo hp => exact .inr (.inr (.inr (.inr (.inr (.inl ⟨rfl, hp, rfl, rfl⟩)))))
  | flt hp => exact .inr (.inr (.inr (.inr (.inl ⟨rfl, hp, rfl, rfl⟩))))
  | lastByteSent hp => exact .inr (.inr (.inr (.inl ⟨rfl, hp, rfl, rfl⟩)))
  | byteTaken hp _ ht =>
    obtain ⟨p, e, rfl, ⟨hsame, -⟩ | ⟨hhdr, hto⟩ | ⟨hbody, hto⟩⟩ := receiveByte_phase ht
    · exact absurd hsame hne
    · iterate 6 right
      exact .inl ⟨⟨_, rfl⟩, hhdr, hto⟩
    · iterate 7 right
      exact .inl ⟨⟨_, rfl⟩, hp.resolve_left hbody, hto⟩
  | written | byteSent | seqStepped | kept => exact absurd rfl hne

/-! ## The sequence counter (R21, R34 (h), R109) -/

/-- A request takes the number in `SEQ` and steps it, a reset clears both registers, and nothing
else but a `NEXTSEQ` outside `SEND` writes them. -/
theorem seq_of_exec {i : Instr} {s t : State} (hseq : i ≠ .nextSeq) (h : exec i s = .next t) :
    (startsRequest i s = true → s.phase = .idle ∧ t.reqSeq = s.seq ∧ t.seq = s.seq + 1) ∧
    (i = .rst → t.seq = 0 ∧ t.reqSeq = 0) ∧
    (startsRequest i s = false → i ≠ .rst → t.seq = s.seq ∧ t.reqSeq = s.reqSeq) := by
  cases effect_of_exec h with
  | seqStepped => exact absurd rfl hseq
  | reset => exact ⟨nofun, fun _ => ⟨rfl, rfl⟩, fun _ hrst => absurd rfl hrst⟩
  | sent y c n hidle hn =>
    have hstart := (startsRequest_iff (i := .send y c n) rfl).mpr ⟨hidle, hn⟩
    exact ⟨fun _ => ⟨hidle, rfl, rfl⟩, nofun, fun hno _ => nomatch hno.symm.trans hstart⟩
  | carried hrow hlen hidle hn =>
    have hstart := (startsRequest_iff hlen).mpr ⟨hidle, hn⟩
    refine ⟨fun _ => ⟨hidle, rfl, rfl⟩, ?_, fun hno _ => nomatch hno.symm.trans hstart⟩
    rintro rfl
    cases hrow
  | tooBig _ hlen _ hn =>
    refine ⟨fun hyes => ?_, ?_, fun _ _ => ⟨rfl, rfl⟩⟩
    · exact absurd ((startsRequest_iff hlen).mp hyes).2 (Nat.not_lt_of_le hn)
    · rintro rfl
      cases hlen
  | byteTaken _ _ ht =>
    obtain ⟨p, e, rfl, -⟩ := receiveByte_phase ht
    exact ⟨nofun, nofun, fun _ _ => ⟨rfl, rfl⟩⟩
  | kept r hrst hno =>
    exact ⟨fun hyes => (nomatch hno.symm.trans hyes), fun h => absurd h hrst, fun _ _ => ⟨rfl, rfl⟩⟩
  | ack | tmo | flt | written | byteSent | lastByteSent =>
    exact ⟨nofun, nofun, fun _ _ => ⟨rfl, rfl⟩⟩

/-- Settles O30: a request sets both registers, any other operation keeps both. -/
theorem seqIsOneAheadOfReqSeq : Obligations.SeqIsOneAheadOfReqSeq := by
  intro i s t h hrst hseq
  obtain ⟨hstart, -, hkept⟩ := seq_of_exec hseq h
  have hset : startsRequest i s = true → t.seq = t.reqSeq + 1 := fun hyes => by
    obtain ⟨-, hreq, hnext⟩ := hstart hyes
    rw [hnext, hreq]
  refine ⟨hset, fun hrel => ?_⟩
  cases hs : startsRequest i s with
  | true => exact hset hs
  | false =>
    obtain ⟨hsame, hreq⟩ := hkept hs hrst
    rw [hsame, hreq, hrel]

/-- Settles O31, by induction on the run. -/
theorem seqCountsTheRequests : Obligations.SeqCountsTheRequests := by
  intro is
  induction is with
  | nil =>
    intro s t h _
    cases h
    simp [requestsStarted, Nat.mod_eq_of_lt s.seq.isLt]
  | cons i is ih =>
    intro s t h hno
    obtain ⟨u, hu, ht⟩ := andThen_eq_next.mp h
    obtain ⟨hrst, hseq⟩ := hno i (by simp)
    obtain ⟨hstart, -, hkept⟩ := seq_of_exec hseq hu
    rw [ih u t ht fun j hj => hno j (by simp [hj]), requestsStarted, hu]
    cases hs : startsRequest i s with
    | true =>
      obtain ⟨-, -, hnext⟩ := hstart hs
      have hstep : u.seq.toNat = (s.seq.toNat + 1) % 256 := by rw [hnext, BitVec.toNat_add]; rfl
      rw [hstep, if_pos rfl, Nat.mod_add_mod, Nat.add_assoc]
    | false =>
      obtain ⟨hsame, -⟩ := hkept hs hrst
      simp [hsame]

end Sys2Proof.Proofs
end

section
/-! PROOFS. The streaming receiver: what `RXB` makes of the captured bytes (`42_link_ops.md` §2,
`40_codec.md` §5). -/

namespace Sys2Proof.Proofs

open Sys2Proof Sys2Proof.Machine Sys2Proof.Statements

/-! ## Captured bytes and cells of `RXBUF` -/

theorem captured_length {s : State} {g : List Byte} (h : captured s = some g) :
    g.length = s.rxCnt.toNat :=
  (memSlice_spec h).1

theorem captured_cell {s : State} {g : List Byte} (h : captured s = some g) {i : Nat}
    (hi : i < g.length) : memRead s.rxBuf i = g[i]? :=
  (captured_byte_eq h (captured_length h ▸ hi)).symm

/-- In every state of the invariant the captured cells are held (R26). -/
theorem stateInv_captured {s : State} (hs : StateInv s) : ∃ g, captured s = some g :=
  Option.isSome_iff_exists.mp (memSlice_isSome.mpr fun i hi => by
    simpa using hs.capturedHeld.2 i hi)

/-- Capturing a byte appends it to the captured bytes. -/
theorem captured_captureByte {s : State} {g : List Byte} (h : captured s = some g)
    (hc : s.rxCnt.toNat < 65535) (b : Byte) :
    captured (captureByte b s) = some (g ++ [b]) := by
  have hcnt : (s.rxCnt + 1).toNat = s.rxCnt.toNat + 1 := by
    rw [BitVec.toNat_add]; exact Nat.mod_eq_of_lt (Nat.succ_lt_succ hc)
  rw [captured, captureByte_rxBuf, captureByte_rxCnt, hcnt]
  refine memSlice_succ ((memSlice_congr fun i hi => ?_).trans h) ?_
  · exact memRead_memWrite_other _ _ (by omega)
  · rw [Nat.zero_add]; exact memRead_memWrite_same _ _ _

/-- The bytes after the header do not change the declared length. -/
theorem declared_append {g : List Byte} (h : 6 ≤ g.length) (x : List Byte) :
    declared (g ++ x) = declared g :=
  declared_congr (List.getElem?_append_left (by omega)) (List.getElem?_append_left (by omega))

/-- With a captured header `RXLEN` has a value, the declared length (R33, R102). -/
theorem rxLen_of_captured {s : State} {g : List Byte} (h : captured s = some g)
    (h6 : 6 ≤ g.length) : ∃ hi lo, memRead s.rxBuf 4 = some hi ∧ memRead s.rxBuf 5 = some lo ∧
      rxLen s = .ok (be16 hi lo) ∧ (be16 hi lo).toNat = declared g := by
  have h4 : g[4]? = some g[4] := List.getElem?_eq_getElem (by omega)
  have h5 : g[5]? = some g[5] := List.getElem?_eq_getElem (by omega)
  have hhi := (captured_cell h (by omega)).trans h4
  have hlo := (captured_cell h (by omega)).trans h5
  exact ⟨_, _, hhi, hlo, rxLen_eq_ok.mpr ⟨_, _, hhi, hlo, rfl⟩, by
    simp [be16_toNat, declared, List.getD_eq_getElem?_getD, h4, h5]⟩

/-! ## The invariant in words of the captured bytes -/

/-- The clauses of the invariant that hold in every phase. -/
structure BuffersInv (s : State) : Prop where
  oneIndex : s.txIdx = 0 ∨ s.rxCnt = 0
  capturedHeld : s.rxCnt.toNat ≤ 0xF006 ∧ cellsHeld s.rxBuf s.rxCnt.toNat
  txBufForm : s.txBuf.inSpace Config.txBufDepth
  rxBufForm : s.rxBuf.inSpace Config.rxBufDepth

/-- What the invariant asks in each phase: the captured bytes are so far those of a frame. -/
def phaseClause (s : State) : Prop :=
  match s.phase with
  | .idle => s.txIdx = 0 ∧ s.rxCnt = 0
  | .tx => s.txLen.toNat < 0xF000 ∧ s.txIdx.toNat ≤ s.txLen.toNat + 6 ∧ s.rxCnt = 0
  | .rxHdr => s.txIdx = 0 ∧ s.rxCnt.toNat < 6
  | .rxBody => s.txIdx = 0 ∧ ∃ g, captured s = some g ∧ 6 ≤ g.length ∧ g[0]? = some 0xFE ∧
      declared g < 0xF000 ∧ g.length < declared g + 7
  | .done => s.txIdx = 0 ∧ ∃ g, captured s = some g ∧ FourConditions g ∧ g[3]? = some s.reqSeq
  | .err => True

theorem phaseClause_of_rxHdr {s : State} (h : s.phase = .rxHdr) :
    phaseClause s ↔ s.txIdx = 0 ∧ s.rxCnt.toNat < 6 := by
  simp [phaseClause, h]

theorem phaseClause_of_rxBody {s : State} (h : s.phase = .rxBody) :
    phaseClause s ↔ s.txIdx = 0 ∧ ∃ g, captured s = some g ∧ 6 ≤ g.length ∧ g[0]? = some 0xFE ∧
      declared g < 0xF000 ∧ g.length < declared g + 7 := by
  simp [phaseClause, h]

theorem phaseClause_of_done {s : State} (h : s.phase = .done) :
    phaseClause s ↔ s.txIdx = 0 ∧ ∃ g, captured s = some g ∧ FourConditions g ∧
      g[3]? = some s.reqSeq := by
  simp [phaseClause, h]

theorem stateInv_buffers {s : State} (h : StateInv s) : BuffersInv s :=
  ⟨h.oneIndex, h.capturedHeld, h.txBufForm, h.rxBufForm⟩

theorem stateInv_phaseClause {s : State} (h : StateInv s) : phaseClause s := by
  obtain ⟨g, hg⟩ := stateInv_captured h
  have hlen := captured_length hg
  cases hp : s.phase with
  | idle => simpa [phaseClause, hp] using h.idle hp
  | tx => simpa [phaseClause, hp] using stateInv_tx h hp
  | rxHdr => exact (phaseClause_of_rxHdr hp).mpr (stateInv_rxHdr h hp).symm
  | rxBody =>
    obtain ⟨hstart, n, hn, hlt, hlo, hhi⟩ := stateInv_rxBody h hp
    obtain ⟨_, _, -, -, hlenR, hdecl⟩ := rxLen_of_captured hg (by omega)
    rw [hn] at hlenR
    cases hlenR
    exact (phaseClause_of_rxBody hp).mpr ⟨h.txIdxRest (by simp [hp]) (by simp [hp]), g, hg,
      by omega, (captured_cell hg (by omega)).symm.trans hstart, by omega, by omega⟩
  | done =>
    obtain ⟨g, n, hg, hvalid, hseq, -⟩ := h.done hp
    exact (phaseClause_of_done hp).mpr
      ⟨h.txIdxRest (by simp [hp]) (by simp [hp]), g, hg, validFrame_iff.mp hvalid, hseq⟩
  | err => simp [phaseClause, hp]

theorem stateInv_of_clauses {s : State} (hb : BuffersInv s) (herr : s.err = none ↔ s.phase ≠ .err)
    (hc : phaseClause s) : StateInv s where
  errIff := herr
  idle hp := by simpa [phaseClause, hp] using hc
  tx hp := by simpa [phaseClause, hp] using hc
  rxHdr hp := ((phaseClause_of_rxHdr hp).mp hc).symm
  rxBody hp := by
    obtain ⟨-, g, hg, h6, hstart, hlt, hlen⟩ := (phaseClause_of_rxBody hp).mp hc
    obtain ⟨hi, lo, -, -, hn, hdecl⟩ := rxLen_of_captured hg h6
    have hcnt := captured_length hg
    simp only [Config.maxLenExcl, Config.headerLen]
    exact ⟨(captured_cell hg (by omega)).trans hstart, _, hn, by omega, by omega, by omega⟩
  done hp := by
    obtain ⟨-, g, hg, hfour, hseq⟩ := (phaseClause_of_done hp).mp hc
    obtain ⟨h6, -, -, hlen, -⟩ := id hfour
    obtain ⟨hi, lo, -, -, hn, hdecl⟩ := rxLen_of_captured hg h6
    exact ⟨g, _, hg, validFrame_iff.mpr hfour, hseq, hn, by
      rw [hdecl, ← captured_length hg]; exact hlen⟩
  oneIndex := hb.oneIndex
  txIdxRest htx herr := by
    unfold phaseClause at hc
    split at hc
    next => exact hc.1
    next hp => exact absurd hp htx
    next => exact hc.1
    next => exact hc.1
    next => exact hc.1
    next hp => exact absurd hp herr
  capturedHeld := hb.capturedHeld
  txBufForm := hb.txBufForm
  rxBufForm := hb.rxBufForm

/-! ## The verdict on the captured bytes (R143, R192) -/

/-- The receiver's verdict in the state `s` that holds the captured bytes `g`. -/
def judged (g : List Byte) (s : State) : State :=
  if g.length < 6 then s
  else if g[0]? ≠ some 0xFE then raiseErr .malformed s
  else if 0xF000 ≤ declared g then raiseErr .invalid s
  else if g.length < declared g + 7 then { s with phase := .rxBody }
  else if g[g.length - 1]? ≠ some 0xFD then raiseErr .invalid s
  else if g[3]? ≠ some s.reqSeq then raiseErr .desync s
  else { s with phase := .done }

/-- The verdict writes `PHASE` and `ERR` only. -/
theorem judged_frame (g : List Byte) (s : State) :
    ∃ p e, judged g s = { s with phase := p, err := e } := by
  unfold judged
  split_ifs
  · exact ⟨s.phase, s.err, rfl⟩
  iterate 2 exact ⟨_, _, rfl⟩
  · exact ⟨_, s.err, rfl⟩
  iterate 2 exact ⟨_, _, rfl⟩
  · exact ⟨_, s.err, rfl⟩

/-- The state in which the checks of `RXB b` are made: the byte has left `RXQ` and is captured. -/
def taken (b : Byte) (s : State) : State := captureByte b { s with rxQ := s.rxQ.tail }

theorem exec_rxb_taken {s : State} {b : Byte} (hp : s.phase = .rxHdr ∨ s.phase = .rxBody)
    (hq : s.rxQ = [] ∨ s.rxQ.head? = some b) :
    exec (.rxb b) s = receiveByte b { s with rxQ := s.rxQ.tail } := by
  have hready : exec (.rxb b) s = _ := if_pos (rxReady_iff.mpr hp)
  rw [hready]
  cases s
  rename_i rxQ _ _ _
  cases rxQ with
  | nil => rfl
  | cons h q =>
    obtain rfl : h = b := by simpa using hq
    exact if_pos rfl

theorem rxCnt_captureByte {s : State} (h : s.rxCnt.toNat < 0xF006) (b : Byte) :
    (captureByte b s).rxCnt.toNat = s.rxCnt.toNat + 1 := by
  rw [captureByte_rxCnt, BitVec.toNat_add]
  exact Nat.mod_eq_of_lt (Nat.succ_lt_succ (h.trans (by decide : 0xF006 < 65535)))

theorem receiveByte_short {s : State} (hp : s.phase = .rxHdr) (hc : s.rxCnt.toNat + 1 < 6)
    (b : Byte) : receiveByte b s = .next (captureByte b s) := by
  have hc' : s.rxCnt.toNat < 0xF006 := by omega
  rw [receiveByte, if_pos hc', if_pos hp, if_neg (by
    rw [rxCnt_captureByte hc']; exact Nat.ne_of_lt hc)]

theorem receiveByte_sixth {s : State} (hp : s.phase = .rxHdr) (hc : s.rxCnt.toNat + 1 = 6)
    (b : Byte) : receiveByte b s = checkHeader (captureByte b s) := by
  have hc' : s.rxCnt.toNat < 0xF006 := by omega
  rw [receiveByte, if_pos hc', if_pos hp, if_pos (by rw [rxCnt_captureByte hc']; exact hc)]

theorem receiveByte_body {s : State} (hp : s.phase = .rxBody) (hc : s.rxCnt.toNat < 0xF006)
    (b : Byte) : receiveByte b s = checkBody b (captureByte b s) := by
  rw [receiveByte, if_pos hc, if_neg (by simp [hp])]

/-- The checks of the sixth byte, where the cells they read are held (R192 (1), (2)). -/
theorem checkHeader_eq {s : State} {m : Byte} {n : Half} (hm : memRead s.rxBuf 0 = some m)
    (hn : rxLen s = .ok n) :
    checkHeader s = .next (
      if m ≠ 0xFE then raiseErr .malformed s
      else if 0xF000 ≤ n.toNat then raiseErr .invalid s
      else { s with phase := .rxBody }) := by
  rw [checkHeader, readRx_eq_ok.mpr hm, hn, withValue_ok, withValue_ok]
  split_ifs <;> rfl

/-- The checks of a body byte, where the cells they read are held (R192 (3), (4)). -/
theorem checkBody_eq {s : State} {b q : Byte} {n : Half} (hq : memRead s.rxBuf 3 = some q)
    (hn : rxLen s = .ok n) :
    checkBody b s = .next (
      if s.rxCnt.toNat = n.toNat + 7 then
        if b ≠ 0xFD then raiseErr .invalid s
        else if q ≠ s.reqSeq then raiseErr .desync s
        else { s with phase := .done }
      else s) := by
  rw [checkBody, readRx_eq_ok.mpr hq, hn, withValue_ok, withValue_ok]
  simp only [chkSeq, decide_eq_true_eq, Config.overhead, Config.endMarker, ne_eq]
  split_ifs <;> rfl

/-- What `phaseClause` says of the bytes a byte is added to, in both receiving phases. -/
theorem received_so_far {s : State} {g : List Byte} (hs : StateInv s)
    (hp : s.phase = .rxHdr ∨ s.phase = .rxBody) (hg : captured s = some g) (b : Byte) :
    (s.phase = .rxHdr ∧ (g ++ [b]).length ≤ 6) ∨
    (s.phase = .rxBody ∧ 7 ≤ (g ++ [b]).length ∧ (g ++ [b])[0]? = some 0xFE ∧
      declared (g ++ [b]) < 0xF000 ∧ (g ++ [b]).length ≤ declared (g ++ [b]) + 7) := by
  have hlen : (g ++ [b]).length = g.length + 1 := by simp
  rcases hp with hp | hp
  · have := (stateInv_rxHdr hs hp).1
    exact .inl ⟨hp, by rw [hlen, captured_length hg]; omega⟩
  · obtain ⟨-, g', hg', h6, hstart, hlt, hle⟩ :=
      (phaseClause_of_rxBody hp).mp (stateInv_phaseClause hs)
    cases hg.symm.trans hg'
    rw [declared_append h6, hlen, List.getElem?_append_left (by omega)]
    exact .inr ⟨hp, by omega, hstart, hlt, by omega⟩

/-- The verdict after one more byte, from the checks R143 makes by phase and count. -/
theorem receiveByte_eq_judged {s : State} {g : List Byte} (hs : StateInv s)
    (hp : s.phase = .rxHdr ∨ s.phase = .rxBody) (hg : captured s = some g) (b : Byte) :
    receiveByte b s = .next (judged (g ++ [b]) (captureByte b s)) := by
  have hcnt : s.rxCnt.toNat + 1 = (g ++ [b]).length := by simp [captured_length hg]
  have hsofar := received_so_far hs hp hg b
  have hbound : s.rxCnt.toNat < 0xF006 := by omega
  have hg' := captured_captureByte hg (by omega) b
  have hlast : (g ++ [b])[(g ++ [b]).length - 1]? = some b := by simp
  have hcnt' := rxCnt_captureByte hbound b
  generalize g ++ [b] = g' at *
  by_cases h6 : g'.length < 6
  · have hhdr : s.phase = .rxHdr := hsofar.elim And.left fun ⟨_, h7, _⟩ => by omega
    rw [receiveByte_short hhdr (by omega), judged, if_pos h6]
  · have hcell : ∀ i < 6, memRead (captureByte b s).rxBuf i = some (g'.getD i 0) := fun i hi => by
      rw [captured_cell hg' (by omega), List.getD_eq_getElem _ _ (by omega),
        List.getElem?_eq_getElem]
    obtain ⟨hi, lo, -, -, hn, hdecl⟩ := rxLen_of_captured hg' (by omega)
    rw [judged, if_neg h6]
    rcases hsofar with ⟨hp, hle⟩ | ⟨hp, hge, hstart, hlt, hle⟩
    · rw [receiveByte_sixth hp (by omega), checkHeader_eq (hcell 0 (by omega)) hn,
        ← captured_cell hg' (by omega), hcell 0 (by omega), hdecl]
      simp only [ne_eq, Option.some_inj]
      rw [if_pos (show g'.length < declared g' + 7 by omega)]
    · rw [receiveByte_body hp hbound, checkBody_eq (hcell 3 (by omega)) hn, hcnt', hcnt, hdecl,
        if_neg (not_not.mpr hstart), if_neg (Nat.not_le_of_lt hlt), hlast,
        ← captured_cell hg' (show 3 < g'.length by omega), hcell 3 (by omega)]
      simp only [ne_eq, Option.some_inj]
      by_cases hfull : g'.length = declared g' + 7
      · rw [if_pos hfull, if_neg (show ¬g'.length < declared g' + 7 by omega)]
      · rw [if_neg hfull, if_pos (show g'.length < declared g' + 7 by omega),
          ← show (captureByte b s).phase = .rxBody from hp]

/-- `RXB` in a receiving phase completes with the verdict on the captured bytes (R108). -/
theorem exec_rxb_eq_judged {s : State} {g : List Byte} {b : Byte} (hs : StateInv s)
    (hp : s.phase = .rxHdr ∨ s.phase = .rxBody) (hg : captured s = some g)
    (hq : s.rxQ = [] ∨ s.rxQ.head? = some b) :
    exec (.rxb b) s = .next (judged (g ++ [b]) (taken b s)) := by
  rw [exec_rxb_taken hp hq]
  exact receiveByte_eq_judged (stateInv_rxQ hs s.rxQ.tail) hp hg b

/-- An `RXB` that completes in a receiving phase took a byte the link may offer (log entry 11). -/
theorem rxb_offered {s t : State} {b : Byte} (hp : s.phase = .rxHdr ∨ s.phase = .rxBody)
    (h : exec (.rxb b) s = .next t) : s.rxQ = [] ∨ s.rxQ.head? = some b := by
  rcases execRxb_cases h with ⟨hhdr, hbody, -⟩ | ⟨-, hq, -⟩
  · exact absurd hp (not_or.mpr ⟨hhdr, hbody⟩)
  · exact hq

/-- Settles O22: the byte is compared with the head of `RXQ` before anything else. -/
theorem rxbOutsideItsPhases : Obligations.RxbOutsideItsPhases := by
  refine fun s b => ⟨fun hhdr hbody => dropped_rxb (not_or.mpr ⟨hhdr, hbody⟩) b,
    fun hp h q hq hne => ?_⟩
  show execRxb b s = _
  rw [execRxb, if_pos (rxReady_iff.mpr hp), hq]
  exact if_neg hne

end Sys2Proof.Proofs
end

section
/-! PROOFS. What one response byte does, check by check, and the agreement of the receiver with
`VALID` (`42_link_ops.md` §2, `40_codec.md` §5). -/

namespace Sys2Proof.Proofs

open Sys2Proof Sys2Proof.Machine Sys2Proof.Statements

theorem captured_taken {s : State} {g : List Byte} (hs : StateInv s) (hg : captured s = some g)
    (b : Byte) : captured (taken b s) = some (g ++ [b]) :=
  captured_captureByte (s := { s with rxQ := s.rxQ.tail }) hg
    (Nat.lt_of_le_of_lt hs.capturedHeld.1 (by decide)) b

/-! Which check follows on the byte taken, by phase and count (R143). -/

section
variable {s : State} {b : Byte} (hq : s.rxQ = [] ∨ s.rxQ.head? = some b)
include hq

theorem exec_rxb_short (hp : s.phase = .rxHdr) (hc : s.rxCnt.toNat + 1 < 6) :
    exec (.rxb b) s = .next (taken b s) :=
  (exec_rxb_taken (.inl hp) hq).trans
    (receiveByte_short (s := { s with rxQ := s.rxQ.tail }) hp hc b)

theorem exec_rxb_sixth (hp : s.phase = .rxHdr) (hc : s.rxCnt.toNat + 1 = 6) :
    exec (.rxb b) s = checkHeader (taken b s) :=
  (exec_rxb_taken (.inl hp) hq).trans
    (receiveByte_sixth (s := { s with rxQ := s.rxQ.tail }) hp hc b)

theorem exec_rxb_body (hp : s.phase = .rxBody) (hc : s.rxCnt.toNat < 0xF006) :
    exec (.rxb b) s = checkBody b (taken b s) :=
  (exec_rxb_taken (.inr hp) hq).trans
    (receiveByte_body (s := { s with rxQ := s.rxQ.tail }) hp hc b)

end

/-- Settles O21: the checks read cells that are held once the byte is captured. -/
theorem rxbByPhaseAndCount : Obligations.RxbByPhaseAndCount := by
  intro s b hs hq
  obtain ⟨g, hg⟩ := stateInv_captured hs
  have hg' := captured_taken hs hg b
  have hlen : (g ++ [b]).length = s.rxCnt.toNat + 1 := by simp [captured_length hg]
  have hcell : ∀ i < s.rxCnt.toNat + 1, ∃ v, memRead (taken b s).rxBuf i = some v := fun i hi =>
    ⟨_, (captured_cell hg' (by omega)).trans (List.getElem?_eq_getElem (by omega))⟩
  refine ⟨exec_rxb_short hq, fun hp hc => ?_, fun hp => ?_,
    fun hhdr hbody => dropped_rxb (not_or.mpr ⟨hhdr, hbody⟩) b⟩
  · obtain ⟨m, hm⟩ := hcell 0 (by omega)
    obtain ⟨hi, lo, hhi, hlo, hn, -⟩ := rxLen_of_captured hg' (by omega)
    refine ⟨m, hi, lo, hm, hhi, hlo, ?_⟩
    rw [exec_rxb_sixth hq hp hc, checkHeader_eq hm hn, be16_toNat]
    rfl
  · obtain ⟨-, n, -, hlt, hlo, hhi⟩ := stateInv_rxBody hs hp
    have hbound : s.rxCnt.toNat < 0xF006 := by omega
    obtain ⟨q, hq3⟩ := hcell 3 (by omega)
    obtain ⟨hi, lo, hhi, hlo, hn, -⟩ := rxLen_of_captured hg' (by omega)
    refine ⟨q, hi, lo, hq3, hhi, hlo, ?_⟩
    have hcnt : (taken b s).rxCnt.toNat = s.rxCnt.toNat + 1 := rxCnt_captureByte hbound b
    rw [exec_rxb_body hq hp hbound, checkBody_eq hq3 hn, be16_toNat, hcnt]
    rfl

/-- Settles O23: an enabled `RXB` captures its byte at `RXCNT`; no other effect has another
`RXBUF`. -/
theorem onlyRxbWritesRxbuf : Obligations.OnlyRxbWritesRxbuf := by
  intro i s t _ h
  refine ⟨?_, fun hne => ?_⟩
  · rintro b rfl hp
    rw [exec_rxb_taken hp (rxb_offered hp h)] at h
    obtain ⟨p, e, rfl, -⟩ := receiveByte_phase h
    exact ⟨Nat.le_of_lt_succ (receiveByte_cases h).1, memRead_memWrite_same _ _ _,
      fun a ha => memRead_memWrite_other _ _ ha⟩
  · cases effect_of_exec h with
    | byteTaken => exact absurd rfl (hne _)
    | reset | sent | carried | tooBig | ack | tmo | flt | written | byteSent | lastByteSent
    | seqStepped | kept => rfl

/-! ## The verdict agrees with `VALID` (R108) -/

/-- The end marker of a frame of the declared length stands in its last byte. -/
theorem fourConditions_iff {g : List Byte} :
    FourConditions g ↔ g[0]? = some 0xFE ∧ declared g < 0xF000 ∧ g.length = declared g + 7 ∧
      g[g.length - 1]? = some 0xFD := by
  constructor
  · rintro ⟨-, hstart, hlt, hlen, hend⟩
    exact ⟨hstart, hlt, hlen, by rwa [show g.length - 1 = 6 + declared g by omega]⟩
  · rintro ⟨hstart, hlt, hlen, hend⟩
    exact ⟨by omega, hstart, hlt, hlen, by rwa [show 6 + declared g = g.length - 1 by omega]⟩

/-- The four outcomes of the verdict, on a state that still receives. Behind the sixth byte the
header has been checked already, and no byte follows the last one. Which bytes stand where does not
matter to the argument, so they are generalized. -/
theorem judged_outcomes {g : List Byte} {s : State} (hp : s.phase ≠ .done) (herr : s.err = none)
    (hsofar : g.length ≤ 6 ∨
      (g[0]? = some 0xFE ∧ declared g < 0xF000 ∧ g.length ≤ declared g + 7)) :
    ((judged g s).phase = .done ↔ FourConditions g ∧ g[3]? = some s.reqSeq) ∧
    ((judged g s).err = some .malformed ↔ g.length = 6 ∧ g[0]? ≠ some 0xFE) ∧
    ((judged g s).err = some .invalid ↔ g[0]? = some 0xFE ∧
      ((g.length = 6 ∧ 0xF000 ≤ declared g) ∨
       (6 ≤ g.length ∧ g.length = declared g + 7 ∧ g[g.length - 1]? ≠ some 0xFD))) ∧
    ((judged g s).err = some .desync ↔ FourConditions g ∧ g[3]? ≠ some s.reqSeq) := by
  rw [fourConditions_iff]
  unfold judged
  generalize some (0xFE : Byte) = startMarker at *
  generalize some (0xFD : Byte) = endMarker at *
  generalize g[0]? = start at *
  generalize g[g.length - 1]? = last
  generalize declared g = d at *
  generalize g.length = n at *
  split_ifs with hshort hstart hlong hmore hend hseq
  · simp [hp, herr]; omega
  · have hn : n = 6 := by
      rcases hsofar with hle | ⟨hok, -⟩
      · omega
      · exact absurd hok hstart
    simp [hstart, hn]
  · have hn : n = 6 := by omega
    simp [not_not.mp hstart, hn, hlong]
  · simp [herr, not_not.mp hstart]; omega
  all_goals have hn : n = d + 7 := by omega
  · simp [hend, not_not.mp hstart, hn]
  · simp [not_not.mp hend, not_not.mp hstart, hseq, hn]
    omega
  · simp [not_not.mp hend, not_not.mp hstart, not_not.mp hseq, hn, herr]
    omega

/-- Settles O24: an enabled `RXB` that completes is the verdict on the captured bytes. -/
theorem streamingReceiverAgreesWithValid : Obligations.StreamingReceiverAgreesWithValid := by
  intro s t b hs hp h
  obtain ⟨g, hg⟩ := stateInv_captured hs
  rw [exec_rxb_eq_judged hs hp hg (rxb_offered hp h)] at h
  cases h
  obtain ⟨p, e, hkept⟩ := judged_frame (g ++ [b]) (taken b s)
  refine ⟨g ++ [b], ?_, by simp [captured_length hg],
    judged_outcomes (s := taken b s) ?_ (hs.errIff.mpr ?_) ?_⟩
  · rw [hkept]
    exact captured_taken hs hg b
  · show s.phase ≠ .done
    rcases hp with hp | hp <;> simp [hp]
  · rcases hp with hp | hp <;> simp [hp]
  · rcases received_so_far hs hp hg b with ⟨-, hle⟩ | ⟨-, -, hsofar⟩
    · exact .inl hle
    · exact .inr hsofar

/-! ## Nothing of an invalid frame is readable (R35) -/

/-- Settles O33: outside `DONE` those reads give 0, and in `DONE` the invariant gives the frame. -/
theorem noInvalidFrameIsReadable : Obligations.NoInvalidFrameIsReadable := by
  intro s hs hread
  have hdone : s.phase = .done := by
    by_contra hp
    rcases hread with ⟨a, v, hret, h6, hv⟩ | ⟨n, w, hn, hret, hw⟩
    · have hout : ¬a.toNat < windowSize s := fun hin => by
        rcases lt_windowSize_iff.mp hin with ⟨hdone, -⟩ | ⟨-, hlt⟩
        · exact hp hdone
        · omega
      rw [returns_rdrx_iff, rdrxValue_outside hout] at hret
      exact hv (Except.ok.inj hret).symm
    · have hzero : csrValue s n = .ok 0 := by
        rcases hn with rfl | rfl
        · exact respHdrWord_of_ne_done hp
        · exact respLenWord_of_ne_done hp
      rw [returns_rdcsr_iff, hzero] at hret
      exact hw (Except.ok.inj hret).symm
  exact ⟨hdone, ((phaseClause_of_done hdone).mp (stateInv_phaseClause hs)).2⟩

end Sys2Proof.Proofs
end

section
/-! PROOFS. The invariant of the reachable states: it holds after reset, every step keeps it, and it
leaves one fault (`10_state.md` §5, `20_memory.md` §2). -/

namespace Sys2Proof.Proofs

open Sys2Proof Sys2Proof.Machine Sys2Proof.Statements

/-! ## The clauses that hold in every phase -/

/-- Without captured bytes nothing has to be held. -/
theorem buffersInv_of_rxCnt_zero {s t : State} (hb : BuffersInv s) (hcnt : t.rxCnt = 0)
    (htx : t.txBuf = s.txBuf) (hrx : t.rxBuf = s.rxBuf) : BuffersInv t where
  oneIndex := .inr hcnt
  capturedHeld := by simp [hcnt, cellsHeld]
  txBufForm := htx ▸ hb.txBufForm
  rxBufForm := hrx ▸ hb.rxBufForm

theorem cellsHeld_of_captured {s : State} {g : List Byte} (h : captured s = some g) :
    cellsHeld s.rxBuf s.rxCnt.toNat := fun a ha => by
  have hlt : a < g.length := (captured_length h).symm ▸ ha
  rw [captured_cell h hlt, List.getElem?_eq_getElem hlt]
  rfl

/-- A byte taken in a receiving phase lands inside `RXBUF` (R53). -/
theorem buffersInv_taken {s : State} (hs : StateInv s) (h0 : s.txIdx = 0)
    (hc : s.rxCnt.toNat < 0xF006) (b : Byte) : BuffersInv (taken b s) := by
  obtain ⟨g, hg⟩ := stateInv_captured hs
  exact ⟨.inl h0, ⟨(rxCnt_captureByte hc b).trans_le hc,
      cellsHeld_of_captured (captured_taken hs hg b)⟩,
    hs.txBufForm, memWrite_inSpace hs.rxBufForm b hc⟩

/-! ## What keeps the invariant -/

theorem stateInv_of_err {s : State} (hb : BuffersInv s) (hp : s.phase = .err)
    (herr : s.err ≠ none) : StateInv s :=
  stateInv_of_clauses hb (by simp [hp, herr]) (by simp [phaseClause, hp])

/-- The invariant does not look at the value last returned. -/
theorem stateInv_ret {s : State} (h : StateInv s) (r : Ret) : StateInv { s with ret := r } :=
  ⟨h.errIff, h.idle, h.tx, h.rxHdr, h.rxBody, h.done, h.oneIndex, h.txIdxRest, h.capturedHeld,
    h.txBufForm, h.rxBufForm⟩

/-- Nor at the contents of `TXBUF`. -/
theorem stateInv_txBuf {s : State} (h : StateInv s) {m : Memory}
    (hm : m.inSpace Config.txBufDepth) : StateInv { s with txBuf := m } :=
  ⟨h.errIff, h.idle, h.tx, h.rxHdr, h.rxBody, h.done, h.oneIndex, h.txIdxRest, h.capturedHeld,
    hm, h.rxBufForm⟩

/-- The verdict keeps the invariant: what it lets through is so far a frame. -/
theorem stateInv_judged {s : State} {g : List Byte} (hb : BuffersInv s) (herr : s.err = none)
    (h0 : s.txIdx = 0) (hg : captured s = some g)
    (hp : s.phase = .rxHdr ∨ s.phase = .rxBody ∧ 6 ≤ g.length)
    (hlen : g.length ≤ declared g + 7) : StateInv (judged g s) := by
  have hraise : ∀ e, StateInv (raiseErr e s) := fun e =>
    stateInv_of_err ⟨hb.oneIndex, hb.capturedHeld, hb.txBufForm, hb.rxBufForm⟩ rfl nofun
  unfold judged
  split_ifs with hshort hstart hlong hmore hend hseq
  · have hp : s.phase = .rxHdr := hp.resolve_right fun ⟨_, h6⟩ => by omega
    exact stateInv_of_clauses hb (by simp [hp, herr])
      ((phaseClause_of_rxHdr hp).mpr ⟨h0, captured_length hg ▸ hshort⟩)
  · exact hraise _
  · exact hraise _
  · exact stateInv_of_clauses ⟨hb.oneIndex, hb.capturedHeld, hb.txBufForm, hb.rxBufForm⟩
      (by simp [herr]) ((phaseClause_of_rxBody rfl).mpr ⟨h0, g, hg, by omega,
        not_not.mp hstart, by omega, hmore⟩)
  · exact hraise _
  · exact hraise _
  · have hfour : FourConditions g := fourConditions_iff.mpr
      ⟨not_not.mp hstart, by omega, by omega, not_not.mp hend⟩
    exact stateInv_of_clauses ⟨hb.oneIndex, hb.capturedHeld, hb.txBufForm, hb.rxBufForm⟩
      (by simp [herr]) ((phaseClause_of_done rfl).mpr ⟨h0, g, hg, hfour, not_not.mp hseq⟩)

theorem stateInv_receiving_txIdx {s : State} (hs : StateInv s)
    (hp : s.phase = .rxHdr ∨ s.phase = .rxBody) : s.txIdx = 0 :=
  hs.txIdxRest (by rcases hp with hp | hp <;> simp [hp]) (by rcases hp with hp | hp <;> simp [hp])

theorem stateInv_judged_taken {s : State} {g : List Byte} (hs : StateInv s)
    (hp : s.phase = .rxHdr ∨ s.phase = .rxBody) (hg : captured s = some g) (b : Byte) :
    StateInv (judged (g ++ [b]) (taken b s)) := by
  have h0 := stateInv_receiving_txIdx hs hp
  have hcnt : s.rxCnt.toNat + 1 = (g ++ [b]).length := by simp [captured_length hg]
  have hsofar := received_so_far hs hp hg b
  refine stateInv_judged (buffersInv_taken hs h0 (by omega) b) (hs.errIff.mpr ?_) h0
    (captured_taken hs hg b) ?_ ?_
  · rcases hp with hp | hp <;> simp [hp]
  · exact hsofar.imp And.left fun ⟨hbody, h7, _⟩ => ⟨hbody, by omega⟩
  · omega

/-- Every operation keeps the invariant, by its effect. -/
theorem stateInv_of_exec {i : Instr} {s t : State} (hseq : i ≠ .nextSeq) (hs : StateInv s)
    (h : exec i s = .next t) : StateInv t := by
  have hb := stateInv_buffers hs
  have hraise : ∀ e, StateInv (raiseErr e s) := fun e =>
    stateInv_of_err ⟨hb.oneIndex, hb.capturedHeld, hb.txBufForm, hb.rxBufForm⟩ rfl nofun
  cases effect_of_exec h with
  | reset | ack =>
    exact stateInv_of_clauses (buffersInv_of_rxCnt_zero hb rfl rfl rfl)
      (iff_of_true rfl nofun) ⟨rfl, rfl⟩
  | sent y c n _ hn =>
    exact stateInv_of_clauses (buffersInv_of_rxCnt_zero hb rfl rfl rfl)
      (iff_of_true rfl nofun) ⟨hn, Nat.zero_le _, rfl⟩
  | carried =>
    exact stateInv_of_clauses (buffersInv_of_rxCnt_zero hb rfl rfl rfl)
      (iff_of_true rfl nofun) ⟨rfl, (by decide : (0 : Half).toNat < 6)⟩
  | tooBig => exact stateInv_of_err (buffersInv_of_rxCnt_zero hb rfl rfl rfl) rfl nofun
  | tmo | flt => exact hraise _
  | written ha =>
    exact stateInv_txBuf hs (memWrite_inSpace hs.txBufForm _ (Nat.lt_succ_of_le ha))
  | byteSent hp hmore =>
    obtain ⟨hlegal, hidx, hcnt⟩ := stateInv_tx hs hp
    refine stateInv_of_clauses (buffersInv_of_rxCnt_zero hb hcnt rfl rfl) hs.errIff ?_
    simp only [phaseClause, hp]
    exact ⟨hlegal, by bv_omega, hcnt⟩
  | lastByteSent hp =>
    have herr : s.err = none := hs.errIff.mpr (by simp [hp])
    have hcnt := (stateInv_tx hs hp).2.2
    exact stateInv_of_clauses (buffersInv_of_rxCnt_zero hb hcnt rfl rfl)
      (iff_of_true herr nofun) ⟨rfl, by simp [hcnt]⟩
  | byteTaken hp hq ht =>
    obtain ⟨g, hg⟩ := stateInv_captured hs
    rw [← exec_rxb_taken hp hq, exec_rxb_eq_judged hs hp hg hq] at ht
    cases ht
    exact stateInv_judged_taken hs hp hg _
  | seqStepped => exact absurd rfl hseq
  | kept r => exact stateInv_ret hs r

/-- Settles O29: what every operation keeps, every step keeps. -/
theorem everyStepKeepsTheInvariant : Obligations.EveryStepKeepsTheInvariant := fun _ _ hs h =>
  step_keeps (fun _ _ _ => stateInv_of_exec) (fun _ r hs => stateInv_ret hs r)
    (fun _ r hs => stateInv_sched hs r) (fun s b hs => stateInv_rxQ hs (s.rxQ ++ [b])) hs h

/-- Settles O28: after reset nothing is captured and both buffers are empty. -/
theorem resetMeetsTheInvariant : Obligations.ResetMeetsTheInvariant :=
  stateInv_of_clauses ⟨.inl rfl, ⟨Nat.zero_le _, nofun⟩, ⟨.nil, nofun⟩, ⟨.nil, nofun⟩⟩
    (iff_of_true rfl nofun) ⟨rfl, rfl⟩

/-! ## The faults of a state of the invariant (R52, R53) -/

/-- The fault that remains: a payload cell of `TXBUF` without a value (U5). -/
def PayloadFault (s : State) (f : Fault) : Prop :=
  ∃ a, f = .txBufUnwritten a ∧ a < 0xEFFF ∧ memRead s.txBuf a = none

theorem payloadFault_of_txb {s : State} {f : Fault} (hs : StateInv s)
    (h : exec .txb s = .fault f) : PayloadFault s f := by
  obtain ⟨hp, hbyte⟩ := handOver_eq_fault.mp h
  obtain ⟨a, rfl, -, ha, hnone⟩ := txByte_eq_error.mp hbyte
  obtain ⟨hlegal, -⟩ := stateInv_tx hs hp
  exact ⟨a, rfl, by omega, hnone⟩

theorem exec_rxb_ne_fault {s : State} {b : Byte} {f : Fault} (hs : StateInv s) :
    exec (.rxb b) s ≠ .fault f := fun h => by
  by_cases hp : s.phase = .rxHdr ∨ s.phase = .rxBody
  · by_cases hq : s.rxQ = [] ∨ s.rxQ.head? = some b
    · obtain ⟨g, hg⟩ := stateInv_captured hs
      cases (exec_rxb_eq_judged hs hp hg hq).symm.trans h
    · cases hrx : s.rxQ with
      | nil => exact hq (.inl hrx)
      | cons d q =>
        have hne : d ≠ b := fun he => hq (.inr (by simp [hrx, he]))
        cases ((rxbOutsideItsPhases s b).2 hp d q hrx hne).symm.trans h
  · cases (dropped_rxb hp b).symm.trans h

theorem exec_rdcsr_ne_fault {s : State} {n : BitVec 3} {f : Fault} (hs : StateInv s) :
    exec (.rdcsr n) s ≠ .fault f := fun h => by
  obtain ⟨hclosed, hopen⟩ := responseStatusRegisters s hs
  have hret : ∃ w, Returns (.rdcsr n) s (.word w) := by
    by_cases hn : n.toNat ≤ 5
    · exact (requestStatusRegisters s).1 n hn
    · have hn : n = 6 ∨ n = 7 := by bv_omega
      by_cases hp : s.phase = .done
      · obtain ⟨-, ⟨w, -, -, h6, -⟩, w', -, -, h7, -⟩ := hopen hp
        rcases hn with rfl | rfl
        · exact ⟨w, h6⟩
        · exact ⟨w', h7⟩
      · rcases hn with rfl | rfl
        · exact ⟨0, (hclosed hp).1⟩
        · exact ⟨0, (hclosed hp).2⟩
  obtain ⟨w, hw⟩ := hret
  cases hw.symm.trans h

theorem exec_codec_ne_fault {i : Instr} {c : CodecCall} (hi : encode i = .fn c) {s : State}
    {f : Fault} : exec i s ≠ .fault f := fun h => by
  by_cases hseq : i = .nextSeq
  · subst hseq
    cases h
  · obtain ⟨r, hr⟩ := codec_returns hi hseq s
    cases hr.symm.trans h

theorem payloadFault_of_wireRow {i : Instr} (hrow : isWireRow i = true) {s : State} {f : Fault}
    (h : exec i s = .fault f) : PayloadFault s f := by
  obtain ⟨t, c, n, -, hexec⟩ := exec_wireRow hrow
  rw [hexec] at h
  rcases carryRequest_cases t c n s with ⟨-, hc⟩ | ⟨-, -, hc⟩ | ⟨-, -, p, -, hc⟩ |
      ⟨-, hn, a, ha, hnone, hc⟩
  · cases hc.symm.trans h
  · cases hc.symm.trans h
  · cases hc.symm.trans h
  · cases hc.symm.trans h
    exact ⟨a, rfl, by omega, hnone⟩

/-- From a state of the invariant an operation faults on an unwritten payload cell only. -/
theorem payloadFault_of_exec {i : Instr} {s : State} {f : Fault} (hs : StateInv s)
    (h : exec i s = .fault f) : PayloadFault s f := by
  by_cases hrow : isWireRow i = true
  · exact payloadFault_of_wireRow hrow h
  · cases i with
    | txb => exact payloadFault_of_txb hs h
    | rxb b => exact absurd h (exec_rxb_ne_fault hs)
    | rdcsr n => exact absurd h (exec_rdcsr_ne_fault hs)
    | rdrx a =>
      obtain ⟨v, hv, -⟩ := (rdrxWindows s hs).1 a
      cases hv.symm.trans h
    | send | rst => cases h
    | ack =>
      have h : execAck s = .fault f := h
      unfold execAck at h
      split at h <;> cases h
    | tmo =>
      have h : execTmo s = .fault f := h
      unfold execTmo at h
      split at h <;> cases h
    | flt =>
      have h : execFlt s = .fault f := h
      unfold execFlt at h
      split at h <;> cases h
    | wrtx a v =>
      rw [exec_wrtx, execWrtx] at h
      split at h <;> cases h
    | nextSeq => exact absurd h (exec_codec_ne_fault rfl)
    | encode y c q p => exact absurd h (exec_codec_ne_fault rfl)
    | pLen b => exact absurd h (exec_codec_ne_fault rfl)
    | valid b => exact absurd h (exec_codec_ne_fault rfl)
    | decode b => exact absurd h (exec_codec_ne_fault rfl)
    | chkSeq y c q n => exact absurd h (exec_codec_ne_fault rfl)
    | _ => exact absurd rfl hrow

theorem payloadFault_of_runWord {w : PortWord} {s : State} {f : Fault} (hs : StateInv s)
    (h : runWord w s = .fault f) : PayloadFault s f := by
  unfold runWord at h
  split at h
  · exact payloadFault_of_exec hs (runOperation_fault h)
  all_goals cases h

/-- A command word stands for one of the four commands (R72). -/
theorem decode_cw_command {w : BitVec 35} {i : Instr} (h : decode (.cw w) = .ok i) :
    (∃ t c n, i = .send t c n) ∨ i = .ack ∨ i = .tmo ∨ i = .flt := by
  simp only [Sys2Proof.decode, decodeCommandWord] at h
  split_ifs at h
  · cases h; exact .inl ⟨_, _, _, rfl⟩
  · cases h; exact .inr (.inl rfl)
  · cases h; exact .inr (.inr (.inl rfl))
  · cases h; exact .inr (.inr (.inr rfl))

/-- Only `WRTX` writes `TXBUF` (R51). -/
theorem txBuf_of_exec {i : Instr} {s t : State} (hi : ∀ a v, i ≠ .wrtx a v)
    (h : exec i s = .next t) : t.txBuf = s.txBuf := by
  cases effect_of_exec h with
  | written => exact absurd rfl (hi _ _)
  | byteTaken _ _ ht =>
    obtain ⟨p, e, rfl, -⟩ := receiveByte_phase ht
    rfl
  | reset | sent | carried | tooBig | ack | tmo | flt | byteSent | lastByteSent | seqStepped
  | kept => rfl

/-- The command of a cycle keeps the invariant and `TXBUF`. -/
theorem cycleCommand_keeps {p : Pins} {s t : State} (hs : StateInv s)
    (h : cycleCommand p s = .next t) : StateInv t ∧ t.txBuf = s.txBuf := by
  unfold cycleCommand at h
  split at h
  · rcases runWord_cases h with ⟨i, hd, hseq, hi⟩ | ⟨r, rfl⟩
    · refine ⟨stateInv_of_exec hseq hs hi, txBuf_of_exec (fun a v => ?_) hi⟩
      rcases decode_cw_command hd with ⟨y, c, n, rfl⟩ | rfl | rfl | rfl <;> nofun
    · exact ⟨stateInv_ret hs r, rfl⟩
  · cases h
    exact ⟨hs, rfl⟩

theorem cycleWrite_ne_fault {p : Pins} {s : State} {f : Fault} :
    cycleWrite p s ≠ .fault f := fun h => by
  unfold cycleWrite at h
  split at h
  · rw [exec_wrtx, execWrtx] at h
    split at h <;> cases h
  · cases h

theorem andThen_eq_fault {o : Result} {k : State → Result} {f : Fault}
    (h : andThen o k = .fault f) : o = .fault f ∨ ∃ s, o = .next s ∧ k s = .fault f := by
  cases o with
  | next s => exact .inr ⟨s, rfl, h⟩
  | fault g => exact .inl h
  | refused r => cases h

theorem payloadFault_of_runCycle {p : Pins} {s : State} {f : Fault} (hs : StateInv s)
    (h : runCycle p s = .fault f) : PayloadFault s f := by
  cases hrst : p.rstN with
  | false =>
    rw [runCycle_of_reset hrst] at h
    exact payloadFault_of_exec hs h
  | true =>
    rw [runCycle_of_no_reset hrst] at h
    rcases andThen_eq_fault h with hcmd | ⟨s1, hcmd, h⟩
    · unfold cycleCommand at hcmd
      split at hcmd
      · exact payloadFault_of_runWord hs hcmd
      · cases hcmd
    · obtain ⟨hs1, hbuf⟩ := cycleCommand_keeps hs hcmd
      have hlink : cycleLink p s1 = .fault f := by
        rcases andThen_eq_fault h with hlink | ⟨s2, -, hwrite⟩
        · exact hlink
        · exact absurd hwrite cycleWrite_ne_fault
      rw [cycleLink_eq] at hlink
      rw [PayloadFault, ← hbuf]
      split_ifs at hlink
      · exact payloadFault_of_txb hs1 hlink
      · exact absurd hlink (exec_rxb_ne_fault hs1)

/-- Settles O32: by the kinds of event. -/
theorem onlyUnwrittenPayloadFaults : Obligations.OnlyUnwrittenPayloadFaults := by
  intro s f hs h
  unfold step at h
  split at h
  · cases h
  · next e rest _ =>
    have hs' := stateInv_sched hs rest
    cases e with
    | port w => exact payloadFault_of_runWord (s := { s with sched := rest }) hs' h
    | arrive b => cases h
    | cycle p => exact payloadFault_of_runCycle (s := { s with sched := rest }) hs' h

end Sys2Proof.Proofs
end

section
/-! PROOFS. Encodings: the decoder undoes the encoder, the longest mask names a header, and what a
command word stands for (`30_encoding.md`). -/

namespace Sys2Proof.Proofs

open Sys2Proof Sys2Proof.Machine Sys2Proof.Statements

/-- Settles O44: row by row of the opcode table. -/
theorem decodeOfEncodeIsTheOperation : Obligations.DecodeOfEncodeIsTheOperation := by
  intro i
  cases i with
  | send t c n => exact Laws.RoundTrip.send t c n
  | ack => exact Laws.RoundTrip.ack
  | tmo => exact Laws.RoundTrip.tmo
  | flt => exact Laws.RoundTrip.flt
  | wrtx a v => exact Laws.RoundTrip.wrtx a v
  | rdrx a => exact Laws.RoundTrip.rdrx a
  | rdcsr n => exact Laws.RoundTrip.rdcsr n
  | txb => exact Laws.RoundTrip.txb
  | rxb d => exact Laws.RoundTrip.rxb d
  | rst => exact Laws.RoundTrip.rst
  | nextSeq => exact Laws.RoundTrip.nextSeq
  | encode t c q p => exact Laws.RoundTrip.encode t c q p
  | pLen b => exact Laws.RoundTrip.pLen b
  | valid b => exact Laws.RoundTrip.valid b
  | decode b => exact Laws.RoundTrip.decode b
  | chkSeq t c q n => exact Laws.RoundTrip.chkSeq t c q n
  | frame t c q n => exact Laws.RoundTrip.frame t c q n
  | familySystem c q n => exact Laws.RoundTrip.familySystem c q n
  | familyStream c q n => exact Laws.RoundTrip.familyStream c q n
  | familyClock c q n => exact Laws.RoundTrip.familyClock c q n
  | familyMetadata c q n => exact Laws.RoundTrip.familyMetadata c q n
  | familyNotification c q n => exact Laws.RoundTrip.familyNotification c q n
  | familyGpio c q n => exact Laws.RoundTrip.familyGpio c q n
  | readinessCheck q n => exact Laws.RoundTrip.readinessCheck q n
  | play q n => exact Laws.RoundTrip.play q n
  | getPlayStatus q n => exact Laws.RoundTrip.getPlayStatus q n
  | setStereoMode q n => exact Laws.RoundTrip.setStereoMode q n
  | setVolume q n => exact Laws.RoundTrip.setVolume q n
  | getClock q n => exact Laws.RoundTrip.getClock q n
  | getAppData q n => exact Laws.RoundTrip.getAppData q n

/-- Settles O47, by evaluating the decoder on each word. -/
theorem sampleWordsDecode : Obligations.SampleWordsDecode := by
  unfold Obligations.SampleWordsDecode
  decide

/-! ## Header words (R75, R82) -/

/-- `command_type` of a header word. -/
def headerType (w : BitVec 48) : Byte := BitVec.ofNat 8 (field w 39 32)
/-- `command` of a header word. -/
def headerCommand (w : BitVec 48) : Byte := BitVec.ofNat 8 (field w 31 24)

/-- The word begins with the start marker. -/
def wellStarted (w : BitVec 48) : Prop := w.toNat / 2 ^ 40 = 0xFE

theorem rowMatches_frameRow_iff {m : String} {w : BitVec 48} :
    rowMatches (frameRow m) w = true ↔ wellStarted w :=
  Laws.rowMatches_frameRow m w

theorem rowMatches_familyRow_iff {m : String} {t : Byte} {w : BitVec 48} :
    rowMatches (familyRow m t) w = true ↔ wellStarted w ∧ headerType w = t := by
  have hw := w.isLt; have ht := t.isLt
  rw [Laws.rowMatches_familyRow, wellStarted, headerType, ← BitVec.toNat_inj]
  simp only [field, BitVec.toNat_ofNat, Config.startMarker, BitVec.reduceToNat]
  omega

theorem rowMatches_commandRow_iff {m : String} {t c : Byte} {w : BitVec 48} :
    rowMatches (commandRow m t c) w = true ↔
      wellStarted w ∧ headerType w = t ∧ headerCommand w = c := by
  have hw := w.isLt; have ht := t.isLt; have hc := c.isLt
  rw [Laws.rowMatches_commandRow, wellStarted, headerType, headerCommand, ← BitVec.toNat_inj,
    ← BitVec.toNat_inj]
  simp only [field, BitVec.toNat_ofNat, Config.startMarker, BitVec.reduceToNat]
  omega

theorem decode_fh_wellStarted {w : BitVec 48} (h : wellStarted w) :
    decode (.fh w) = .ok (nameHeader (headerType w) (headerCommand w)
      (BitVec.ofNat 8 (field w 23 16)) (BitVec.ofNat 16 (field w 15 0))) := by
  have hw := w.isLt
  exact if_pos (show field w 47 40 = 0xFE by rw [wellStarted] at h; simp only [field]; omega)

theorem decode_fh_unmarked {w : BitVec 48} (h : ¬wellStarted w) :
    decode (.fh w) = .error .noStartMarker := by
  have hw := w.isLt
  exact if_neg fun (hf : field w 47 40 = 0xFE) => h (by
    rw [wellStarted]; simp only [field] at hf; omega)

theorem frameRow_mask (m : String) : (frameRow m).mask = 0xFF0000000000 := rfl
theorem familyRow_mask (m : String) (t : Byte) :
    (familyRow m t).mask = 0xFFFF00000000 := rfl
theorem commandRow_mask (m : String) (t c : Byte) :
    (commandRow m t c).mask = 0xFFFFFF000000 := rfl

/-- The rows of the table are of three kinds, by how many bytes of the header they fix. -/
theorem headerRows_kind {r : HeaderRow} (h : r ∈ headerRows) :
    (∃ m, r = frameRow m) ∨ (∃ m t, listedType t = true ∧ r = familyRow m t) ∨
    ∃ m t c, listedCommand t c = true ∧ r = commandRow m t c := by
  simp only [headerRows, List.cons_append, List.nil_append, List.mem_cons, List.not_mem_nil,
    or_false] at h
  rcases h with rfl | rfl | rfl | rfl | rfl | rfl | rfl | rfl | rfl | rfl | rfl | rfl | rfl | rfl
  · exact .inl ⟨_, rfl⟩
  iterate 6 exact .inr (.inl ⟨_, _, by decide, rfl⟩)
  iterate 7 exact .inr (.inr ⟨_, _, _, by decide, rfl⟩)

/-- The row that names an operation with this header: the command's, else the family's, else
`FRAME`. -/
def NamedBy (i : Instr) (t c : Byte) (r : HeaderRow) : Prop :=
  wellFormed i = true ∧ r ∈ headerRows ∧ headerMnemonic i = some r.mnemonic ∧
  ((∃ m, r = commandRow m t c) ∨
   (listedCommand t c = false ∧ ∃ m, r = familyRow m t) ∨
   (listedCommand t c = false ∧ listedType t = false ∧ ∃ m, r = frameRow m))

theorem namedBy_command {i : Instr} {m : String} {t c : Byte} (hw : wellFormed i = true)
    (hm : headerMnemonic i = some m) (hr : commandRow m t c ∈ headerRows) :
    ∃ r, NamedBy i t c r :=
  ⟨_, hw, hr, hm, .inl ⟨m, rfl⟩⟩

theorem namedBy_family {i : Instr} {m : String} {t c : Byte} (hc : listedCommand t c = false)
    (hw : wellFormed i = !listedCommand t c) (hm : headerMnemonic i = some m)
    (hr : familyRow m t ∈ headerRows) : ∃ r, NamedBy i t c r :=
  ⟨_, by rw [hw, hc]; rfl, hr, hm, .inr (.inl ⟨hc, m, rfl⟩)⟩

theorem namedBy_frame {t c q : Byte} {n : Half} (hc : listedCommand t c = false)
    (ht : listedType t = false) : ∃ r, NamedBy (.frame t c q n) t c r :=
  ⟨frameRow "FRAME", by rw [wellFormed, ht]; rfl, by decide, rfl, .inr (.inr ⟨hc, ht, _, rfl⟩)⟩

/-- `nameHeader` finds the row, family by family. -/
theorem nameHeader_namedBy (t c q : Byte) (n : Half) :
    ∃ r, NamedBy (nameHeader t c q n) t c r := by
  unfold nameHeader
  split_ifs <;> subst_vars
  · exact namedBy_command rfl rfl (by decide)
  · exact namedBy_family (by simp_all [listedCommand]) rfl rfl (by decide)
  iterate 4 exact namedBy_command rfl rfl (by decide)
  · exact namedBy_family (by simp_all [listedCommand]) rfl rfl (by decide)
  · exact namedBy_command rfl rfl (by decide)
  · exact namedBy_family (by simp_all [listedCommand]) rfl rfl (by decide)
  · exact namedBy_command rfl rfl (by decide)
  · exact namedBy_family (by simp_all [listedCommand]) rfl rfl (by decide)
  iterate 2 exact namedBy_family (by simp [listedCommand]) rfl rfl (by decide)
  · exact namedBy_frame (by simp_all [listedCommand]) (by simp_all [listedType])

/-- A word with which a row matches begins with the start marker. -/
theorem wellStarted_of_rowMatches {r : HeaderRow} (hr : r ∈ headerRows) {w : BitVec 48}
    (h : rowMatches r w = true) : wellStarted w := by
  rcases headerRows_kind hr with ⟨m, rfl⟩ | ⟨m, t, -, rfl⟩ | ⟨m, t, c, -, rfl⟩
  · exact rowMatches_frameRow_iff.mp h
  · exact (rowMatches_familyRow_iff.mp h).1
  · exact (rowMatches_commandRow_iff.mp h).1

/-- The row that names a header matches it. -/
theorem rowMatches_of_namedBy {i : Instr} {w : BitVec 48} {r : HeaderRow} (hw : wellStarted w)
    (h : NamedBy i (headerType w) (headerCommand w) r) : rowMatches r w = true := by
  obtain ⟨-, -, -, ⟨m, rfl⟩ | ⟨-, m, rfl⟩ | ⟨-, -, m, rfl⟩⟩ := h
  · exact rowMatches_commandRow_iff.mpr ⟨hw, rfl, rfl⟩
  · exact rowMatches_familyRow_iff.mpr ⟨hw, rfl⟩
  · exact rowMatches_frameRow_iff.mpr hw

/-- No matching row has a mask bit that the naming row lacks. -/
theorem mask_le_of_namedBy {i : Instr} {w : BitVec 48} {r r' : HeaderRow} (hr : r ∈ headerRows)
    (hmatch : rowMatches r w = true) (h : NamedBy i (headerType w) (headerCommand w) r') :
    r.mask &&& r'.mask = r.mask := by
  obtain ⟨-, -, -, hkind⟩ := h
  rcases headerRows_kind hr with ⟨m, rfl⟩ | ⟨m, t, ht, rfl⟩ | ⟨m, t, c, hc, rfl⟩
  · rcases hkind with ⟨m', rfl⟩ | ⟨-, m', rfl⟩ | ⟨-, -, m', rfl⟩
    · rw [frameRow_mask, commandRow_mask]; rfl
    · rw [frameRow_mask, familyRow_mask]; rfl
    · exact Nat.and_self _
  · obtain ⟨-, rfl⟩ := rowMatches_familyRow_iff.mp hmatch
    rcases hkind with ⟨m', rfl⟩ | ⟨-, m', rfl⟩ | ⟨-, hno, -⟩
    · rw [familyRow_mask, commandRow_mask]; rfl
    · exact Nat.and_self _
    · cases hno.symm.trans ht
  · obtain ⟨-, rfl, rfl⟩ := rowMatches_commandRow_iff.mp hmatch
    rcases hkind with ⟨m', rfl⟩ | ⟨hno, -⟩ | ⟨hno, -⟩
    · exact Nat.and_self _
    · cases hno.symm.trans hc
    · cases hno.symm.trans hc

/-- Settles O45: the row `nameHeader` finds has every mask bit of every row that matches. -/
theorem headerNamedByTheLongestMask : Obligations.HeaderNamedByTheLongestMask := by
  intro w
  refine ⟨fun hnone => decode_fh_unmarked fun hw => ?_, fun r hr hmatch => ?_⟩
  · have hframe := hnone (frameRow "FRAME") (by decide)
    rw [rowMatches_frameRow_iff.mpr hw] at hframe
    cases hframe
  · have hw := wellStarted_of_rowMatches hr hmatch
    obtain ⟨r', hnamed⟩ := nameHeader_namedBy (headerType w) (headerCommand w)
      (BitVec.ofNat 8 (field w 23 16)) (BitVec.ofNat 16 (field w 15 0))
    have hwf := id hnamed
    obtain ⟨hwell, hmem, hmnemonic, -⟩ := hwf
    exact ⟨_, r', decode_fh_wellStarted hw, hwell, hmem, rowMatches_of_namedBy hw hnamed,
      hmnemonic, mask_le_of_namedBy hr hmatch hnamed⟩

/-! ## Command words (R71, R72) -/

/-- What a command word decodes to, by its operation code. -/
theorem decode_cw (w : BitVec 35) :
    decode (.cw w) =
      if w.toNat / 2 ^ 32 = 1 then
        .ok (.send (BitVec.ofNat 8 (field w 31 24)) (BitVec.ofNat 8 (field w 23 16))
          (BitVec.ofNat 16 (field w 15 0)))
      else if w.toNat / 2 ^ 32 = 2 then .ok .ack
      else if w.toNat / 2 ^ 32 = 3 then .ok .tmo
      else if w.toNat / 2 ^ 32 = 4 then .ok .flt
      else .error (.reservedOp (w.toNat / 2 ^ 32)) := by
  rw [← field_op_eq_div]; rfl

theorem cmdAccept_of_reserved {w : BitVec 35}
    (h : w.toNat / 2 ^ 32 = 0 ∨ 5 ≤ w.toNat / 2 ^ 32) (s : State) : cmdAccept s w = false := by
  rw [cmdAccept, field_op_eq_div, ← Bool.not_eq_true, accepts_iff]
  omega

/-- Settles O46, by operation code. -/
theorem reservedCommandWordsAreDropped : Obligations.ReservedCommandWordsAreDropped := by
  intro s w
  simp only [decode_cw]
  refine ⟨fun h => ⟨?_, cmdAccept_of_reserved h s,
      runWord_cw_dropped (cmdAccept_of_reserved h s)⟩, fun h => ?_, fun h => ?_, fun h => ?_,
    fun h => ?_⟩
  · rw [if_neg (by omega), if_neg (by omega), if_neg (by omega), if_neg (by omega)]
  · refine ⟨_, _, _, if_pos h, ?_, ?_, ?_⟩ <;> simp [field]
  · rw [if_neg (by omega), if_pos h]
  · rw [if_neg (by omega), if_neg (by omega), if_pos h]
  · rw [if_neg (by omega), if_neg (by omega), if_neg (by omega), if_pos h]

end Sys2Proof.Proofs
end

section
/-! PROOFS. Steps: which operation an event runs, what a busy link, the error phase and the guarded
step make of it, and the sequence counter over every step (`20_memory.md` §6,
`60_exceptions.md`). -/

namespace Sys2Proof.Proofs

open Sys2Proof Sys2Proof.Machine Sys2Proof.Statements

/-! ## The next event (R58) -/

theorem step_cons {s : State} {e : Event} {rest : List Event} (h : s.sched = e :: rest) :
    step s = runEvent e { s with sched := rest } := by
  rw [step, h]

theorem runWord_of_decode {w : PortWord} {i : Instr} (h : decode w = .ok i) (s : State) :
    runWord w s = runOperation w i s := by
  rw [runWord, h]

/-- Beside the block and on it, a codec function that writes no register does the same. -/
theorem runOperation_of_ne_nextSeq {w : PortWord} {i : Instr} (hd : decode w = .ok i)
    (hseq : i ≠ .nextSeq) (s : State) : runOperation w i s = exec i s := by
  cases w with
  | fn c =>
    have henc : ∃ c', encode i = .fn c' := by
      cases hd
      cases c <;> exact ⟨_, rfl⟩
    obtain ⟨c', henc⟩ := henc
    obtain ⟨r, hr⟩ := codec_returns henc hseq s
    have hr : exec i s = .next { s with ret := r } := hr
    rw [runOperation, callBeside, hr]
    rfl
  | _ => rfl

theorem step_of_decode {s : State} {w : PortWord} {rest : List Event} {i : Instr}
    (hs : s.sched = .port w :: rest) (hd : decode w = .ok i) (hseq : i ≠ .nextSeq) :
    step s = exec i { s with sched := rest } := by
  rw [step_cons hs, runEvent, runWord_of_decode hd, runOperation_of_ne_nextSeq hd hseq]

/-- `NEXTSEQ` stands on the codec's port only, where its value alone takes effect (log entry 8). -/
theorem step_of_nextSeq {s : State} {w : PortWord} {rest : List Event}
    (hs : s.sched = .port w :: rest) (hd : decode w = .ok .nextSeq) :
    step s = .next { s with sched := rest, ret := .byte s.seq } := by
  rw [step_cons hs, runEvent, runWord_of_decode hd]
  cases w with
  | fn c => rfl
  | _ => exact absurd rfl (decode_ne_nextSeq (by simp) hd)

/-- Settles O50: by the kinds of event. -/
theorem stepRunsTheDecodedOperation : Obligations.StepRunsTheDecodedOperation := fun s =>
  ⟨fun _ _ _ hs hd hseq => step_of_decode hs hd hseq, fun _ _ hs hd => step_of_nextSeq hs hd,
    fun _ _ hs => step_cons hs, fun _ _ hs => step_cons hs, fun hs => by rw [step, hs]⟩

/-- No word of the opcode table stands on the codec's port (log entry 10). -/
theorem tableWord_port {nbits w : Nat} {p : PortWord} (h : tableWord nbits w = some p) :
    ∀ c, p ≠ .fn c := by
  unfold tableWord at h
  split_ifs at h <;> cases h <;> simp

/-- Settles O51: the word placed is the next event. -/
theorem fetchWordRunsNext : Obligations.FetchWordRunsNext := by
  intro s nbits w i h
  unfold decodeTableWord at h
  split at h
  · cases h
  · next p hp =>
    split at h
    · next j hd =>
      cases h
      have hplaced : s.withFetchWord nbits w = { s with sched := .port p :: s.sched } := by
        simp [State.withFetchWord, placeTableWord, hp]
      rw [hplaced, step_of_decode rfl hd (decode_ne_nextSeq (tableWord_port hp) hd)]
    · cases h

/-! ## Reset and a busy link -/

theorem decode_cw_send_iff {w : BitVec 35} :
    (∃ y c n, decode (.cw w) = .ok (.send y c n)) ↔ w.toNat / 2 ^ 32 = 1 := by
  rw [decode_cw]
  constructor
  · rintro ⟨y, c, n, hd⟩
    by_contra h1
    rw [if_neg h1] at hd
    split_ifs at hd <;> cases hd
  · exact fun h1 => ⟨_, _, _, if_pos h1⟩

theorem cmdAccept_of_idle {s : State} (h : s.phase = .idle) (w : BitVec 35) :
    cmdAccept s w = true ↔ w.toNat / 2 ^ 32 = 1 := by
  rw [cmdAccept, field_op_eq_div, accepts_iff]
  simp [h]

theorem statusWord_of_idle {s : State} (hp : s.phase = .idle) (he : s.err = none) :
    statusWord s = 0 := by
  simp [statusWord, hp, he, phaseCode, errCode, busy, doneOut, errOut]

/-- Settles O2: after reset the phase is `IDLE` and every register is 0. -/
theorem outputsAfterReset : Obligations.OutputsAfterReset := by
  rintro s t ⟨⟩
  refine ⟨rfl, rfl, rfl, rfl, rfl, rfl, rfl,
    fun w => (cmdAccept_of_idle rfl w).trans decode_cw_send_iff.symm,
    fun n => returns_rdcsr_iff.mpr ?_⟩
  have hn : n = 0 ∨ n = 1 ∨ n = 2 ∨ n = 3 ∨ n = 4 ∨ n = 5 ∨ n = 6 ∨ n = 7 := by bv_omega
  rcases hn with rfl | rfl | rfl | rfl | rfl | rfl | rfl | rfl
  · exact congrArg Except.ok (statusWord_of_idle rfl rfl)
  iterate 3 rfl
  · exact congrArg Except.ok (by decide : be16 0 0 = 0)
  iterate 3 rfl

theorem cycleCommand_of_no_strobe {p : Pins} (h : p.cmdStrobe = false) (s : State) :
    cycleCommand p s = .next s := by
  simp [cycleCommand, h]

theorem cycleWrite_of_no_write {p : Pins} (h : p.txbufWe = false) (s : State) :
    cycleWrite p s = .next s := by
  simp [cycleWrite, h]

/-- A cycle with neither command nor write is the link's turn alone. -/
theorem runCycle_link_only {p : Pins} (hrst : p.rstN = true) (hcmd : p.cmdStrobe = false)
    (hwe : p.txbufWe = false) (s : State) : runCycle p s = cycleLink p s := by
  rw [runCycle_of_no_reset hrst, cycleCommand_of_no_strobe hcmd, andThen_next]
  cases cycleLink p s with
  | next t => exact cycleWrite_of_no_write hwe t
  | fault f => rfl
  | refused r => rfl

/-- Settles O20: such a cycle is the link's turn alone. -/
theorem transientBusyChangesNothing : Obligations.TransientBusyChangesNothing := by
  intro s p hp hrst hcmd hready hwe
  refine ⟨?_, txValid_iff.mpr hp, txData_of_tx hp, ?_⟩
  · rw [runCycle_link_only hrst hcmd hwe, cycleLink_eq]
    simp [hp, hready]
  · rw [runCycle_link_only (p := { p with txReady := true }) hrst hcmd hwe, cycleLink_eq]
    simp [hp]

/-! ## The error phase (R193) -/

/-- In `ERR` these operations are dropped. -/
theorem dropped_of_err {s : State} (hp : s.phase = .err) {i : Instr}
    (hi : (∃ t c n, i = .send t c n) ∨ i = .tmo ∨ i = .flt ∨ i = .txb ∨ (∃ b, i = .rxb b) ∨
      isWireRow i = true) : Dropped i s := by
  rcases hi with ⟨t, c, n, rfl⟩ | rfl | rfl | rfl | ⟨b, rfl⟩ | hrow
  · exact dropped_send (by simp [hp]) t c n
  · exact dropped_tmo (by simp [hp])
  · exact dropped_flt (by simp [hp])
  · exact dropped_txb (by simp [hp])
  · exact dropped_rxb (by simp [hp]) b
  · exact dropped_wireRow hrow (by simp [hp])

/-- An operation is one of the five, dropped in `ERR`, or a codec function. -/
theorem instr_kind (i : Instr) :
    (i = .ack ∨ i = .rst ∨ (∃ a v, i = .wrtx a v) ∨ (∃ a, i = .rdrx a) ∨ ∃ n, i = .rdcsr n) ∨
    ((∃ t c n, i = .send t c n) ∨ i = .tmo ∨ i = .flt ∨ i = .txb ∨ (∃ b, i = .rxb b) ∨
      isWireRow i = true) ∨
    ∃ c, encode i = .fn c := by
  cases i
  case ack | rst | wrtx | rdrx | rdcsr => simp
  case nextSeq | encode | pLen | valid | decode | chkSeq => exact .inr (.inr ⟨_, rfl⟩)
  all_goals simp [isWireRow, headerMnemonic]

/-- Settles O26: an operation that is none of the five is dropped or a codec function. -/
theorem errPhaseDropsEverythingElse : Obligations.ErrPhaseDropsEverythingElse := by
  refine fun s hp => ⟨fun i => dropped_of_err hp,
    fun w rest i hs hd hack hrst hwrtx hrdrx hrdcsr => ?_⟩
  by_cases hseq : i = .nextSeq
  · subst hseq
    exact ⟨_, step_of_nextSeq hs hd⟩
  rw [step_of_decode hs hd hseq]
  rcases instr_kind i with (rfl | rfl | ⟨a, v, rfl⟩ | ⟨a, rfl⟩ | ⟨n, rfl⟩) | hi | ⟨c, hc⟩
  · exact absurd rfl hack
  · exact absurd rfl hrst
  · exact absurd rfl (hwrtx a v)
  · exact absurd rfl (hrdrx a)
  · exact absurd rfl (hrdcsr n)
  · exact ⟨s.ret, dropped_of_err (s := { s with sched := rest }) hp hi⟩
  · exact codec_returns hc hseq { s with sched := rest }

/-! ## The guarded step (R120, U1, U3) -/

/-- A word in breach on the command port is one `cmd_accept` does not accept. -/
theorem commandBreach_cases (s : State) (w : BitVec 35) :
    (cmdAccept s w = true ∧ breach.commandBreach s w = none) ∨
    (cmdAccept s w = false ∧ (breach.commandBreach s w = some .commandDropped ∨
      breach.commandBreach s w = some .reservedCommandWord)) := by
  cases hd : decode (.cw w) with
  | error e =>
    have hreserved : w.toNat / 2 ^ 32 = 0 ∨ 5 ≤ w.toNat / 2 ^ 32 := by
      rw [decode_cw] at hd
      split_ifs at hd
      omega
    exact .inr ⟨cmdAccept_of_reserved hreserved s, .inr (by rw [breach.commandBreach, hd])⟩
  | ok i =>
    cases ha : cmdAccept s w with
    | true => exact .inl ⟨rfl, by simp [breach.commandBreach, hd, ha]⟩
    | false => exact .inr ⟨rfl, .inl (by simp [breach.commandBreach, hd, ha])⟩

theorem commandBreach_ne_none_iff {s : State} {w : BitVec 35} :
    breach.commandBreach s w ≠ none ↔ cmdAccept s w = false := by
  rcases commandBreach_cases s w with ⟨ha, hb⟩ | ⟨ha, hb | hb⟩ <;> simp [ha, hb]

theorem rxBreach_ne_none_iff {s : State} {d : Byte} :
    breach.rxBreach s d ≠ none ↔
      ∃ h q, (s.phase = .rxHdr ∨ s.phase = .rxBody) ∧ s.rxQ = h :: q ∧ h ≠ d := by
  unfold breach.rxBreach
  cases s.rxQ <;> simp

/-- The events in breach, kind by kind. -/
theorem breach_ne_none_iff {s : State} {e : Event} :
    breach s e ≠ none ↔
      (∃ w, e = .port (.cw w) ∧ cmdAccept s w = false) ∨
      (∃ w, e = .port (.fh w) ∧ s.phase ≠ .idle) ∨
      (∃ d h q, e = .port (.rx d) ∧ (s.phase = .rxHdr ∨ s.phase = .rxBody) ∧
        s.rxQ = h :: q ∧ h ≠ d) ∨
      (∃ p, e = .cycle p ∧ p.rstN = true ∧ p.cmdStrobe = true ∧
        cmdAccept s p.cmdWord = false) := by
  cases e with
  | arrive b => simp [breach]
  | cycle p =>
    by_cases hcmd : p.rstN = true ∧ p.cmdStrobe = true
    · simp [breach, hcmd, commandBreach_ne_none_iff]
    · have hoff : (p.rstN && p.cmdStrobe) = false := by
        rw [← Bool.not_eq_true, Bool.and_eq_true]; exact hcmd
      simp [breach, hoff]
      tauto
  | port w =>
    cases w with
    | cw w => simp [breach, commandBreach_ne_none_iff]
    | rx d => simp [breach, rxBreach_ne_none_iff]
    | fh w => simp [breach]
    | wr w | rd w | cs w | tx w | rs w | fn w => simp [breach]

theorem guardedStep_of_breach {s : State} {e : Event} {rest : List Event}
    (hs : s.sched = e :: rest) {r : Refusal} (h : breach s e = some r) :
    guardedStep s = .refused r := by
  simp [guardedStep, hs, h]

theorem guardedStep_of_no_breach {s : State} {e : Event} {rest : List Event}
    (hs : s.sched = e :: rest) (h : breach s e = none) : guardedStep s = step s := by
  simp [guardedStep, hs, h]

theorem guardedStep_of_no_event {s : State} (hs : s.sched = []) : guardedStep s = step s := by
  simp [guardedStep, hs]

/-- Settles O54, by whether the next event is in breach (`breach_ne_none_iff`). -/
theorem guardedStepRefusesDroppedCommands : Obligations.GuardedStepRefusesDroppedCommands := by
  refine fun s => ⟨fun t h => ?_, guardedStep_of_no_event, fun e rest hs =>
    ⟨guardedStep_of_no_breach hs, fun r => guardedStep_of_breach hs, breach_ne_none_iff⟩,
    fun w rest hs ha => ⟨?_, ?_⟩⟩
  · cases hs : s.sched with
    | nil => rwa [guardedStep_of_no_event hs] at h
    | cons e rest =>
      cases hb : breach s e with
      | none => rwa [guardedStep_of_no_breach hs hb] at h
      | some r => cases (guardedStep_of_breach hs hb).symm.trans h
  · rcases commandBreach_cases s w with ⟨hyes, -⟩ | ⟨-, hb⟩
    · cases ha.symm.trans hyes
    · exact hb.imp (guardedStep_of_breach hs) (guardedStep_of_breach hs)
  · rw [step_cons hs]
    exact runWord_cw_dropped (s := { s with sched := rest }) ha

/-! ## The sequence counter over every step (R21) -/

/-- `t` is `s` with both registers written by a request, by a reset, or not at all. -/
def SeqWritten (starts resets : Bool) (s t : State) : Prop :=
  (starts = true → s.phase = .idle ∧ t.reqSeq = s.seq ∧ t.seq = s.seq + 1) ∧
  (resets = true → t.seq = 0 ∧ t.reqSeq = 0) ∧
  (starts = false → resets = false → t.seq = s.seq ∧ t.reqSeq = s.reqSeq)

theorem seqWritten_of_same {s t : State} (hseq : t.seq = s.seq) (hreq : t.reqSeq = s.reqSeq) :
    SeqWritten false false s t :=
  ⟨nofun, nofun, fun _ _ => ⟨hseq, hreq⟩⟩

theorem seqWritten_of_exec {i : Instr} {s t : State} (hseq : i ≠ .nextSeq)
    (h : exec i s = .next t) : SeqWritten (startsRequest i s) (decide (i = .rst)) s t := by
  obtain ⟨hstart, hreset, hkept⟩ := seq_of_exec hseq h
  exact ⟨hstart, fun hr => hreset (of_decide_eq_true hr),
    fun hs hr => hkept hs (of_decide_eq_false hr)⟩

theorem seqWritten_of_runWord {w : PortWord} {s t : State} (h : runWord w s = .next t) :
    SeqWritten (wordStarts w s) (decide (decode w = .ok .rst)) s t := by
  cases hd : decode w with
  | error e =>
    have hret : t = s := by
      rw [runWord, hd] at h
      cases e <;> cases h <;> rfl
    simp only [wordStarts, hd, reduceCtorEq, decide_false]
    exact seqWritten_of_same (hret ▸ rfl) (hret ▸ rfl)
  | ok i =>
    rw [runWord_of_decode hd] at h
    by_cases hseq : i = .nextSeq
    · subst hseq
      cases w with
      | fn c =>
        cases h
        simp only [wordStarts, hd]
        exact seqWritten_of_same rfl rfl
      | _ => exact absurd rfl (decode_ne_nextSeq (by simp) hd)
    · rw [runOperation_of_ne_nextSeq hd hseq] at h
      simpa [wordStarts, hd] using seqWritten_of_exec hseq h

/-- The link's turn and the payload write of a cycle keep both registers. -/
theorem seq_of_cycle_rest {p : Pins} {s1 s2 t : State} (hlink : cycleLink p s1 = .next s2)
    (hwrite : cycleWrite p s2 = .next t) : t.seq = s1.seq ∧ t.reqSeq = s1.reqSeq := by
  have hkept : ∀ (i : Instr) {u v : State}, requestLen i = none → i ≠ .nextSeq → i ≠ .rst →
      exec i u = .next v → v.seq = u.seq ∧ v.reqSeq = u.reqSeq := fun i _ _ hlen hseq hrst h =>
    (seq_of_exec hseq h).2.2 (startsRequest_of_none hlen _) hrst
  have h2 : s2.seq = s1.seq ∧ s2.reqSeq = s1.reqSeq := by
    rw [cycleLink_eq] at hlink
    split_ifs at hlink
    · exact hkept .txb rfl nofun nofun hlink
    · exact hkept (.rxb _) rfl nofun nofun hlink
    · cases hlink; exact ⟨rfl, rfl⟩
  unfold cycleWrite at hwrite
  split at hwrite
  · obtain ⟨hseq, hreq⟩ := hkept (.wrtx _ _) rfl nofun nofun hwrite
    exact ⟨hseq.trans h2.1, hreq.trans h2.2⟩
  · cases hwrite; exact h2

theorem decode_cw_ne_rst (w : BitVec 35) : decode (.cw w) ≠ .ok .rst := fun h => by
  rcases decode_cw_command h with ⟨t, c, n, hi⟩ | hi | hi | hi <;> cases hi

theorem seqWritten_of_runCycle {p : Pins} {s t : State} (h : runCycle p s = .next t) :
    SeqWritten (eventStarts (.cycle p) s) (eventResets (.cycle p)) s t := by
  cases hrst : p.rstN with
  | false =>
    rw [runCycle_of_reset hrst] at h
    simpa [eventStarts, eventResets, hrst, startsRequest, requestLen] using
      seqWritten_of_exec (i := .rst) nofun h
  | true =>
    rw [runCycle_of_no_reset hrst] at h
    obtain ⟨s1, hcmd, h⟩ := andThen_eq_next.mp h
    obtain ⟨s2, hlink, hwrite⟩ := andThen_eq_next.mp h
    obtain ⟨hseq, hreq⟩ := seq_of_cycle_rest hlink hwrite
    have hfirst : SeqWritten (eventStarts (.cycle p) s) (eventResets (.cycle p)) s s1 := by
      cases hstrobe : p.cmdStrobe with
      | false =>
        rw [cycleCommand_of_no_strobe hstrobe] at hcmd
        cases hcmd
        simpa [eventStarts, eventResets, hrst, hstrobe] using seqWritten_of_same rfl rfl
      | true =>
        rw [cycleCommand, if_pos hstrobe] at hcmd
        simpa [eventStarts, eventResets, hrst, hstrobe, decode_cw_ne_rst] using
          seqWritten_of_runWord hcmd
    rwa [SeqWritten, hseq, hreq]

theorem seqWritten_of_runEvent {e : Event} {s t : State} (h : runEvent e s = .next t) :
    SeqWritten (eventStarts e s) (eventResets e) s t := by
  cases e with
  | port w => exact seqWritten_of_runWord h
  | arrive b => cases h; exact seqWritten_of_same rfl rfl
  | cycle p => exact seqWritten_of_runCycle h

theorem seqFollowsReqSeq_of_seqWritten {starts resets : Bool} {s t : State}
    (h : SeqWritten starts resets s t) (hs : SeqFollowsReqSeq s) : SeqFollowsReqSeq t := by
  obtain ⟨hstart, hreset, hkept⟩ := h
  cases starts with
  | true =>
    obtain ⟨-, hreq, hseq⟩ := hstart rfl
    exact .inl (by rw [nextSeqNumber_eq, hseq, hreq])
  | false =>
    cases resets with
    | true => exact .inr (hreset rfl)
    | false =>
      obtain ⟨hseq, hreq⟩ := hkept rfl rfl
      rwa [SeqFollowsReqSeq, hseq, hreq]

/-- Settles O59: by the kinds of event; in a cycle the command comes first and the rest of it
writes neither register. -/
theorem seqIsWrittenOnlyByRequestsAndReset : Obligations.SeqIsWrittenOnlyByRequestsAndReset := by
  intro s t h
  cases hs : s.sched with
  | nil =>
    rw [step, hs] at h
    cases h
    exact ⟨nofun, id⟩
  | cons e rest =>
    rw [step_cons hs] at h
    have hwritten := seqWritten_of_runEvent h
    refine ⟨fun e' rest' he => ?_, fun hrel => seqFollowsReqSeq_of_seqWritten hwritten hrel⟩
    cases he
    obtain ⟨hstart, hreset, hkept⟩ := hwritten
    have hsame : eventStarts e { s with sched := rest } = eventStarts e s := rfl
    rw [hsame] at hstart hkept
    refine ⟨fun hyes => ?_, hreset, hkept⟩
    obtain ⟨hidle, hreq, hseq⟩ := hstart hyes
    exact ⟨hidle, hreq, by rw [hseq, BitVec.toNat_add]; rfl⟩

end Sys2Proof.Proofs
end

section
/-! PROOFS. Single calls of codec functions, framing, and the host around the block: handshake,
timer and policies (`40_codec.md`, `60_exceptions.md`, `70_reset_and_hazards.md` §2). -/

namespace Sys2Proof.Proofs

open Sys2Proof Sys2Proof.Machine Sys2Proof.Statements

/-! ## Codec functions (R100, R102, R105, R110) -/

/-- Settles O35: a byte steps modulo 256 by itself. -/
theorem nextSeqReturnsAndSteps : Obligations.NextSeqReturnsAndSteps := fun s =>
  ⟨nextSeqNumber s.seq, rfl, by rw [nextSeqNumber_eq, BitVec.toNat_add]; rfl⟩

/-- Settles O37: with a header `plenOf` has a value. -/
theorem plenReadsBytesFourAndFive : Obligations.PlenReadsBytesFourAndFive := by
  intro s b
  by_cases h : 6 ≤ b.length
  · obtain ⟨n, hn, hdeclared⟩ := plenOf_of_header h
    exact ⟨n, by simp [Returns, exec, execPLen, hn, returning], fun _ => hdeclared⟩
  · have hnone := plenOf_of_short (Nat.lt_of_not_le h)
    exact ⟨Config.plenOfShortBuffer b, by simp [Returns, exec, execPLen, hnone, returning],
      fun h6 => absurd h6 h⟩

/-- Settles O40, by the definition of `chkSeq`. -/
theorem chkSeqComparesTheSequenceByte : Obligations.ChkSeqComparesTheSequenceByte :=
  fun s _ _ q _ => ⟨chkSeq q s.reqSeq, rfl, by simp [chkSeq]⟩

/-- Two valid frames at the start of one stream are the same bytes. -/
theorem take_eq_take_of_valid {b : List Byte} {j k : Nat} (hjk : j ≤ k)
    (hj : validFrame (b.take j) = true) (hk : validFrame (b.take k) = true) :
    b.take j = b.take k :=
  eq_of_prefix_of_fourConditions (List.take_isPrefix_take.mpr (.inl hjk))
    (validFrame_iff.mp hj) (validFrame_iff.mp hk)

/-- Settles O43: the shorter of two such frames is the longer one. -/
theorem framingIsPrefixDetermined : Obligations.FramingIsPrefixDetermined := by
  intro b j k hj hk hvj hvk
  have heq : b.take j = b.take k := by
    rcases Nat.le_total j k with hjk | hkj
    · exact take_eq_take_of_valid hjk hvj hvk
    · exact (take_eq_take_of_valid hkj hvk hvj).symm
  obtain ⟨h6, -, -, hlen, -⟩ := validFrame_iff.mp hvj
  have hdeclared : declared (b.take j) = declared b := by
    rw [List.length_take] at h6
    exact declared_congr (List.getElem?_take_of_lt (by omega))
      (List.getElem?_take_of_lt (by omega))
  rw [hdeclared, List.length_take] at hlen
  have hsame := congrArg List.length heq
  rw [List.length_take, List.length_take] at hsame
  exact ⟨by omega, by omega⟩

/-! ## The handshake (R225, R227) -/

/-- While attempts are left a timeout only counts. -/
theorem handshake_timeouts {n k : Nat} (hk : k ≤ n - 1) (hn : 1 ≤ n)
    (rest : List ExchangeResult) :
    handshake n (List.replicate k (.failed .timeout) ++ rest) =
      rest.foldl (handshakeStep n) (.attempting (k + 1)) := by
  have hfold : ∀ {k j}, j + k ≤ n → (List.replicate k (.failed .timeout)).foldl (handshakeStep n)
      (.attempting j) = .attempting (j + k) := by
    intro k
    induction k with
    | zero => intro j _; rfl
    | succ k ih =>
      intro j hj
      rw [List.replicate_succ, List.foldl_cons, handshakeStep, if_neg (by omega), ih (by omega),
        Nat.add_right_comm, Nat.add_assoc]
  rw [handshake, List.foldl_append, handshakeStart, if_neg (by omega), hfold (by omega),
    Nat.add_comm]

/-! A handshake that has ended stays as it is. -/

theorem foldl_handshakeStep_ready (n : Nat) (rest : List ExchangeResult) :
    rest.foldl (handshakeStep n) .ready = .ready :=
  List.foldl_fixed' (fun _ => rfl) rest

theorem foldl_handshakeStep_noResponse (n : Nat) (rest : List ExchangeResult) :
    rest.foldl (handshakeStep n) .noResponse = .noResponse :=
  List.foldl_fixed' (fun _ => rfl) rest

theorem foldl_handshakeStep_failed (n : Nat) (e : ErrKind) (rest : List ExchangeResult) :
    rest.foldl (handshakeStep n) (.failed e) = .failed e :=
  List.foldl_fixed' (fun _ => rfl) rest

/-- An error other than the timeout ends the handshake (R227). -/
theorem handshakeStep_failed {e : ErrKind} (he : e ≠ .timeout) (n k : Nat) :
    handshakeStep n (.attempting k) (.failed e) = .failed e := by
  cases e
  case timeout => exact absurd rfl he
  all_goals rfl

/-- Settles O55: after the timeouts of `k` attempts the next result decides. -/
theorem handshakeForgivesOnlyTimeouts : Obligations.HandshakeForgivesOnlyTimeouts := by
  refine ⟨foldl_handshakeStep_noResponse 0, fun n k rest hn hk =>
    ⟨fun f => ?_, fun e he => ?_, ?_, ?_, by simp [handshakeSleeps]⟩⟩
  · rw [handshake_timeouts (by omega) hn]
    exact foldl_handshakeStep_ready n rest
  · rw [handshake_timeouts (by omega) hn, List.foldl_cons, handshakeStep_failed he]
    exact foldl_handshakeStep_failed n e rest
  · obtain ⟨m, rfl⟩ := Nat.exists_eq_add_of_le' hn
    rw [List.replicate_succ', List.append_assoc, handshake_timeouts (by omega) hn,
      List.singleton_append, List.foldl_cons, handshakeStep, if_pos le_rfl]
    exact foldl_handshakeStep_noResponse _ rest
  · simpa using handshake_timeouts (n := n) (k := k) (by omega) hn []

theorem timerCommand_eq_none {d : Nat} {t : Timer} :
    timerCommand d t = none ↔ timerExpired d t = false := by
  simp [timerCommand]

theorem decode_of_timerCommand {d : Nat} {t : Timer} {w : PortWord}
    (h : timerCommand d t = some w) : decode w = .ok .tmo := by
  unfold timerCommand at h
  split at h
  · cases h
    exact Laws.RoundTrip.tmo rfl
  · cases h

/-! What the handshaking host issues, by the phase it sees. -/

theorem handshakeCommand_of_idle {s : State} (h : s.phase = .idle) (d k : Nat) (t : Timer) :
    handshakeCommand d (.attempting k) t s = some (encode (.send 0x00 0x00 (halfOf 0))) := by
  simp [handshakeCommand, h, readinessRequest]

theorem handshakeCommand_of_ended {s : State} (h : s.phase = .done ∨ s.phase = .err) (d : Nat)
    (st : HandshakeStatus) (t : Timer) : handshakeCommand d st t s = some (encode .ack) := by
  rcases h with h | h <;> simp [handshakeCommand, h]

theorem handshakeCommand_of_tx {s : State} (h : s.phase = .tx) (d : Nat) (st : HandshakeStatus)
    (t : Timer) : handshakeCommand d st t s = none := by
  simp [handshakeCommand, h]

theorem handshakeCommand_of_receiving {s : State} (h : s.phase = .rxHdr ∨ s.phase = .rxBody)
    (d : Nat) (st : HandshakeStatus) (t : Timer) :
    handshakeCommand d st t s = timerCommand d t := by
  rcases h with h | h <;> simp [handshakeCommand, h]

/-- Settles O56: the words are encodings of the operations (`Laws.RoundTrip`). -/
theorem handshakeIssuesReadinessChecks : Obligations.HandshakeIssuesReadinessChecks := by
  refine fun d k t s => ⟨fun hp => ⟨_, handshakeCommand_of_idle hp d k t,
      Laws.RoundTrip.send 0x00 0x00 (halfOf 0) rfl⟩,
    fun hp st => ⟨_, handshakeCommand_of_ended hp d st t, Laws.RoundTrip.ack rfl⟩,
    fun hp st => handshakeCommand_of_tx hp d st t, fun hp st => ?_⟩
  rw [handshakeCommand_of_receiving hp]
  exact ⟨timerCommand_eq_none, fun w => decode_of_timerCommand⟩

/-! ## The deadline timer (R195) -/

/-- In the phase it was started for, the timer runs on. -/
theorem timerObserve_same {p : Phase} (hp : p = .rxHdr ∨ p = .rxBody) (e : Nat) :
    timerObserve p ⟨some p, e⟩ = ⟨some p, e⟩ := by
  rcases hp with rfl | rfl <;> rfl

/-- At the entry to a receiving phase it starts afresh. -/
theorem timerObserve_entry {p : Phase} (hp : p = .rxHdr ∨ p = .rxBody) {t : Timer}
    (h : t.phase ≠ some p) : timerObserve p t = ⟨some p, 0⟩ := by
  rcases hp with rfl | rfl <;> exact if_neg h

theorem timer_foldl {p : Phase} (hp : p = .rxHdr ∨ p = .rxBody) (ds : List Nat) (e : Nat) :
    ds.foldl (fun t d => timerObserve p (timerTick d t)) ⟨some p, e⟩ = ⟨some p, e + ds.sum⟩ := by
  induction ds generalizing e with
  | nil => rfl
  | cons d ds ih =>
    rw [List.foldl_cons, timerTick, timerObserve_same hp, ih, List.sum_cons, Nat.add_assoc]

theorem timerCommand_some_iff {d e : Nat} {p : Phase} :
    timerCommand d ⟨some p, e⟩ = some (encode .tmo) ↔ d < e := by
  simp [timerCommand, timerExpired]

/-- Settles O57, by induction on the times observed. -/
theorem deadlineIsOneBudgetPerPhase : Obligations.DeadlineIsOneBudgetPerPhase := by
  intro p p' t0 ds deadline hp h0 hp' hne
  rw [timerObserve_entry hp h0, timer_foldl hp, Nat.zero_add]
  refine ⟨rfl, rfl, timerCommand_some_iff, ?_⟩
  rw [timerObserve_entry hp' fun h => hne (Option.some.inj h).symm]

/-! ## Policies (R189, R203, R204) -/

/-- Settles O58, error by error. -/
theorem policiesTouchOneErrorEach : Obligations.PoliciesTouchOneErrorEach := by
  intro noFrame desync e
  cases e with
  | timeout => cases noFrame <;> simp [hostVerdict, errClass]
  | desync => cases desync <;> simp [hostVerdict, errClass]
  | tooBig | io | malformed | invalid => simp [hostVerdict, errClass]

end Sys2Proof.Proofs
end

section
/-! PROOFS. The transmit half of an exchange: the payload is loaded, the request sent, its frame put
onto the wire (`30_encoding.md` §7, `43_wire_commands.md` §3). -/

namespace Sys2Proof.Proofs

open Sys2Proof Sys2Proof.Machine Sys2Proof.Statements

theorem runEvents_append (es fs : List Event) (s : State) :
    runEvents (es ++ fs) s = andThen (runEvents es s) (runEvents fs) := by
  induction es generalizing s with
  | nil => rfl
  | cons e es ih =>
    rw [List.cons_append, runEvents, runEvents]
    cases runEvent e s with
    | next t => exact ih t
    | fault f => rfl
    | refused r => rfl

/-- A legal length fits its register (R24). -/
theorem toNat_ofNat_length {p : List Byte} (h : p.length < 0xF000) :
    (BitVec.ofNat 16 p.length).toNat = p.length := by
  rw [BitVec.toNat_ofNat]; omega

/-! ## Loading a payload (R85) -/

/-- One `WRTX` outside `TX` writes at most `TXBUF`, and its cell if the buffer has it. -/
theorem runEvent_load {s : State} (hp : s.phase ≠ .tx) (a : Nat) (v : Byte) :
    ∃ m, runEvent (opEvent (.wrtx (halfOf a) v)) s = .next { s with txBuf := m } ∧
      (a < 0xEFFF → m = memWrite s.txBuf a v) := by
  rw [Laws.runEvent_wrtx, exec_wrtx]
  by_cases ha : a < 0xEFFF
  · have hhalf : (halfOf a).toNat = a := by rw [halfOf_toNat]; omega
    exact ⟨_, execWrtx_taken (by omega) hp v, fun _ => by rw [hhalf]⟩
  · have hhalf : 0xEFFE < (halfOf a).toNat := by rw [halfOf_toNat]; omega
    exact ⟨s.txBuf, execWrtx_dropped (.inl hhalf) v, fun h => absurd h ha⟩

/-- Loading changes `TXBUF` only, and a payload that fits stands in it with every other cell
unchanged. -/
theorem runEvents_loadFrom {s : State} (hp : s.phase ≠ .tx) (a : Nat) (p : List Byte) :
    ∃ m, runEvents (loadFrom a p) s = .next { s with txBuf := m } ∧
      (a + p.length ≤ 0xEFFF → memSlice m a p.length = some p ∧
        ∀ b, b < a ∨ a + p.length ≤ b → memRead m b = memRead s.txBuf b) := by
  induction p generalizing a s with
  | nil => exact ⟨s.txBuf, rfl, fun _ => ⟨rfl, fun _ _ => rfl⟩⟩
  | cons v p ih =>
    obtain ⟨m1, hfirst, hm1⟩ := runEvent_load hp a v
    obtain ⟨m, hrest, hm⟩ := ih (s := { s with txBuf := m1 }) hp (a + 1)
    refine ⟨m, by rw [loadFrom, runEvents, hfirst, andThen_next, hrest], fun hfit => ?_⟩
    rw [List.length_cons] at hfit
    obtain ⟨hslice, hother⟩ := hm (by omega)
    obtain rfl := hm1 (by omega)
    refine ⟨?_, fun b hb => ?_⟩
    · have hcell : memRead m a = some v := by
        rw [hother a (by omega)]
        exact memRead_memWrite_same _ _ _
      rw [List.length_cons, memSlice, hcell, hslice]
    · rw [List.length_cons] at hb
      rw [hother b (by omega)]
      exact memRead_memWrite_other _ _ (by omega)

/-! ## The request (R85, R121) -/

/-- `load P`, `SEND`: the payload stands in `TXBUF` and the request is latched. -/
theorem runEvents_request_legal {s : State} (hidle : s.phase = .idle) {r : Request}
    (hlen : r.payload.length < 0xF000) :
    ∃ m, runEvents (requestEvents r) s = .next
        (requestLatched r.type r.cmd (BitVec.ofNat 16 r.payload.length) { s with txBuf := m }) ∧
      memSlice m 0 r.payload.length = some r.payload ∧
      ∀ a, r.payload.length ≤ a → memRead m a = memRead s.txBuf a := by
  obtain ⟨m, hload, hm⟩ := runEvents_loadFrom (s := s) (by simp [hidle]) 0 r.payload
  obtain ⟨hslice, hother⟩ := hm (by omega)
  refine ⟨m, ?_, hslice, fun a ha => hother a (by omega)⟩
  have hsent := sendRequest_accepted (s := { s with txBuf := m }) hidle r.type r.cmd
    (n := BitVec.ofNat 16 r.payload.length) ((toNat_ofNat_length hlen).symm ▸ hlen)
  rw [requestEvents, runEvents_append, load, hload, andThen_next, runEvents, Laws.runEvent_send,
    halfOf_eq (by omega)]
  exact congrArg (fun u => andThen (.next u) (runEvents [])) hsent

/-- A payload of 0xF000 bytes or more fails like `SEND` (R121, log entry 25). -/
theorem runEvents_request_tooBig {s : State} (hidle : s.phase = .idle) {r : Request}
    (hlen : 0xF000 ≤ r.payload.length) :
    ∃ m n, runEvents (requestEvents r) s =
      .next (refusedTooBig r.type r.cmd n { s with txBuf := m }) := by
  obtain ⟨m, hload, -⟩ := runEvents_loadFrom (s := s) (by simp [hidle]) 0 r.payload
  refine ⟨m, halfOf r.payload.length, ?_⟩
  have hsent := sendRequest_tooBig (s := { s with txBuf := m }) hidle r.type r.cmd
    (n := halfOf r.payload.length) (by rw [halfOf_toNat]; omega)
  rw [requestEvents, runEvents_append, load, hload, andThen_next, runEvents, Laws.runEvent_send]
  exact congrArg (fun u => andThen (.next u) (runEvents [])) hsent

/-! ## The frame on the wire -/

theorem runEvents_replicate_txb (k : Nat) (s : State) :
    runEvents (List.replicate k (opEvent .txb)) s = handOverRun k s := by
  induction k generalizing s with
  | zero => rfl
  | succ k ih =>
    rw [List.replicate_succ, runEvents, Laws.runEvent_txb, exec_txb, handOverRun]
    exact congrArg (andThen (handOver s)) (funext ih)

/-- A latched request whose payload is held goes onto the wire as its frame. -/
theorem handOverRun_latched {s : State} {t c : Byte} {n : Half} {p : List Byte}
    (hn : n.toNat = p.length) (hlen : p.length < 0xF000)
    (hp : memSlice s.txBuf 0 p.length = some p) :
    handOverRun (p.length + 7) (requestLatched t c n s) = .next (carried t c n p s) := by
  rw [← hn] at hlen hp ⊢
  exact handOverRun_whole (s := requestLatched t c n s) rfl rfl hlen hp

/-- Settles O17: load, `SEND`, and the run of `TXB`. -/
theorem exchangePutsItsFrameOnTheWire : Obligations.ExchangePutsItsFrameOnTheWire := by
  intro s r hidle hlen
  obtain ⟨m, hrequest, hslice, hother⟩ := runEvents_request_legal hidle hlen
  refine ⟨m, ?_, hslice, hother⟩
  rw [transmitEvents, runEvents_append, hrequest, andThen_next, runEvents_replicate_txb]
  exact handOverRun_latched (s := { s with txBuf := m }) (toNat_ofNat_length hlen) hlen hslice

/-! ## The frames of the facade's requests (R163 to R166) -/

/-- The transmit half of an exchange completes with the request's frame on the wire. -/
theorem transmit_txQ {s : State} (hidle : s.phase = .idle) (t c : Byte) {p f : List Byte}
    (hlen : p.length < 0xF000) (hf : frameOf t c s.seq p = f) :
    ∃ u, runEvents (transmitEvents ⟨t, c, p⟩) s = .next u ∧ u.txQ = s.txQ ++ f := by
  obtain ⟨m, hrun, -⟩ := exchangePutsItsFrameOnTheWire s ⟨t, c, p⟩ hidle hlen
  exact ⟨_, hrun, congrArg (s.txQ ++ ·) hf⟩

theorem frameOf_one_byte (t c q v : Byte) :
    frameOf t c q [v] = [0xFE, t, c, q, 0x00, 0x01, v, 0xFD] := by
  simp [frameOf]

/-- Settles O18: a payload of one byte, loaded or already in `TXBUF`. -/
theorem setVolumeBytes : Obligations.SetVolumeBytes := by
  intro s v q hidle
  have hframe := frameOf_one_byte 0x01 0x22 s.seq v
  refine ⟨transmit_txQ hidle 0x01 0x22 (p := [v]) (by simp) hframe, fun hv => ?_⟩
  have hp : memSlice s.txBuf 0 1 = some [v] := by simp [memSlice, hv]
  exact ⟨_, carryRequest_carried hidle 0x01 0x22 (n := 1) (by decide) hp,
    congrArg (s.txQ ++ ·) hframe⟩

/-- `play`'s argument goes out most significant byte first (R166, R55). -/
theorem playRequest_eq (m a3 a2 a1 a0 : Byte) :
    playRequest m (BitVec.ofNat 32 (a3.toNat * 2 ^ 24 + a2.toNat * 2 ^ 16 + a1.toNat * 2 ^ 8 +
      a0.toNat)) = ⟨0x01, 0x00, [m, a3, a2, a1, a0]⟩ := by
  have := a3.isLt; have := a2.isLt; have := a1.isLt; have := a0.isLt
  simp only [playRequest, Request.mk.injEq, List.cons.injEq, and_true, true_and,
    ← BitVec.toNat_inj, field, BitVec.toNat_ofNat]
  omega

/-- Settles O19: the payloads are empty, one byte, and five. -/
theorem facadeRequestFrames : Obligations.FacadeRequestFrames := by
  intro s m a3 a2 a1 a0 hidle
  rw [playRequest_eq]
  exact ⟨transmit_txQ hidle 0x00 0x00 (p := []) (by simp) (by simp [frameOf]),
    transmit_txQ hidle 0x01 0x20 (p := [m]) (by simp) (frameOf_one_byte 0x01 0x20 s.seq m),
    transmit_txQ hidle 0x01 0x00 (p := [m, a3, a2, a1, a0]) (by simp) (by simp [frameOf])⟩

end Sys2Proof.Proofs
end

section
/-! PROOFS. Receiving a whole frame, and how an exchange ends (`40_codec.md` §5,
`30_encoding.md` §7, `60_exceptions.md` §6). -/

namespace Sys2Proof.Proofs

open Sys2Proof Sys2Proof.Machine Sys2Proof.Statements

/-! ## The verdict on the bytes of a frame -/

/-- While bytes of a frame are missing the receiver waits for the next one. -/
theorem judged_of_part {t c q : Byte} {p g x : List Byte} (hlen : p.length < 0xF000)
    (h : g ++ x = frameOf t c q p) (hx : x ≠ []) (s : State) :
    judged g s = if g.length < 6 then s else { s with phase := .rxBody } := by
  have hlong : g.length < p.length + 7 := by
    have := congrArg List.length h
    rw [List.length_append, length_frameOf] at this
    have := List.length_pos_iff.mpr hx
    omega
  by_cases h6 : g.length < 6
  · rw [judged, if_pos h6, if_pos h6]
  · have hstart : g[0]? = some 0xFE := by
      rw [← List.getElem?_append_left (l₂ := x) (by omega), h]; rfl
    have hdeclared : declared g = p.length := by
      rw [← declared_append (by omega) x, h, declared_frameOf t c q hlen]
    rw [judged, if_neg h6, if_neg h6, if_neg (not_not.mpr hstart), hdeclared,
      if_neg (Nat.not_le_of_lt hlen), if_pos hlong]

/-- Of a whole frame only the sequence number is still in question (R192 (4)). -/
theorem judged_of_frame (t c q : Byte) {p : List Byte} (hlen : p.length < 0xF000) (s : State) :
    judged (frameOf t c q p) s =
      if q ≠ s.reqSeq then raiseErr .desync s else { s with phase := .done } := by
  obtain ⟨hstart, hlt, hfull, hend⟩ := fourConditions_iff.mp (fourConditions_frameOf t c q hlen)
  have hseq : (frameOf t c q p)[3]? = some q := rfl
  rw [judged, if_neg (by omega), if_neg (not_not.mpr hstart), if_neg (Nat.not_le_of_lt hlt),
    if_neg (by omega), if_neg (not_not.mpr hend), hseq]
  simp

/-! ## Receiving byte by byte -/

/-- The request's side of the block, which receiving leaves alone. -/
structure SameRequest (s u : State) : Prop where
  seq : u.seq = s.seq
  reqSeq : u.reqSeq = s.reqSeq
  txBuf : u.txBuf = s.txBuf
  txQ : u.txQ = s.txQ
  txIdx : u.txIdx = s.txIdx
  txLen : u.txLen = s.txLen
  txType : u.txType = s.txType
  txCmd : u.txCmd = s.txCmd

/-- `u` is `s` while it receives, with the bytes `g` captured so far. -/
structure Receiving (s : State) (g : List Byte) (u : State) : Prop where
  inv : StateInv u
  phase : u.phase = .rxHdr ∨ u.phase = .rxBody
  captured : captured u = some g
  same : SameRequest s u

/-- `u` is `s` with a whole response captured: accepted, or refused for its sequence number `q`. -/
structure Received (s : State) (q : Byte) (g : List Byte) (u : State) : Prop where
  inv : StateInv u
  captured : captured u = some g
  same : SameRequest s u
  accepted : q = s.reqSeq → u.phase = .done
  refused : q ≠ s.reqSeq → u.phase = .err ∧ u.err = some .desync

theorem sameRequest_judged_taken {s u : State} (h : SameRequest s u) (g : List Byte) (b : Byte) :
    SameRequest s (judged g (taken b u)) := by
  obtain ⟨p, e, heq⟩ := judged_frame g (taken b u)
  rw [heq]
  exact ⟨h.seq, h.reqSeq, h.txBuf, h.txQ, h.txIdx, h.txLen, h.txType, h.txCmd⟩

theorem rxQ_judged_taken (g : List Byte) (b : Byte) (u : State) :
    (judged g (taken b u)).rxQ = u.rxQ.tail := by
  obtain ⟨p, e, heq⟩ := judged_frame g (taken b u)
  rw [heq]
  rfl

theorem captured_judged_taken {u : State} {g : List Byte} (hs : StateInv u)
    (hg : captured u = some g) (g' : List Byte) (b : Byte) :
    captured (judged g' (taken b u)) = some (g ++ [b]) := by
  obtain ⟨p, e, heq⟩ := judged_frame g' (taken b u)
  rw [heq]
  exact captured_taken hs hg b

section
variable {s u : State} {t c q b : Byte} {p g : List Byte} (hlen : p.length < 0xF000)
  (hu : Receiving s g u) (hq : u.rxQ = [] ∨ u.rxQ.head? = some b)
include hlen hu hq

/-- A byte that is not the frame's last is taken, and the block goes on receiving. -/
theorem rxb_of_part {x : List Byte} (h : (g ++ [b]) ++ x = frameOf t c q p) (hx : x ≠ []) :
    ∃ v, exec (.rxb b) u = .next v ∧ Receiving s (g ++ [b]) v ∧ v.rxQ = u.rxQ.tail := by
  refine ⟨_, exec_rxb_eq_judged hu.inv hu.phase hu.captured hq,
    ⟨stateInv_judged_taken hu.inv hu.phase hu.captured b, ?_,
      captured_judged_taken hu.inv hu.captured _ b, sameRequest_judged_taken hu.same _ b⟩,
    rxQ_judged_taken _ b u⟩
  rw [judged_of_part hlen h hx]
  split_ifs
  · exact hu.phase
  · exact .inr rfl

/-- The last byte of the frame ends the exchange. -/
theorem rxb_of_frame (h : g ++ [b] = frameOf t c q p) :
    ∃ v, exec (.rxb b) u = .next v ∧ Received s q (frameOf t c q p) v ∧ v.rxQ = u.rxQ.tail := by
  have hjudged := judged_of_frame t c q hlen (taken b u)
  rw [show (taken b u).reqSeq = s.reqSeq from hu.same.reqSeq] at hjudged
  refine ⟨_, h ▸ exec_rxb_eq_judged hu.inv hu.phase hu.captured hq,
    ⟨h ▸ stateInv_judged_taken hu.inv hu.phase hu.captured b,
      h ▸ captured_judged_taken hu.inv hu.captured _ b, sameRequest_judged_taken hu.same _ b,
      fun heq => ?_, fun hne => ?_⟩, rxQ_judged_taken _ b u⟩
  · rw [hjudged, if_neg (not_not.mpr heq)]
  · rw [hjudged, if_pos hne]
    exact ⟨rfl, rfl⟩

end

/-- A frame is its other bytes and the end marker. -/
theorem frameOf_eq_append_end (t c q : Byte) (p : List Byte) :
    ∃ g, frameOf t c q p = g ++ [0xFD] :=
  ⟨_, rfl⟩

/-- A state that has just begun to receive has captured nothing. -/
theorem receiving_of_rxHdr {s : State} (hs : StateInv s) (hp : s.phase = .rxHdr)
    (hcnt : s.rxCnt = 0) : Receiving s [] s :=
  ⟨hs, .inl hp, by simp [captured, hcnt, memSlice], ⟨rfl, rfl, rfl, rfl, rfl, rfl, rfl, rfl⟩⟩

/-! ## A frame in `RXQ` -/

theorem runOps_append (is js : List Instr) (s : State) :
    runOps (is ++ js) s = andThen (runOps is s) (runOps js) := by
  induction is generalizing s with
  | nil => rfl
  | cons i is ih =>
    rw [List.cons_append, runOps, runOps]
    cases exec i s with
    | next t => exact ih t
    | fault f => rfl
    | refused r => rfl

/-- The bytes `y` of a frame, waiting in `RXQ`, are taken one by one. -/
theorem runOps_rxb_of_part {s u : State} {t c q : Byte} {p g x rest : List Byte}
    (hlen : p.length < 0xF000) (y : List Byte) (hu : Receiving s g u)
    (h : (g ++ y) ++ x = frameOf t c q p) (hx : x ≠ []) (hq : u.rxQ = y ++ rest) :
    ∃ v, runOps (y.map .rxb) u = .next v ∧ Receiving s (g ++ y) v ∧ v.rxQ = rest := by
  induction y generalizing g u with
  | nil => exact ⟨u, rfl, by rwa [List.append_nil], hq⟩
  | cons b y ih =>
    rw [List.append_cons] at h
    obtain ⟨v, hv, hrecv, hvq⟩ := rxb_of_part hlen hu (.inr (by rw [hq]; rfl))
      ((List.append_assoc _ _ _).symm.trans h) (by simp [hx])
    obtain ⟨w, hw, hdone⟩ := ih hrecv h (by rw [hvq, hq]; rfl)
    rw [← List.append_cons] at hdone
    exact ⟨w, by rw [List.map_cons, runOps, hv, andThen_next, hw], hdone⟩

theorem frameFields_frameOf_eq (t c q : Byte) {p : List Byte} (h : p.length < 0xF000) :
    frameFields (frameOf t c q p) = ⟨t, c, q, BitVec.ofNat 16 p.length, p⟩ := by
  obtain ⟨n, hfields, hn⟩ := frameFields_frameOf t c q h
  rw [hfields, ← hn, BitVec.ofNat_toNat, BitVec.setWidth_eq]

theorem exchangeResult_of_done {u : State} {g : List Byte} (hp : u.phase = .done)
    (hg : captured u = some g) : exchangeResult u = some (.response (frameFields g)) := by
  rw [exchangeResult, hp, hg]

theorem exchangeResult_of_err {u : State} {e : ErrKind} (hp : u.phase = .err)
    (he : u.err = some e) : exchangeResult u = some (.failed e) := by
  rw [exchangeResult, hp, he]

/-- Settles O25: all bytes but the last, then the last. -/
theorem wholeFrameEndsTheExchange : Obligations.WholeFrameEndsTheExchange := by
  intro s t c q p rest hs hp hcnt hlen hq
  obtain ⟨g, hg⟩ := frameOf_eq_append_end t c q p
  obtain ⟨v, hv, hrecv, hvq⟩ := runOps_rxb_of_part (rest := [0xFD] ++ rest) hlen g
    (receiving_of_rxHdr hs hp hcnt) hg.symm (by simp) (by rw [hq, hg, List.append_assoc])
  obtain ⟨u, hu, hend, huq⟩ := rxb_of_frame hlen hrecv (.inr (by rw [hvq]; rfl)) hg.symm
  obtain ⟨hseq, hreq, hbuf, htxq, hidx, htlen, htype, hcmd⟩ := hend.same
  refine ⟨u, ?_, by rw [huq, hvq]; rfl, hend.captured, fun heq => ?_, fun hne => ?_,
    hseq, hreq, hbuf, htxq, hidx, htlen, htype, hcmd⟩
  · rw [hg, List.map_append, runOps_append, hv, andThen_next, List.map_singleton, runOps, hu]
    rfl
  · have hdone := hend.accepted heq
    exact ⟨hdone, (exchangeResult_of_done hdone hend.captured).trans
      (by rw [frameFields_frameOf_eq t c q hlen])⟩
  · obtain ⟨herr, he⟩ := hend.refused hne
    exact ⟨herr, exchangeResult_of_err herr he⟩

/-! ## The exchange's events (R85) -/

theorem untilEnded_of_not_busy {s : State} (h : busy s = false) (es : List LinkEvent) :
    untilEnded es s = .next s := by
  cases es with
  | nil => rfl
  | cons e es => rw [untilEnded, h]; rfl

theorem untilEnded_append (es fs : List LinkEvent) (s : State) :
    untilEnded (es ++ fs) s = andThen (untilEnded es s) (untilEnded fs) := by
  induction es generalizing s with
  | nil => rfl
  | cons e es ih =>
    cases hb : busy s with
    | false =>
      rw [untilEnded_of_not_busy hb, untilEnded_of_not_busy hb, andThen_next,
        untilEnded_of_not_busy hb]
    | true =>
      rw [List.cons_append, untilEnded, untilEnded, if_pos hb, if_pos hb]
      cases linkStep e s with
      | next t => exact ih t
      | fault f => rfl
      | refused r => rfl

theorem handOver_of_ne_tx {s : State} (h : s.phase ≠ .tx) : handOver s = .next s :=
  dropped_txb h

/-- With nothing in `RXQ` a ready link can only take a request byte. -/
theorem linkStep_ready {s : State} (hq : s.rxQ = []) : linkStep .ready s = handOver s := by
  by_cases hp : s.phase = .tx
  · rw [linkStep, if_pos (txValid_iff.mpr hp), exec_txb]
  · rw [linkStep, if_neg (mt txValid_iff.mp hp), hq, handOver_of_ne_tx hp]

theorem rxQ_of_handOver {s t : State} (h : handOver s = .next t) : t.rxQ = s.rxQ := by
  rcases handOver_cases h with ⟨-, rfl⟩ | ⟨-, b, -, ⟨-, rfl⟩ | ⟨-, rfl⟩⟩ <;> rfl

theorem handOverRun_of_ne_tx {s : State} (h : s.phase ≠ .tx) (k : Nat) :
    handOverRun k s = .next s := by
  induction k with
  | zero => rfl
  | succ k ih => rw [handOverRun, handOver_of_ne_tx h, andThen_next, ih]

/-- So a link that is ready `k` times makes `k` operations `TXB`. -/
theorem untilEnded_ready {s : State} (hq : s.rxQ = []) (k : Nat) :
    untilEnded (List.replicate k .ready) s = handOverRun k s := by
  induction k generalizing s with
  | zero => rfl
  | succ k ih =>
    rw [List.replicate_succ]
    cases hb : busy s with
    | false =>
      have hp : s.phase ≠ .tx := fun hp => by
        have := busy_iff.mpr (.inl hp); simp [hb] at this
      rw [untilEnded_of_not_busy hb, handOverRun_of_ne_tx hp]
    | true =>
      rw [untilEnded, if_pos hb, linkStep_ready hq, handOverRun]
      cases ho : handOver s with
      | next t => exact ih ((rxQ_of_handOver ho).trans hq)
      | fault f => rfl
      | refused r => rfl

/-- A byte that arrives is taken by a ready link. -/
theorem untilEnded_answer {u v : State} {b : Byte} (hp : u.phase = .rxHdr ∨ u.phase = .rxBody)
    (hq : u.rxQ = []) (hv : exec (.rxb b) (arriveByte b u) = .next v) (es : List LinkEvent) :
    untilEnded (.arrive b :: .ready :: es) u = untilEnded es v := by
  have hb : busy u = true := busy_iff.mpr (.inr hp)
  have hb' : busy (arriveByte b u) = true := hb
  have hnotTx : ¬txValid (arriveByte b u) = true := by
    rw [txValid_iff]
    rcases hp with hp | hp <;> simp [hp]
  have hready : linkStep .ready (arriveByte b u) = exec (.rxb b) (arriveByte b u) := by
    rw [linkStep, if_neg hnotTx, arriveByte_rxQ, hq]
    rfl
  rw [untilEnded, if_pos hb, linkStep, andThen_next, untilEnded, if_pos hb', hready, hv,
    andThen_next]

theorem receiving_arriveByte {s u : State} {g : List Byte} (h : Receiving s g u) (b : Byte) :
    Receiving s g (arriveByte b u) :=
  ⟨stateInv_rxQ h.inv (u.rxQ ++ [b]), h.phase, h.captured,
    ⟨h.same.seq, h.same.reqSeq, h.same.txBuf, h.same.txQ, h.same.txIdx, h.same.txLen,
      h.same.txType, h.same.txCmd⟩⟩

section
variable {s u : State} {t c q : Byte} {p g : List Byte} (hlen : p.length < 0xF000)
  (hu : Receiving s g u) (hq : u.rxQ = [])
include hlen hu hq

/-- The bytes `y` of a frame arrive and are taken one by one. -/
theorem untilEnded_of_part {x : List Byte} (y : List Byte)
    (h : (g ++ y) ++ x = frameOf t c q p) (hx : x ≠ []) (es : List LinkEvent) :
    ∃ v, untilEnded (answeredBy y ++ es) u = untilEnded es v ∧ Receiving s (g ++ y) v ∧
      v.rxQ = [] := by
  induction y generalizing g u with
  | nil => exact ⟨u, rfl, by rwa [List.append_nil], hq⟩
  | cons b y ih =>
    rw [List.append_cons] at h
    obtain ⟨v, hv, hrecv, hvq⟩ := rxb_of_part hlen (receiving_arriveByte hu b)
      (.inr (by rw [arriveByte_rxQ, hq]; rfl)) ((List.append_assoc _ _ _).symm.trans h)
      (by simp [hx])
    rw [arriveByte_rxQ, hq] at hvq
    obtain ⟨w, hw, hdone⟩ := ih hrecv hvq h
    rw [← List.append_cons] at hdone
    exact ⟨w, (untilEnded_answer hu.phase hq hv (answeredBy y ++ es)).trans hw, hdone⟩

end

/-- A whole frame arrives and is taken. -/
theorem untilEnded_of_frame {s u : State} {p : List Byte} (hlen : p.length < 0xF000)
    (hu : Receiving s [] u) (hq : u.rxQ = []) (t c q : Byte) :
    ∃ v, untilEnded (answeredBy (frameOf t c q p)) u = .next v ∧
      Received s q (frameOf t c q p) v ∧ v.rxQ = [] := by
  obtain ⟨g, hg⟩ := frameOf_eq_append_end t c q p
  obtain ⟨v, hv, hrecv, hvq⟩ := untilEnded_of_part hlen hu hq g hg.symm (by simp)
    (answeredBy [0xFD])
  obtain ⟨w, hw, hend, hwq⟩ := rxb_of_frame hlen (receiving_arriveByte hrecv 0xFD)
    (.inr (by rw [arriveByte_rxQ, hvq]; rfl)) hg.symm
  refine ⟨w, ?_, hend, by rw [hwq, arriveByte_rxQ, hvq]; rfl⟩
  have hsplit : answeredBy (frameOf t c q p) = answeredBy g ++ answeredBy [0xFD] := by
    rw [hg, answeredBy, List.flatMap_append]
    rfl
  rw [hsplit, hv]
  exact untilEnded_answer hrecv.phase hvq hw []

/-! ## The result as the host reads it (R85, R239) -/

section
variable {u : State} {g : List Byte} (hp : u.phase = .done) (hg : captured u = some g)
include hp hg

theorem rdrxValue_of_done {a : Half} (h : a.toNat < g.length) :
    rdrxValue u a = .ok g[a.toNat] := by
  have hcnt := captured_length hg
  rw [rdrxValue_inside (lt_windowSize_iff.mpr (.inl ⟨hp, hcnt ▸ h⟩)), readRx_eq_ok,
    captured_cell hg h, List.getElem?_eq_getElem h]

theorem readWindow_of_done (k : Nat) {a : Nat} (h : a + k ≤ g.length) :
    readWindow u a k = .ok ((g.drop a).take k) := by
  have hcnt := captured_length hg
  have := u.rxCnt.isLt
  induction k generalizing a with
  | zero => rfl
  | succ k ih =>
    have hhalf : (halfOf a).toNat = a := by rw [halfOf_toNat]; omega
    have hfirst := rdrxValue_of_done hp hg (a := halfOf a) (by omega)
    simp only [hhalf] at hfirst
    rw [readWindow, hfirst, ih (by omega),
      List.drop_eq_getElem_cons (show a < g.length by omega), List.take_succ_cons]

/-- In `DONE` the host reads the fields of the captured frame. -/
theorem readResponse_of_done (hfour : FourConditions g) :
    readResponse u = .ok (frameFields g) := by
  obtain ⟨h6, -, -, hlen, -⟩ := hfour
  obtain ⟨hi, lo, -, -, hn, hdeclared⟩ := rxLen_of_captured hg h6
  have hcell : ∀ i (h : i < 6), memRead u.rxBuf i = some (g[i]'(by omega)) := fun i h => by
    rw [captured_cell hg (by omega), List.getElem?_eq_getElem]
  have hhdr : csrValue u 6 = .ok (be16 g[1] g[2]) := by
    rw [csrValue_six, respHdrWord_of_done hp (hcell 1 (by omega)) (hcell 2 (by omega))]
  have hrlen : csrValue u 7 = .ok (be16 hi lo) := by
    rw [csrValue_seven, respLenWord_of_done hp, hn]
  have hseq : rdrxValue u 3 = .ok g[3] :=
    rdrxValue_of_done hp hg (a := 3) (show 3 < g.length by omega)
  have hplen := plenOf_captured hg (by rw [← captured_length hg]; exact h6) hn
  rw [readResponse, hhdr, hrlen, hseq]
  simp only [readWindow_of_done hp hg (be16 hi lo).toNat (a := Config.headerLen)
    (by simp only [Config.headerLen]; omega), hi8_be16, lo8_be16]
  rw [frameFields_of_plenOf hplen]
  simp [List.getD_eq_getElem?_getD, show 1 < g.length by omega,
    show 2 < g.length by omega, show 3 < g.length by omega]

theorem finishExchange_of_done (hfour : FourConditions g) :
    finishExchange u = .next ⟨some (.response (frameFields g)), returnToIdle u⟩ := by
  rw [finishExchange, readResult, if_pos (doneOut_iff.mpr hp), readResponse_of_done hp hg hfour]
  simp only [exec_ack_accepted (.inl hp)]

end

/-- The code in `CSR0.ERR` is the error's (R180). -/
theorem errOfCode_errCode (e : ErrKind) : errOfCode (errCode (some e)).toNat = some e := by
  cases e <;> rfl

theorem finishExchange_of_err {u : State} {e : ErrKind} (hp : u.phase = .err)
    (he : u.err = some e) :
    finishExchange u = .next ⟨some (.failed e), returnToIdle u⟩ := by
  obtain ⟨-, hcode, -⟩ := statusWord_fields u
  rw [finishExchange, readResult, if_neg (by simp [hp]), if_pos (errOut_iff.mpr hp), hcode, he,
    errOfCode_errCode]
  simp only [Option.map_some, exec_ack_accepted (.inr hp)]

theorem finishExchange_of_waiting {u : State} (hdone : u.phase ≠ .done) (herr : u.phase ≠ .err) :
    finishExchange u = .next ⟨none, u⟩ := by
  rw [finishExchange, readResult, if_neg (mt doneOut_iff.mp hdone), if_neg (mt errOut_iff.mp herr)]

/-! ## Exchanges -/

theorem exchange_eq {r : Request} {es : List LinkEvent} {s u v : State}
    (hu : runEvents (requestEvents r) s = .next u) (hv : untilEnded es u = .next v) :
    exchange r es s = finishExchange v := by
  rw [exchange, hu, andThen_next, hv]

/-- An event keeps the invariant, as the step that takes it does. -/
theorem stateInv_of_runEvent {e : Event} {s t : State} (hs : StateInv s)
    (h : runEvent e s = .next t) : StateInv t :=
  everyStepKeepsTheInvariant { s with sched := e :: s.sched } t (stateInv_sched hs _) h

theorem stateInv_of_runEvents {es : List Event} {s t : State} (hs : StateInv s)
    (h : runEvents es s = .next t) : StateInv t := by
  induction es generalizing s with
  | nil => cases h; exact hs
  | cons e es ih =>
    obtain ⟨u, hu, ht⟩ := andThen_eq_next.mp h
    exact ih (stateInv_of_runEvent hs hu) ht

/-- `u` is `s` after the request `r` has been sent, waiting for the first response byte. -/
structure AwaitsResponse (s : State) (r : Request) (u : State) : Prop where
  receiving : Receiving u [] u
  phase : u.phase = .rxHdr
  rxQ : u.rxQ = []
  seq : u.seq = s.seq + 1
  reqSeq : u.reqSeq = s.seq
  txQ : u.txQ = s.txQ ++ frameOf r.type r.cmd s.seq r.payload

section
variable {s : State} {r : Request} (hs : StateInv s) (hidle : s.phase = .idle) (hq : s.rxQ = [])
include hidle hq

/-- A request whose first `k` bytes the link takes, before it fails (R197, R124). -/
theorem exchange_fault (hlen : r.payload.length < 0xF000) {k : Nat}
    (hk : k < r.payload.length + 7) :
    ∃ u, exchange r (List.replicate k .ready ++ [.fault]) s = .next ⟨some (.failed .io), u⟩ ∧
      u.phase = .idle ∧ u.seq = s.seq + 1 ∧
      u.txQ = s.txQ ++ (frameOf r.type r.cmd s.seq r.payload).take k := by
  obtain ⟨m, hrequest, hslice, -⟩ := runEvents_request_legal hidle hlen
  have hn := toNat_ofNat_length hlen
  generalize BitVec.ofNat 16 r.payload.length = n at hrequest hn
  let u := requestLatched r.type r.cmd n { s with txBuf := m }
  have hsent := handOverRun_part (s := u) (p := r.payload) (k := k) rfl
    (show n.toNat < 0xF000 by omega) hslice (show _ ≤ n.toNat by omega) rfl (by omega)
  have hend : untilEnded (List.replicate k .ready ++ [.fault]) u =
      .next (raiseErr .io (sentUpTo u r.payload k)) := by
    rw [untilEnded_append, untilEnded_ready (show u.rxQ = [] from hq), hsent, andThen_next,
      untilEnded, if_pos (busy_iff.mpr (.inl rfl)), linkStep, exec_flt_accepted (.inl rfl)]
    rfl
  have hframe : (frameOf r.type r.cmd s.seq r.payload).take k =
      (requestBytes u r.payload).take k := by
    rw [show frameOf r.type r.cmd s.seq r.payload = requestBytes u r.payload ++ [0xFD] from
      frameOf_eq_requestBytes (s := u) hn.symm]
    exact List.take_append_of_le_length (by rw [length_requestBytes]; omega)
  exact ⟨_, (exchange_eq hrequest hend).trans (finishExchange_of_err rfl rfl), rfl, rfl,
    congrArg (s.txQ ++ ·) hframe.symm⟩

include hs

/-- The request is sent, and what follows decides the exchange. -/
theorem exchange_sent (hlen : r.payload.length < 0xF000) :
    ∃ u, AwaitsResponse s r u ∧ ∀ es v, untilEnded es u = .next v →
      exchange r (takesRequest r.payload.length ++ es) s = finishExchange v := by
  obtain ⟨m, hrequest, hslice, -⟩ := runEvents_request_legal hidle hlen
  have hsent := handOverRun_latched (s := { s with txBuf := m }) (t := r.type) (c := r.cmd)
    (toNat_ofNat_length hlen) hlen hslice
  have hrun : runEvents (transmitEvents r) s = .next (carried r.type r.cmd
      (BitVec.ofNat 16 r.payload.length) r.payload { s with txBuf := m }) := by
    rw [transmitEvents, runEvents_append, hrequest, andThen_next, runEvents_replicate_txb, hsent]
  have hinv := stateInv_of_runEvents hs hrun
  refine ⟨_, ⟨receiving_of_rxHdr hinv rfl rfl, rfl, hq, rfl, rfl, rfl⟩, fun es v hv => ?_⟩
  refine exchange_eq hrequest ?_
  rw [untilEnded_append, takesRequest, untilEnded_ready (by exact hq), hsent, andThen_next, hv]

/-- A frame answers: the response if it carries the request's number, else `E_DESYNC`. -/
theorem exchange_answered (hlen : r.payload.length < 0xF000) (t c q : Byte) {p : List Byte}
    (hp : p.length < 0xF000) :
    ∃ u, exchange r (takesRequest r.payload.length ++ answeredBy (frameOf t c q p)) s =
        .next ⟨some (if q = s.seq then .response ⟨t, c, q, BitVec.ofNat 16 p.length, p⟩
          else .failed .desync), u⟩ ∧
      u.phase = .idle ∧ u.err = none ∧ u.seq = s.seq + 1 ∧ u.reqSeq = s.seq ∧ u.rxQ = [] ∧
      u.txQ = s.txQ ++ frameOf r.type r.cmd s.seq r.payload := by
  obtain ⟨u, hu, hexchange⟩ := exchange_sent hs hidle hq hlen
  obtain ⟨v, hv, hend, hvq⟩ := untilEnded_of_frame hp hu.receiving hu.rxQ t c q
  refine ⟨returnToIdle v, ?_, rfl, rfl, hend.same.seq.trans hu.seq,
    hend.same.reqSeq.trans hu.reqSeq, hvq, hend.same.txQ.trans hu.txQ⟩
  rw [hexchange _ v hv]
  split_ifs with heq
  · rw [finishExchange_of_done (hend.accepted (heq.trans hu.reqSeq.symm)) hend.captured
      (fourConditions_frameOf t c q hp), frameFields_frameOf_eq t c q hp]
  · obtain ⟨herr, hkind⟩ := hend.refused fun h => heq (h.trans hu.reqSeq)
    exact finishExchange_of_err herr hkind

/-- The host's deadline expires before the frame is complete (R195). -/
theorem exchange_timeout (hlen : r.payload.length < 0xF000) (t c : Byte) {p : List Byte}
    (hp : p.length < 0xF000) {k : Nat} (hk : k < p.length + 7) :
    ∃ u, exchange r (takesRequest r.payload.length ++
        answeredBy ((frameOf t c s.seq p).take k) ++ [.timeout]) s =
        .next ⟨some (.failed .timeout), u⟩ ∧
      u.phase = .idle ∧ u.seq = s.seq + 1 ∧ u.reqSeq = s.seq ∧ u.rxQ = [] := by
  obtain ⟨u, hu, hexchange⟩ := exchange_sent hs hidle hq hlen
  have hmissing : (frameOf t c s.seq p).drop k ≠ [] := by
    rw [Ne, List.drop_eq_nil_iff, length_frameOf]; omega
  obtain ⟨v, hv, hrecv, hvq⟩ := untilEnded_of_part hp hu.receiving hu.rxQ
    ((frameOf t c s.seq p).take k) (by rw [List.nil_append, List.take_append_drop]) hmissing
    [.timeout]
  have hend : untilEnded [.timeout] v = .next (raiseErr .timeout v) := by
    rw [untilEnded, if_pos (busy_iff.mpr (.inr hrecv.phase)), linkStep,
      exec_tmo_accepted hrecv.phase]
    rfl
  refine ⟨returnToIdle (raiseErr .timeout v), ?_, rfl, hrecv.same.seq.trans hu.seq,
    hrecv.same.reqSeq.trans hu.reqSeq, hvq⟩
  rw [List.append_assoc, hexchange _ _ (hv.trans hend)]
  exact finishExchange_of_err rfl rfl

end

/-- A payload that is too long fails before anything is sent. -/
theorem exchange_tooBig {s : State} (hidle : s.phase = .idle) {r : Request}
    (hlen : 0xF000 ≤ r.payload.length) (es : List LinkEvent) :
    ∃ u, exchange r es s = .next ⟨some (.failed .tooBig), u⟩ ∧ u.phase = .idle ∧
      u.seq = s.seq ∧ u.reqSeq = s.reqSeq ∧ u.txQ = s.txQ := by
  obtain ⟨m, n, hrequest⟩ := runEvents_request_tooBig hidle hlen
  exact ⟨_, (exchange_eq hrequest (untilEnded_of_not_busy rfl es)).trans
    (finishExchange_of_err rfl rfl), rfl, rfl, rfl, rfl⟩

/-- Settles O60, ending by ending. -/
theorem exchangeEndsInItsResult : Obligations.ExchangeEndsInItsResult := by
  intro s r hs hidle hq
  refine ⟨fun hlen => ⟨fun t c q p hp => ⟨exchange_answered hs hidle hq hlen t c q hp,
      fun k hk => exchange_timeout hs hidle hq hlen t c hp hk⟩,
    fun k hk => exchange_fault hidle hq hlen hk, ?_⟩, exchange_tooBig hidle⟩
  obtain ⟨u, hu, hexchange⟩ := exchange_sent hs hidle hq hlen
  have hwaits := hexchange [] u rfl
  rw [List.append_nil] at hwaits
  exact ⟨u, hwaits.trans (finishExchange_of_waiting (by simp [hu.phase]) (by simp [hu.phase])),
    hu.phase⟩

end Sys2Proof.Proofs
end

section
/-! PROOFS. Type, command and payload are transparent: no operation branches on them
(`43_wire_commands.md` §1). -/

namespace Sys2Proof.Proofs

open Sys2Proof Sys2Proof.Machine Sys2Proof.Statements

/-! ## The request's type, command and payload -/

/-- `s` with another request type, command, payload buffer, and bytes handed over. -/
def retouched (y c : Byte) (m : Memory) (z : List Byte) (s : State) : State :=
  { s with txType := y, txCmd := c, txBuf := m, txQ := z }

/-- The next state of an outcome, changed by `f`. -/
def onNext (f : State → State) : Result → Result
  | .next s => .next (f s)
  | .fault r => .fault r
  | .refused r => .refused r

theorem onNext_withValue {α : Type} (f : State → State) (r : Except Fault α) (k : α → Result) :
    onNext f (withValue r k) = withValue r fun v => onNext f (k v) := by
  cases r <;> rfl

/-- An operation that neither reads nor writes these parts of the state. -/
def Blind (i : Instr) : Prop :=
  ∀ y c m z s, exec i (retouched y c m z s) = onNext (retouched y c m z) (exec i s)

/-- What the statement allows two next states of one operation to differ in. -/
def Transparent (i : Instr) (t t' : State) : Prop :=
  ∃ y c m z r, t' = { t with txType := y, txCmd := c, txBuf := m, txQ := z, ret := r } ∧
    (i ≠ .rdcsr 4 → r = t.ret)

theorem transparent_of_retouched (i : Instr) (y c : Byte) (m : Memory) (z : List Byte)
    (t : State) : Transparent i t (retouched y c m z t) :=
  ⟨y, c, m, z, t.ret, rfl, fun _ => rfl⟩

theorem transparent_of_blind {i : Instr} (hi : Blind i) {y c : Byte} {m : Memory}
    {z : List Byte} {s t t' : State} (h : exec i s = .next t)
    (h' : exec i (retouched y c m z s) = .next t') : Transparent i t t' := by
  rw [hi, h] at h'
  cases h'
  exact transparent_of_retouched i y c m z t

/-! ## Operations that do not look at them -/

theorem blind_ack : Blind .ack := fun y c m z s => by
  by_cases h : s.phase = .done ∨ s.phase = .err
  · rw [exec_ack_accepted h, exec_ack_accepted (s := retouched y c m z s) h]; rfl
  · rw [dropped_ack h, dropped_ack (s := retouched y c m z s) h]; rfl

theorem blind_tmo : Blind .tmo := fun y c m z s => by
  by_cases h : s.phase = .rxHdr ∨ s.phase = .rxBody
  · rw [exec_tmo_accepted h, exec_tmo_accepted (s := retouched y c m z s) h]; rfl
  · rw [dropped_tmo h, dropped_tmo (s := retouched y c m z s) h]; rfl

theorem blind_flt : Blind .flt := fun y c m z s => by
  by_cases h : s.phase = .tx ∨ s.phase = .rxHdr ∨ s.phase = .rxBody
  · rw [exec_flt_accepted h, exec_flt_accepted (s := retouched y c m z s) h]; rfl
  · rw [dropped_flt h, dropped_flt (s := retouched y c m z s) h]; rfl

theorem blind_rdrx (a : Half) : Blind (.rdrx a) := fun y c m z s => by
  rw [exec_rdrx, exec_rdrx, execRdrx, execRdrx, onNext_withValue]
  rfl

/-- Only `CSR4` shows type and command (R42). -/
theorem csrValue_retouched {n : BitVec 3} (hn : n ≠ 4) (y c : Byte) (m : Memory)
    (z : List Byte) (s : State) : csrValue (retouched y c m z s) n = csrValue s n := by
  have hn : n = 0 ∨ n = 1 ∨ n = 2 ∨ n = 3 ∨ n = 5 ∨ n = 6 ∨ n = 7 := by bv_omega
  rcases hn with rfl | rfl | rfl | rfl | rfl | rfl | rfl <;> rfl

theorem blind_rdcsr {n : BitVec 3} (hn : n ≠ 4) : Blind (.rdcsr n) := fun y c m z s => by
  rw [exec_rdcsr, exec_rdcsr, execRdcsr, execRdcsr, onNext_withValue, csrValue_retouched hn]
  rfl

theorem blind_encode (t c q : Byte) (p : List Byte) : Blind (.encode t c q p) := fun _ _ _ _ _ => by
  rw [exec_encode, exec_encode, execEncode, execEncode]
  cases encodeFrame t c q p <;> rfl

theorem blind_pLen (b : List Byte) : Blind (.pLen b) := fun y c m z s => by
  show execPLen b _ = onNext _ (execPLen b s)
  rw [execPLen, execPLen]
  cases plenOf b <;> rfl

theorem blind_decode (b : List Byte) : Blind (.decode b) := fun _ _ _ _ _ => by
  rw [exec_decode, exec_decode, execDecode, execDecode]
  cases decodeFrame b <;> rfl

/-! The checks of a response read `RXBUF`, `RXCNT` and `REQSEQ`. -/

theorem checkHeader_retouched (y c : Byte) (m : Memory) (z : List Byte) (s : State) :
    checkHeader (retouched y c m z s) = onNext (retouched y c m z) (checkHeader s) := by
  rw [checkHeader, checkHeader, onNext_withValue]
  refine congrArg (withValue (readRx s 0)) (funext fun v => ?_)
  split_ifs
  · rfl
  · rw [onNext_withValue]
    refine congrArg (withValue (rxLen s)) (funext fun n => ?_)
    split_ifs <;> rfl

theorem checkBody_retouched (b y c : Byte) (m : Memory) (z : List Byte) (s : State) :
    checkBody b (retouched y c m z s) = onNext (retouched y c m z) (checkBody b s) := by
  rw [checkBody, checkBody, onNext_withValue]
  refine congrArg (withValue (rxLen s)) (funext fun n => ?_)
  have hcnt : (retouched y c m z s).rxCnt = s.rxCnt := rfl
  have hreq : (retouched y c m z s).reqSeq = s.reqSeq := rfl
  rw [hcnt, hreq]
  split_ifs
  · rfl
  · rw [onNext_withValue]
    refine congrArg (withValue (readRx s 3)) (funext fun q => ?_)
    split_ifs <;> rfl
  · rfl

theorem receiveByte_retouched (b y c : Byte) (m : Memory) (z : List Byte) (s : State) :
    receiveByte b (retouched y c m z s) = onNext (retouched y c m z) (receiveByte b s) := by
  have hcnt : (retouched y c m z s).rxCnt = s.rxCnt := rfl
  have hphase : (retouched y c m z s).phase = s.phase := rfl
  have hcap : captureByte b (retouched y c m z s) = retouched y c m z (captureByte b s) := rfl
  have hcnt' : (retouched y c m z (captureByte b s)).rxCnt = (captureByte b s).rxCnt := rfl
  rw [receiveByte, receiveByte, hcnt, hphase, hcap, hcnt', checkHeader_retouched,
    checkBody_retouched]
  split_ifs <;> rfl

theorem blind_rxb (b : Byte) : Blind (.rxb b) := fun y c m z s => by
  by_cases hp : s.phase = .rxHdr ∨ s.phase = .rxBody
  · by_cases hq : s.rxQ = [] ∨ s.rxQ.head? = some b
    · rw [exec_rxb_taken hp hq, exec_rxb_taken (s := retouched y c m z s) hp hq]
      exact receiveByte_retouched b y c m z { s with rxQ := s.rxQ.tail }
    · obtain ⟨d, q, hd⟩ := List.exists_cons_of_ne_nil (not_or.mp hq).1
      have hne : d ≠ b := fun he => hq (.inr (by rw [hd, he]; rfl))
      rw [(rxbOutsideItsPhases s b).2 hp d q hd hne,
        (rxbOutsideItsPhases (retouched y c m z s) b).2 hp d q hd hne]
      rfl
  · rw [dropped_rxb hp, dropped_rxb (s := retouched y c m z s) hp]
    rfl

/-! ## Operations that hand them over or write them -/

section
variable {y c : Byte} {m : Memory} {s t t' : State}

theorem transparent_send {d e d' e' : Byte} {n : Half} (h : exec (.send d e n) s = .next t)
    (h' : exec (.send d' e' n) (retouched y c m s.txQ s) = .next t') :
    Transparent (.send d e n) t t' := by
  have ht : sendRequest d e n s = t := Host.Outcome.next.inj h
  have ht' : sendRequest d' e' n (retouched y c m s.txQ s) = t' := Host.Outcome.next.inj h'
  rw [← ht, ← ht']
  by_cases hidle : s.phase = .idle
  · by_cases hn : n.toNat < 0xF000
    · rw [sendRequest_accepted hidle d e hn,
        sendRequest_accepted (s := retouched y c m s.txQ s) hidle d' e' hn]
      exact transparent_of_retouched _ d' e' m s.txQ _
    · have hn := Nat.le_of_not_lt hn
      rw [sendRequest_tooBig hidle d e hn,
        sendRequest_tooBig (s := retouched y c m s.txQ s) hidle d' e' hn]
      exact transparent_of_retouched _ d' e' m s.txQ _
  · rw [sendRequest_dropped hidle, sendRequest_dropped (s := retouched y c m s.txQ s) hidle]
    exact transparent_of_retouched _ y c m s.txQ s

theorem transparent_wrtx {a : Half} {v v' : Byte} (h : exec (.wrtx a v) s = .next t)
    (h' : exec (.wrtx a v') (retouched y c m s.txQ s) = .next t') :
    Transparent (.wrtx a v) t t' := by
  rw [exec_wrtx] at h h'
  by_cases hd : 0xEFFE < a.toNat ∨ s.phase = .tx
  · cases (execWrtx_dropped hd v).symm.trans h
    cases (execWrtx_dropped (s := retouched y c m s.txQ s) hd v').symm.trans h'
    exact transparent_of_retouched _ y c m s.txQ s
  · obtain ⟨ha, hp⟩ := not_or.mp hd
    have ha := Nat.le_of_not_lt ha
    cases (execWrtx_taken ha hp v).symm.trans h
    cases (execWrtx_taken (s := retouched y c m s.txQ s) ha hp v').symm.trans h'
    exact transparent_of_retouched _ y c (memWrite m a.toNat v') s.txQ _

/-- Whether a `TXB` hands over the last byte depends on `TXIDX` and `TXLEN` only. -/
theorem transparent_txb (h : exec .txb s = .next t)
    (h' : exec .txb (retouched y c m s.txQ s) = .next t') : Transparent .txb t t' := by
  rcases handOver_cases h with ⟨hp, rfl⟩ | ⟨hp, b, -, hstep⟩
  · cases (dropped_txb (s := retouched y c m t.txQ t) hp).symm.trans h'
    exact transparent_of_retouched _ y c m t.txQ t
  · rcases handOver_cases h' with ⟨hp', -⟩ | ⟨-, b', -, hstep'⟩
    · exact absurd hp hp'
    · rcases hstep with ⟨hlast, rfl⟩ | ⟨hmore, rfl⟩
      · rcases hstep' with ⟨-, rfl⟩ | ⟨hmore', -⟩
        · exact transparent_of_retouched _ y c m (s.txQ ++ [b']) _
        · exact absurd hlast hmore'
      · rcases hstep' with ⟨hlast', -⟩ | ⟨-, rfl⟩
        · exact absurd hlast' hmore
        · exact transparent_of_retouched _ y c m (s.txQ ++ [b']) _

/-- A row that completes with a legal length has carried its request. -/
theorem eq_carried_of_legal {d e : Byte} {n : Half} {u : State} (hidle : s.phase = .idle)
    (hn : n.toNat < 0xF000) (h : carryRequest d e n s = .next u) : ∃ p, u = carried d e n p s := by
  rcases carryRequest_cases d e n s with ⟨hno, -⟩ | ⟨-, hbig, -⟩ | ⟨-, -, p, -, hc⟩ |
      ⟨-, -, a, -, -, hc⟩
  · exact absurd hidle hno
  · exact absurd hn (Nat.not_lt_of_le hbig)
  · cases hc.symm.trans h
    exact ⟨p, rfl⟩
  · cases hc.symm.trans h

theorem transparent_wireRow {i i' : Instr} (hi : isWireRow i = true) (hi' : isWireRow i' = true)
    (hlen : requestLen i = requestLen i') (h : exec i s = .next t)
    (h' : exec i' (retouched y c m s.txQ s) = .next t') : Transparent i t t' := by
  obtain ⟨d, e, n, hn, hexec⟩ := exec_wireRow hi
  obtain ⟨d', e', n', hn', hexec'⟩ := exec_wireRow hi'
  obtain rfl : n = n' := Option.some.inj (hn.symm.trans (hlen.trans hn'))
  rw [hexec] at h
  rw [hexec'] at h'
  by_cases hidle : s.phase = .idle
  · by_cases hn : n.toNat < 0xF000
    · obtain ⟨p, rfl⟩ := eq_carried_of_legal hidle hn h
      obtain ⟨p', rfl⟩ := eq_carried_of_legal (s := retouched y c m s.txQ s) hidle hn h'
      exact transparent_of_retouched _ d' e' m (s.txQ ++ frameOf d' e' s.seq p') _
    · have hn := Nat.le_of_not_lt hn
      cases (carryRequest_tooBig hidle d e hn).symm.trans h
      cases (carryRequest_tooBig (s := retouched y c m s.txQ s) hidle d' e' hn).symm.trans h'
      exact transparent_of_retouched _ d' e' m s.txQ _
  · cases (carryRequest_dropped hidle d e n).symm.trans h
    cases (carryRequest_dropped (s := retouched y c m s.txQ s) hidle d' e' n).symm.trans h'
    exact transparent_of_retouched _ y c m s.txQ s

/-- `RDCSR` may show type and command, and only `RDCSR 4` does. -/
theorem transparent_rdcsr {n : BitVec 3} (h : exec (.rdcsr n) s = .next t)
    (h' : exec (.rdcsr n) (retouched y c m s.txQ s) = .next t') : Transparent (.rdcsr n) t t' := by
  by_cases hn : n = 4
  · obtain ⟨w, -, ht⟩ := withValue_eq_next.mp h
    obtain ⟨w', -, ht'⟩ := withValue_eq_next.mp h'
    cases ht
    cases ht'
    exact ⟨y, c, m, s.txQ, .word w', rfl, fun hne => absurd (congrArg Instr.rdcsr hn) hne⟩
  · exact transparent_of_blind (blind_rdcsr hn) h h'

/-- The same operation on two such states. -/
theorem transparent_of_exec {i : Instr} (h : exec i s = .next t)
    (h' : exec i (retouched y c m s.txQ s) = .next t') : Transparent i t t' := by
  by_cases hrow : isWireRow i = true
  · exact transparent_wireRow hrow hrow rfl h h'
  · cases i with
    | send d e n => exact transparent_send h h'
    | wrtx a v => exact transparent_wrtx h h'
    | txb => exact transparent_txb h h'
    | rdcsr n => exact transparent_rdcsr h h'
    | rst =>
      cases h
      cases h'
      exact transparent_of_retouched _ 0 0 m s.txQ _
    | ack => exact transparent_of_blind blind_ack h h'
    | tmo => exact transparent_of_blind blind_tmo h h'
    | flt => exact transparent_of_blind blind_flt h h'
    | rdrx a => exact transparent_of_blind (blind_rdrx a) h h'
    | rxb b => exact transparent_of_blind (blind_rxb b) h h'
    | nextSeq => exact transparent_of_blind (fun _ _ _ _ _ => rfl) h h'
    | encode d e q p => exact transparent_of_blind (blind_encode d e q p) h h'
    | pLen b => exact transparent_of_blind (blind_pLen b) h h'
    | valid b => exact transparent_of_blind (fun _ _ _ _ _ => rfl) h h'
    | decode b => exact transparent_of_blind (blind_decode b) h h'
    | chkSeq d e q n => exact transparent_of_blind (fun _ _ _ _ _ => rfl) h h'
    | _ => exact absurd rfl hrow

end

/-! ## A response's type, command and payload -/

/-- The byte due is none that the receiver checks: the second or third of the header, or one of the
payload. -/
def DueUnchecked (s : State) : Prop :=
  (s.phase = .rxHdr ∧ (s.rxCnt = 1 ∨ s.rxCnt = 2)) ∨
  (s.phase = .rxBody ∧ ∃ n, rxLen s = .ok n ∧ s.rxCnt.toNat < n.toNat + 6)

/-- Such a byte is captured and nothing else happens, whatever its value. -/
theorem exec_rxb_unchecked {s : State} {b : Byte} (hs : StateInv s) (hdue : DueUnchecked s)
    (hq : s.rxQ = [] ∨ s.rxQ.head? = some b) : exec (.rxb b) s = .next (taken b s) := by
  rcases hdue with ⟨hp, hcnt⟩ | ⟨hp, n, hn, hlt⟩
  · exact exec_rxb_short hq hp (by rcases hcnt with hcnt | hcnt <;> rw [hcnt] <;> decide)
  · obtain ⟨g, hg⟩ := stateInv_captured hs
    obtain ⟨-, n', hn', hlegal, h6, -⟩ := stateInv_rxBody hs hp
    cases hn.symm.trans hn'
    have hbound : s.rxCnt.toNat < 0xF006 := by omega
    have hcnt : (taken b s).rxCnt.toNat = s.rxCnt.toNat + 1 := rxCnt_captureByte hbound b
    have hcell : ∀ i < 6, memRead (taken b s).rxBuf i = memRead s.rxBuf i := fun i hi =>
      memRead_memWrite_other s.rxCnt.toNat b (by omega)
    have hlen : rxLen (taken b s) = .ok n :=
      (rxLen_congr (hcell 4 (by omega)) (hcell 5 (by omega))).trans hn
    obtain ⟨q, hq3⟩ := Option.isSome_iff_exists.mp (hs.capturedHeld.2 3 (by omega))
    rw [exec_rxb_body hq hp hbound, checkBody_eq ((hcell 3 (by omega)).trans hq3) hlen, hcnt,
      if_neg (by omega)]

/-- Settles O34: operation by operation, and the bytes the receiver does not check. -/
theorem typeCommandAndPayloadAreTransparent : Obligations.TypeCommandAndPayloadAreTransparent := by
  refine ⟨?_, fun s b b' q hs hdue => ⟨?_, fun hq => ?_⟩⟩
  · rintro s _ t t' i i' ⟨y, c, m, rfl⟩ hsame h h'
    have h' : exec i' (retouched y c m s.txQ s) = .next t' := h'
    rcases hsame with rfl | ⟨_, _, _, _, _, rfl, rfl⟩ | ⟨_, _, _, rfl, rfl⟩ | ⟨hi, hi', hlen⟩
    · exact transparent_of_exec h h'
    · exact transparent_send h h'
    · exact transparent_wrtx h h'
    · exact transparent_wireRow hi hi' hlen h h'
  · have hdue : DueUnchecked s := hdue
    exact ⟨_, memWrite s.rxBuf s.rxCnt.toNat b',
      exec_rxb_unchecked (stateInv_rxQ hs (b :: q)) hdue (.inr rfl),
      exec_rxb_unchecked (stateInv_rxQ hs (b' :: q)) hdue (.inr rfl), rfl, rfl, fun a ha =>
        (memRead_memWrite_other _ _ ha).trans (memRead_memWrite_other _ _ ha).symm⟩
  · exact ⟨_, memWrite s.rxBuf s.rxCnt.toNat b', exec_rxb_unchecked hs hdue (.inl hq),
      exec_rxb_unchecked hs hdue (.inl hq), rfl, fun a ha =>
        (memRead_memWrite_other _ _ ha).trans (memRead_memWrite_other _ _ ha).symm⟩

end Sys2Proof.Proofs
end
